-- ==== Sys2Proof/Word.lean ====
section
/-! DEFINITION. The word types of BSIO: registers are bit vectors of the widths of spec/10_state.md rule R43, and a
memory of words is a list of address and word pairs. -/

namespace Sys2Proof

/-- One byte of `OMEM` or `IMEM` (rule R39). -/
abbrev Byte := BitVec 8

/-- A 16-bit cell of the adaptive probability map (rule R35). -/
abbrev Cell16 := BitVec 16

/-- A 32-bit register or a command word (rules R43, R100). -/
abbrev Word32 := BitVec 32

/-- A 64-bit register (rule R43). -/
abbrev Word64 := BitVec 64

/-- A Probability: the 12-bit integer P(next bit = 1) x 4096 (rule R16). -/
abbrev Probability := BitVec 12

/-- A memory of `w`-bit words as plain data: the written words only, addresses strictly rising. An address that is not
listed was never written since power-on; it has no value here (rule R85, log 1). -/
abbrev Memory (w : Nat) := List (Nat × BitVec w)

end Sys2Proof
end

