-- ==== Sys2Proof/Syntax.lean ====
section
/-! DEFINITION. The twenty commands of the BSIO command set, version 1, one constructor per row of
spec/opcode_table.json (spec/30_encoding.md rules R101, R102, R104), and the assembly text of one (rule R118). -/

namespace Sys2Proof

/-- A decoded command with the fields of its format (rules R101, R104). The wide operand is `ARG`, which is no part of
the word (rule R100). -/
inductive Instr where
  /-- `NOP`, format Z, rule R240. -/
  | nop
  /-- `OPEN role`, format O, rule R134. -/
  | openRole (role : BitVec 2)
  /-- `WRBIT bit`, format B, rule R135. -/
  | wrbit (bit : BitVec 1)
  /-- `WRBITS len`, format L, rule R136. -/
  | wrbits (len : BitVec 7)
  /-- `RDBIT`, format Z, rule R137. -/
  | rdbit
  /-- `RDBITS len`, format L, rule R138. -/
  | rdbits (len : BitVec 7)
  /-- `HASMORE`, format Z, rule R139. -/
  | hasmore
  /-- `CLOSE`, format Z, rule R140. -/
  | close
  /-- `SQUASH`, format Z, rule R174. -/
  | squash
  /-- `STRETCH`, format Z, rule R175. -/
  | stretch
  /-- `LOG2`, format Z, rule R176. -/
  | log2
  /-- `LOG2K`, format Z, rule R177. -/
  | log2k
  /-- `APMNEW rate`, format R, rule R196. -/
  | apmnew (rate : BitVec 4)
  /-- `APMGET bit pr`, format G, rule R197. -/
  | apmget (bit : BitVec 1) (pr : Probability)
  /-- `ECINIT codec apmen`, format E, rule R213. -/
  | ecinit (codec : BitVec 4) (apmen : BitVec 1)
  /-- `ECENC bit`, format B, rule R219. -/
  | ecenc (bit : BitVec 1)
  /-- `ECDEC`, format Z, rule R220. -/
  | ecdec
  /-- `ECFIN`, format Z, rule R221. -/
  | ecfin
  /-- `CLRERR`, format Z, rule R241. -/
  | clrerr
  /-- `SRESET`, format Z, rule R242. -/
  | sreset
  deriving DecidableEq, Repr

end Sys2Proof
end

