-- ==== Sys2Proof/WellFormed.lean ====
section
/-! DEFINITION. Which terms of `Instr` are commands of the spec: those whose fields the encoding admits. Every field has
its exact width in `Instr`, so the one check left is the reserved `ROLE` values (spec/30_encoding.md rules R102, R107). -/

namespace Sys2Proof

/-- Rule R107: `ROLE` 0 and 3 are reserved values. A field that is encodable but outside its operation's range (`LEN` 0,
`CODEC` 7) is well formed: it decodes and is an operand error (rule R107). -/
def Instr.wf : Instr → Bool
  | .openRole role => role == 1 || role == 2
  | .nop | .wrbit _ | .wrbits _ | .rdbit | .rdbits _ | .hasmore | .close => true
  | .squash | .stretch | .log2 | .log2k | .apmnew _ | .apmget _ _ => true
  | .ecinit _ _ | .ecenc _ | .ecdec | .ecfin | .clrerr | .sreset => true

end Sys2Proof
end

