-- ==== Sys2Proof/Decode.lean ====
section
/-! DEFINITION. The command decoder, total on all 32-bit words (spec/30_encoding.md rules R100 to R111), the encoder
written from the same tables, and the fixed name `decodeTableWord`. -/

namespace Sys2Proof

/-- The seven formats of rule R101. -/
inductive Format where
  | z | b | l | o | r | g | e
  deriving DecidableEq, Repr

/-- The mask of bits that select the command, per format (rule R101). -/
def Format.mask : Format → Word32
  | .z => 0xFFFFFFFF
  | .b => 0xFFFFFFFE
  | .l => 0xFFFFFF80
  | .o => 0xFFFFFFFC
  | .r => 0xFFFFFFF0
  | .g => 0xFFFFE000
  | .e => 0xFFFFFFE0

/-- The twenty operation codes of rule R104, by name. -/
inductive Opcode where
  | nop | openRole | wrbit | wrbits | rdbit | rdbits | hasmore | close
  | squash | stretch | log2 | log2k
  | apmnew | apmget
  | ecinit | ecenc | ecdec | ecfin
  | clrerr | sreset
  deriving DecidableEq, Repr

/-- The `OPC` byte of each command (rule R104). -/
def Opcode.bits : Opcode → Byte
  | .nop => 0x00
  | .openRole => 0x01
  | .wrbit => 0x02
  | .wrbits => 0x03
  | .rdbit => 0x04
  | .rdbits => 0x05
  | .hasmore => 0x06
  | .close => 0x07
  | .squash => 0x10
  | .stretch => 0x11
  | .log2 => 0x12
  | .log2k => 0x13
  | .apmnew => 0x20
  | .apmget => 0x21
  | .ecinit => 0x30
  | .ecenc => 0x31
  | .ecdec => 0x32
  | .ecfin => 0x33
  | .clrerr => 0x7E
  | .sreset => 0x7F

/-- The format of each command (rule R104). -/
def Opcode.format : Opcode → Format
  | .nop | .rdbit | .hasmore | .close | .squash | .stretch | .log2 | .log2k => .z
  | .ecdec | .ecfin | .clrerr | .sreset => .z
  | .wrbit | .ecenc => .b
  | .wrbits | .rdbits => .l
  | .openRole => .o
  | .apmnew => .r
  | .apmget => .g
  | .ecinit => .e

/-- The command an `OPC` byte names; `none` for a reserved one (rules R104, R105). -/
def Opcode.ofBits (opc : Byte) : Option Opcode :=
  match opc.toNat with
  | 0x00 => some .nop
  | 0x01 => some .openRole
  | 0x02 => some .wrbit
  | 0x03 => some .wrbits
  | 0x04 => some .rdbit
  | 0x05 => some .rdbits
  | 0x06 => some .hasmore
  | 0x07 => some .close
  | 0x10 => some .squash
  | 0x11 => some .stretch
  | 0x12 => some .log2
  | 0x13 => some .log2k
  | 0x20 => some .apmnew
  | 0x21 => some .apmget
  | 0x30 => some .ecinit
  | 0x31 => some .ecenc
  | 0x32 => some .ecdec
  | 0x33 => some .ecfin
  | 0x7E => some .clrerr
  | 0x7F => some .sreset
  | _ => none

/-- `OPC = w[31:24]` (rule R101). -/
def opcOf (w : Word32) : Byte := w.extractLsb' 24 8

/-- Why a word does not decode; each raises `IllegalCommand` (rules R105 to R108). -/
inductive DecodeError where
  /-- The `OPC` is not in rule R104 (rule R105). -/
  | reservedOpcode
  /-- A bit the format does not name is 1 (rule R106). -/
  | reservedBits
  /-- `OPEN` with `ROLE` 0 or 3 (rule R107). -/
  | reservedRole
  deriving DecidableEq, Repr

/-- The field extraction of rules R101 and R102 for a word whose opcode and reserved bits have been checked. -/
def fieldsOf (op : Opcode) (w : Word32) : Instr :=
  match op with
  | .nop => .nop
  | .openRole => .openRole (w.extractLsb' 0 2)
  | .wrbit => .wrbit (w.extractLsb' 0 1)
  | .wrbits => .wrbits (w.extractLsb' 0 7)
  | .rdbit => .rdbit
  | .rdbits => .rdbits (w.extractLsb' 0 7)
  | .hasmore => .hasmore
  | .close => .close
  | .squash => .squash
  | .stretch => .stretch
  | .log2 => .log2
  | .log2k => .log2k
  | .apmnew => .apmnew (w.extractLsb' 0 4)
  | .apmget => .apmget (w.extractLsb' 0 1) (w.extractLsb' 1 12)
  | .ecinit => .ecinit (w.extractLsb' 0 4) (w.extractLsb' 4 1)
  | .ecenc => .ecenc (w.extractLsb' 0 1)
  | .ecdec => .ecdec
  | .ecfin => .ecfin
  | .clrerr => .clrerr
  | .sreset => .sreset

/-- The decoding procedure of rule R111, total on all words: reserved opcode, reserved bits, reserved role, fields. -/
def decode (w : Word32) : Except DecodeError Instr :=
  match Opcode.ofBits (opcOf w) with
  | none => .error .reservedOpcode
  | some op =>
    if w &&& op.format.mask ≠ op.bits ++ (0 : BitVec 24) then .error .reservedBits
    else if (fieldsOf op w).wf then .ok (fieldsOf op w)
    else .error .reservedRole

/-- The operation code of a command (rule R104). -/
def Instr.opcode : Instr → Opcode
  | .nop => .nop
  | .openRole _ => .openRole
  | .wrbit _ => .wrbit
  | .wrbits _ => .wrbits
  | .rdbit => .rdbit
  | .rdbits _ => .rdbits
  | .hasmore => .hasmore
  | .close => .close
  | .squash => .squash
  | .stretch => .stretch
  | .log2 => .log2
  | .log2k => .log2k
  | .apmnew _ => .apmnew
  | .apmget _ _ => .apmget
  | .ecinit _ _ => .ecinit
  | .ecenc _ => .ecenc
  | .ecdec => .ecdec
  | .ecfin => .ecfin
  | .clrerr => .clrerr
  | .sreset => .sreset

/-- The field area `w[23:0]` of a command (rule R101): each field at its place, 0 elsewhere. -/
def Instr.fieldArea : Instr → BitVec 24
  | .openRole role => role.setWidth 24
  | .wrbit bit => bit.setWidth 24
  | .wrbits len => len.setWidth 24
  | .rdbits len => len.setWidth 24
  | .apmnew rate => rate.setWidth 24
  | .apmget bit pr => (pr ++ bit).setWidth 24
  | .ecinit codec apmen => (apmen ++ codec).setWidth 24
  | .ecenc bit => bit.setWidth 24
  | .nop | .rdbit | .hasmore | .close | .squash | .stretch | .log2 | .log2k => 0
  | .ecdec | .ecfin | .clrerr | .sreset => 0

/-- The command word of a command: the `OPC` byte above the field area (rule R101). -/
def encode (i : Instr) : Word32 := i.opcode.bits ++ i.fieldArea

/-- The command the decoder reads from a word of `nbits` bits, bit 0 least significant; bits above are 0. A command is one
32-bit word given by value, so no byte order enters (rules R100, R72). -/
def decodeTableWord (nbits w : Nat) : Option Instr :=
  match decode (BitVec.ofNat 32 (w % 2 ^ nbits)) with
  | .ok i => some i
  | .error _ => none

end Sys2Proof
end

