-- ==== Sys2Proof/Config.lean ====
section
/-! DEFINITION. What an implementation fixes (spec/00_scope.md rule R6, spec/20_memory.md rule R76) and the free values:
what the spec leaves unspecified, as constants without a body, so that nothing can be proved of them. -/

namespace Sys2Proof

/-- The parameters the model takes (rules R6, R76). They are data, so a statement over every state is a statement over
every choice of them. -/
structure Params where
  /-- `OMEM_SIZE`, size in bytes of the output buffer. -/
  omemSize : Nat
  /-- `IMEM_SIZE`, size in bytes of the input buffer. -/
  imemSize : Nat
  /-- `APM_MAX_CTX`, the largest context count `APMNEW` accepts. -/
  apmMaxCtx : Nat
  /-- `INV_EXP[0..32]`, the anchors of the logistic curve. -/
  invExp : List Nat
  /-- `BASE`, bus address of the register page. -/
  base : Nat
  /-- `OMEM_BASE`, bus address of the `OMEM` window. -/
  omemBase : Nat
  /-- `IMEM_BASE`, bus address of the `IMEM` window. -/
  imemBase : Nat
  /-- `CELL_BASE`, bus address of the `CELL` window when it does not fit the region. -/
  cellBase : Nat
  deriving DecidableEq, Repr

/-- The constraints of rule R6 on the sizes and on `BASE`, and of rule R161 on the 33 anchors. -/
abbrev Params.Valid (p : Params) : Prop :=
  (1 ≤ p.omemSize ∧ p.omemSize ≤ 2 ^ 32) ∧
  (1 ≤ p.imemSize ∧ p.imemSize ≤ 2 ^ 32) ∧
  (1 ≤ p.apmMaxCtx ∧ p.apmMaxCtx ≤ 2 ^ 24) ∧
  p.invExp.length = 33 ∧
  (∀ j < 32, p.invExp.getD j 0 ≤ p.invExp.getD (j + 1) 0) ∧
  p.invExp.getD 31 0 ≤ 65535 ∧
  p.invExp.getD 32 0 ≤ 65536 ∧
  p.base % 2 ^ 24 = 0

/-- FREE VALUE (rule R85, log 1): the byte `IMEM[a]` holds after power-on. -/
opaque Config.imemPowerOn : Nat → Byte

/-- FREE VALUE (rule R85, log 1): the byte `OMEM[a]` holds after power-on. -/
opaque Config.omemPowerOn : Nat → Byte

/-- FREE VALUE (rules R35, R85, log 1): the value `CELL[i]` holds after power-on. -/
opaque Config.cellPowerOn : Nat → Cell16

/-- FREE VALUE (rule R78, log 6): what the `n`-th unspecified host read of an `OMEM` byte returns. -/
opaque Config.omemUnspecified : Nat → Byte

/-- FREE VALUE (rule R78, log 6): what the `n`-th unspecified host read of a `CELL` window word returns. -/
opaque Config.cellUnspecified : Nat → Word32

end Sys2Proof
end

