-- ==== Sys2Proof/Machine/Tables.lean ====
section
/-! DEFINITION. The constant tables of the LLE unit that are given by listing (spec/41_logistic.md rules R162, R169,
R171, spec/45_table_listings.md rules R253 to R255) and the default parameters (spec/00_scope.md rule R6). -/

namespace Sys2Proof.Machine

/-- The default `INV_EXP[0..32]` (rule R162). -/
def defaultInvExp : List Nat :=
  [0, 24, 41, 70, 118, 200, 338, 570, 958, 1606, 2673] ++
  [4405, 7144, 11305, 17266, 24953, 32768, 40583, 48270, 54231, 58392, 61131] ++
  [62863, 63930, 64578, 64966, 65198, 65336, 65418, 65466, 65495, 65512, 65536]

/-- `INV_EXP_F[0..32]`, the formula-rounded alternative (rule R254). -/
def formulaInvExp : List Nat :=
  [10, 17, 30, 51, 89, 154, 267, 461, 795, 1366, 2331] ++
  [3938, 6537, 10558, 16367, 23977, 32768, 41559, 49169, 54978, 58999, 61598] ++
  [63205, 64170, 64741, 65075, 65269, 65382, 65447, 65485, 65506, 65519, 65526]

/-- `LOG2_8[i]`: `floor(log2 i)` for `1 <= i <= 255`, and entry 0 is 0 (rule R169). -/
def log2_8 (i : Nat) : Nat := if i = 0 then 0 else Nat.log2 i

/-- `LOG2_4096[0..63]` (rule R253). -/
def log2_4096_a : List Nat :=
  [0, 0, 4096, 6492, 8192, 9511, 10588, 11499, 12288, 12984, 13607, 14170, 14684, 15157, 15595, 16003] ++
  [16384, 16742, 17080, 17400, 17703, 17991, 18266, 18529, 18780, 19021, 19253, 19476, 19691, 19898, 20099, 20292] ++
  [20480, 20662, 20838, 21010, 21176, 21338, 21496, 21649, 21799, 21945, 22087, 22226, 22362, 22495, 22625, 22752] ++
  [22876, 22998, 23117, 23234, 23349, 23462, 23572, 23680, 23787, 23892, 23994, 24095, 24195, 24292, 24388, 24483]

/-- `LOG2_4096[64..127]` (rule R253). -/
def log2_4096_b : List Nat :=
  [24576, 24668, 24758, 24847, 24934, 25021, 25106, 25189, 25272, 25354, 25434, 25513, 25592, 25669, 25745, 25820] ++
  [25895, 25968, 26041, 26112, 26183, 26253, 26322, 26390, 26458, 26525, 26591, 26656, 26721, 26784, 26848, 26910] ++
  [26972, 27033, 27094, 27154, 27213, 27272, 27330, 27388, 27445, 27502, 27558, 27613, 27668, 27722, 27776, 27830] ++
  [27883, 27935, 27988, 28039, 28090, 28141, 28191, 28241, 28291, 28340, 28388, 28437, 28484, 28532, 28579, 28626]

/-- `LOG2_4096[128..191]` (rule R253). -/
def log2_4096_c : List Nat :=
  [28672, 28718, 28764, 28809, 28854, 28898, 28943, 28987, 29030, 29074, 29117, 29159, 29202, 29244, 29285, 29327] ++
  [29368, 29409, 29450, 29490, 29530, 29570, 29609, 29649, 29688, 29726, 29765, 29803, 29841, 29879, 29916, 29954] ++
  [29991, 30027, 30064, 30100, 30137, 30172, 30208, 30244, 30279, 30314, 30349, 30384, 30418, 30452, 30486, 30520] ++
  [30554, 30587, 30621, 30654, 30687, 30719, 30752, 30784, 30817, 30849, 30880, 30912, 30944, 30975, 31006, 31037]

/-- `LOG2_4096[192..255]` (rule R253). -/
def log2_4096_d : List Nat :=
  [31068, 31099, 31129, 31160, 31190, 31220, 31250, 31280, 31309, 31339, 31368, 31397, 31426, 31455, 31484, 31513] ++
  [31541, 31569, 31598, 31626, 31654, 31681, 31709, 31737, 31764, 31791, 31818, 31846, 31872, 31899, 31926, 31952] ++
  [31979, 32005, 32031, 32058, 32084, 32109, 32135, 32161, 32186, 32212, 32237, 32262, 32287, 32312, 32337, 32362] ++
  [32387, 32411, 32436, 32460, 32484, 32508, 32533, 32557, 32580, 32604, 32628, 32651, 32675, 32698, 32722, 32745]

/-- `LOG2_4096[0..255]` (rules R171, R253). -/
def log2_4096 : List Nat := log2_4096_a ++ log2_4096_b ++ log2_4096_c ++ log2_4096_d

/-- The default parameters of rule R6. The window bases are left to the platform and no rule depends on them (rule R76);
the values here keep the four windows apart (DESIGN CHOICE, log 3). -/
def defaultParams : Params where
  omemSize := 65536
  imemSize := 65536
  apmMaxCtx := 1024
  invExp := defaultInvExp
  base := 0
  omemBase := 2 ^ 32
  imemBase := 2 ^ 33
  cellBase := 2 ^ 34

end Sys2Proof.Machine
end

