-- ==== Sys2Proof/Machine/State.lean ====
section
/-! DEFINITION. The state of one BSIO instance (spec/10_state.md), the host's moves that drive it
(spec/70_reset_and_hazards.md rule R307), the reasons a step can stop, and the state after reset (rules R43, R301). -/

namespace Sys2Proof.Machine

/-- `STATUS.ROLE` (rule R25): 0 `NONE`, 1 `WRITER`, 2 `READER`; 3 never occurs. -/
inductive Role where
  | none | writer | reader
  deriving DecidableEq, Repr

/-- The six error kinds a command can raise (rule R260, codes 1 to 6). -/
inductive ErrorKind where
  | invalidArgument | endOfStream | streamClosed | ioFailure | unsupportedCodec | illegalCommand
  deriving DecidableEq, Repr

/-- The content of `STATUS.ERR` and `STATUS.FIRSTERR`: `OK` or an error kind, seven values in all (rule R260). -/
inductive ErrCode where
  | ok
  | err (kind : ErrorKind)
  deriving DecidableEq, Repr

/-- What a command raises: the kind, and the sub-status recorded as `IOSTAT` (rules R12, R264). -/
structure Raised where
  kind : ErrorKind
  iostat : BitVec 4
  deriving DecidableEq, Repr

/-- The registers of the register page, by name (rule R43). -/
inductive Reg where
  | cmd | arg | res | status | cmdcnt | errcmd | errarg
  | wbits | wbytes | rbits | rbytes | snkcap | srclen | wacc
  | apmn | apmrate | apmidx
  | eclow | echigh | eccode | ecpred | ecpr | eclast
  deriving DecidableEq, Repr

/-- The moves of the host (rule R307). -/
inductive HostMove where
  /-- Write `ARG` with a 64-bit value. -/
  | writeArg (value : Word64)
  /-- Write `CMD` with a 32-bit word: issue the command. -/
  | writeCmd (word : Word32)
  /-- Read a register. -/
  | readReg (reg : Reg)
  /-- Write `IMEM[a]` with a byte. -/
  | writeImem (a : Nat) (value : Byte)
  /-- Read `IMEM[a]`. -/
  | readImem (a : Nat)
  /-- Read `OMEM[a]`. -/
  | readOmem (a : Nat)
  /-- Read word `i` of the `CELL` window. -/
  | readCell (i : Nat)
  /-- Assert the hardware reset. -/
  | hardwareReset
  deriving DecidableEq, Repr

/-- One access on the host's bus, of `bits` bits at a byte address (rules R72, R76). -/
inductive BusAccess where
  | read (addr bits : Nat)
  | write (addr bits : Nat) (value : Word64)
  deriving DecidableEq, Repr

/-- One input of the machine: a move of rule R307, or a bus access that the address map of rule R76 turns into one. -/
inductive HostInput where
  | move (m : HostMove)
  | bus (b : BusAccess)
  deriving DecidableEq, Repr

/-- The state of one instance, and the model's own fields, which come last. -/
structure State where
  /-- `ARG` (rule R21). -/
  arg : Word64
  /-- `RES` (rule R22). -/
  res : Word64
  /-- `STATUS.ROLE` (rule R25). -/
  role : Role
  /-- `STATUS.CLOSED` (rule R25). -/
  closed : Bool
  /-- `STATUS.ECACT` (rule R25). -/
  ecact : Bool
  /-- `STATUS.APMVLD` (rule R25). -/
  apmvld : Bool
  /-- `STATUS.ECAPM` (rule R25). -/
  ecapm : Bool
  /-- `STATUS.ERR` (rule R25). -/
  err : ErrCode
  /-- `STATUS.FIRSTERR` (rule R25). -/
  firsterr : ErrCode
  /-- `STATUS.ECCODEC` (rule R25). -/
  eccodec : BitVec 4
  /-- `STATUS.IOSTAT` (rule R25). -/
  iostat : BitVec 4
  /-- `CMDCNT` (rule R24). -/
  cmdcnt : Word64
  /-- `ERRCMD` (rule R26). -/
  errcmd : Word32
  /-- `ERRARG` (rule R26). -/
  errarg : Word64
  /-- `WBITS` (rule R27). -/
  wbits : Word64
  /-- `WBYTES` (rule R28). -/
  wbytes : Word64
  /-- `WACC` (rule R29). -/
  wacc : Byte
  /-- `SNKCAP` (rule R30). -/
  snkcap : Word64
  /-- `RBITS` (rule R31). -/
  rbits : Word64
  /-- `SRCLEN` (rule R33). -/
  srclen : Word64
  /-- `APMN` (rule R34). -/
  apmn : Word32
  /-- `APMRATE` (rule R34). -/
  apmrate : BitVec 4
  /-- `APMIDX` (rule R34). -/
  apmidx : Word32
  /-- `ECLOW` (rule R36). -/
  eclow : Word32
  /-- `ECHIGH` (rule R36). -/
  echigh : Word32
  /-- `ECCODE` (rule R36). -/
  eccode : Word32
  /-- `ECPRED` (rule R37). -/
  ecpred : BitVec 16
  /-- `ECPR` (rule R37). -/
  ecpr : Probability
  /-- `ECLAST` (rule R37). -/
  eclast : BitVec 1
  /-- `OMEM` (rule R39). -/
  omem : List Host.Cell
  /-- `IMEM` (rule R39). -/
  imem : List Host.Cell
  /-- `CELL` (rule R35). -/
  cell : Memory 16
  /-- The model's own: the parameters, which no step changes (rules R6, R41, log 2). -/
  params : Params
  /-- The model's own: the host inputs not yet taken, the first next (rule R307, log 4). -/
  hostIn : List HostInput
  /-- The model's own: the value returned to the host by its last read (log 5). -/
  hostOut : Word64
  /-- The model's own: how many unspecified reads have been answered (log 6). -/
  freeReads : Nat
  deriving DecidableEq, Repr

/-- Why a step stops with a fault. No command does: a command error is a next state (rule R262). -/
inductive Fault where
  /-- Raised by a host access to a bus address that no window of the instance holds, or to a byte at or beyond
  `OMEM_SIZE` or `IMEM_SIZE`, or a cell beyond `33 * APM_MAX_CTX`: rules R76 and R307 give such an address no meaning.
  Safe: the model stops where the platform decides. -/
  | noSuchAddress (a : Nat)
  deriving DecidableEq, Repr

/-- Why a step refuses. The meaning of no command does (rule R108): each refusal is of a move of the host outside its contract. -/
inductive Refusal where
  /-- Raised by an arm of `exec` whose command has no meaning yet; no arm is one. Safe. -/
  | notModelled (mnemonic : String)
  /-- Raised by a host write to `IMEM` while `STATUS.ROLE = READER`: outside the contract, "a model refuses the move"
  (rules R77, R305). Safe. -/
  | imemWriteUnderReader
  /-- Raised by the `CMD` write that would open a reader over `IMEM` bytes of which one was never written: outside the
  contract, "a model refuses the move" (rules R85, R305, treatment U26). `OPEN` itself has its meaning in `exec`. Safe. -/
  | sourceNotWritten
  /-- Raised by a bus access of the wrong width or alignment: outside the contract (rule R72, R305). Safe. -/
  | accessShape
  deriving DecidableEq, Repr

/-- The instance after hardware reset at power-on (rules R43, R300, R301): every register 0, nothing written in the three
memories (rule R302); the parameters at their defaults (rule R6, log 2) and no host input waiting (log 4). -/
def State.reset : State where
  arg := 0
  res := 0
  role := .none
  closed := false
  ecact := false
  apmvld := false
  ecapm := false
  err := .ok
  firsterr := .ok
  eccodec := 0
  iostat := 0
  cmdcnt := 0
  errcmd := 0
  errarg := 0
  wbits := 0
  wbytes := 0
  wacc := 0
  snkcap := 0
  rbits := 0
  srclen := 0
  apmn := 0
  apmrate := 0
  apmidx := 0
  eclow := 0
  echigh := 0
  eccode := 0
  ecpred := 0
  ecpr := 0
  eclast := 0
  omem := []
  imem := []
  cell := []
  params := defaultParams
  hostIn := []
  hostOut := 0
  freeReads := 0

end Sys2Proof.Machine
end

