-- ==== Sys2Proof/Machine/Operands.lean ====
section
/-! DEFINITION. The integer notation of spec/00_scope.md rules R9 and R10, and every way a command reads `ARG` or its own
fields (spec/30_encoding.md rules R102, R103, R110). -/

namespace Sys2Proof.Machine

/-- `a >> k` of rule R9: `floor(a / 2^k)`, also for a negative `a`. -/
def asr (a : Int) (k : Nat) : Int := a / ((2 ^ k : Nat) : Int)

/-- `a & (2^k - 1)` of rule R9: `a mod 2^k`, never negative, also for a negative `a`. -/
def lowBits (a : Int) (k : Nat) : Nat := (a % ((2 ^ k : Nat) : Int)).toNat

/-- `zext_64` of rule R10. -/
def zext64 (v : Nat) : Word64 := BitVec.ofNat 64 v

/-- `sext_64` of rule R10. -/
def sext64 (v : Int) : Word64 := BitVec.ofInt 64 v

/-- `ARG` as an unsigned integer (rule R103). -/
def argUnsigned (s : State) : Nat := s.arg.toNat

/-- `ARG` as `signed_64(ARG)`, for `SQUASH` (rule R103). -/
def argSigned (s : State) : Int := s.arg.toInt

/-- `ARG mod 2^len`, for `WRBITS`: the bits at and above `len` are ignored (rules R103, R136). -/
def argLow (len : Nat) (s : State) : Nat := s.arg.toNat % 2 ^ len

/-- The role an `OPEN` field names (rule R102); `none` of the two for the reserved values 0 and 3 (rule R107). -/
def roleOfField (role : BitVec 2) : Role :=
  match role.toNat with
  | 1 => .writer
  | 2 => .reader
  | _ => .none

/-- A one-bit field as a flag (rule R102). -/
def flagOf (bit : BitVec 1) : Bool := bit == 1

end Sys2Proof.Machine
end

