-- ==== Sys2Proof/Machine/Flags.lean ====
section
/-! DEFINITION. The codes of roles and errors and the 32-bit word `STATUS` made of its fields (spec/10_state.md rule R25,
spec/60_exceptions.md rule R260); the derived register `RBYTES` (rule R32). -/

namespace Sys2Proof.Machine

/-- The code of a role in `STATUS[1:0]` (rule R25). -/
def Role.code : Role → Nat
  | .none => 0
  | .writer => 1
  | .reader => 2

/-- The code of an error kind (rule R260). -/
def ErrorKind.code : ErrorKind → Nat
  | .invalidArgument => 1
  | .endOfStream => 2
  | .streamClosed => 3
  | .ioFailure => 4
  | .unsupportedCodec => 5
  | .illegalCommand => 6

/-- The 4-bit code in `STATUS.ERR` and `STATUS.FIRSTERR`; 0 is `OK` (rule R260). -/
def ErrCode.code : ErrCode → Nat
  | .ok => 0
  | .err kind => kind.code

/-- The word `STATUS` (rule R25): each field at its place, the reserved bits 7:6 and 31:24 read 0. -/
def statusWord (s : State) : Word32 :=
  BitVec.ofNat 32
    (s.role.code + s.closed.toNat * 2 ^ 2 + s.ecact.toNat * 2 ^ 3 + s.apmvld.toNat * 2 ^ 4 + s.ecapm.toNat * 2 ^ 5 +
      s.err.code * 2 ^ 8 + s.firsterr.code * 2 ^ 12 + s.eccodec.toNat * 2 ^ 16 + s.iostat.toNat * 2 ^ 20)

/-- `RBYTES`, which is not stored: it always reads `(RBITS + 7) >> 3` (rule R32). -/
def rbytes (s : State) : Word64 := BitVec.ofNat 64 ((s.rbits.toNat + 7) / 2 ^ 3)

end Sys2Proof.Machine
end

