-- ==== Sys2Proof/Machine/Ops.lean ====
section
/-! DEFINITION. The operations every command is made of: reading and writing a memory in its canonical form, `PutBits` and
`GetBits` (spec/40_bitstream.md rules R131, R132), raising an error and ending a command (spec/60_exceptions.md rules
R262, R264), and the reset of the registers (spec/70_reset_and_hazards.md rules R300 to R302). -/

namespace Sys2Proof.Machine

/-! ### Memories -/

/-- The canonical form: the listed addresses strictly rise. An unlisted address reads as no value, so no entry can equal
what an unlisted address reads as. -/
def Memory.wf {w : Nat} : Memory w → Bool
  | [] => true
  | [_] => true
  | (a, _) :: (b, v) :: m => decide (a < b) && Memory.wf ((b, v) :: m)

/-- The word last written at an address, if one was written since power-on (rules R77, R85). -/
def Memory.read {w : Nat} (m : Memory w) (a : Nat) : Option (BitVec w) :=
  match m with
  | [] => none
  | (b, v) :: m => if a = b then some v else Memory.read m a

/-- Write one word, keeping the canonical form. -/
def Memory.write {w : Nat} (a : Nat) (v : BitVec w) : Memory w → Memory w
  | [] => [(a, v)]
  | (b, u) :: m =>
    if a < b then (a, v) :: (b, u) :: m
    else if a = b then (a, v) :: m
    else (b, u) :: Memory.write a v m

/-- Write the words `f 0 .. f (n - 1)` at the addresses `0 .. n - 1` and leave every other address as it is. -/
def Memory.fill {w : Nat} (n : Nat) (f : Nat → BitVec w) (m : Memory w) : Memory w :=
  (List.range n).map (fun i => (i, f i)) ++ m.filter (fun c => decide (n ≤ c.1))

/-- The first address from `a` on that the memory does not list. -/
def Memory.firstUnlisted {w : Nat} : Nat → Memory w → Nat
  | a, [] => a
  | a, (b, _) :: m =>
    if b = a then Memory.firstUnlisted (a + 1) m
    else if b < a then Memory.firstUnlisted a m
    else a

/-- `IMEM[a]`: the byte last written, or the free byte it holds since power-on (rules R77, R85, log 1). -/
def imemByte (s : State) (a : Nat) : Byte := (Memory.read s.imem a).getD (Config.imemPowerOn a)

/-- `OMEM[a]`: the byte last written, or the free byte it holds since power-on (rule R85, log 1). -/
def omemByte (s : State) (a : Nat) : Byte := (Memory.read s.omem a).getD (Config.omemPowerOn a)

/-- `CELL[i]`: the cell last written, or the free value it holds since power-on (rules R35, R85, log 1). -/
def cellAt (s : State) (i : Nat) : Cell16 := (Memory.read s.cell i).getD (Config.cellPowerOn i)

/-- `CELL[i] <- v`. -/
def setCell (i : Nat) (v : Cell16) (s : State) : State := { s with cell := Memory.write i v s.cell }

/-! ### Raising -/

/-- `raise <Kind>` with sub-status 0 (rules R12, R264). -/
def raise {α : Type} (kind : ErrorKind) : Except Raised α := .error ⟨kind, 0⟩

/-! ### The writer's buffer -/

/-- What `PutBits` writes: `WBITS`, `WBYTES`, `WACC` and `OMEM` (rules R27 to R29, R39). -/
structure Sink where
  wbits : Word64
  wbytes : Word64
  wacc : Byte
  omem : List Host.Cell
  deriving DecidableEq, Repr

/-- The writer's registers and buffer of a state. -/
def State.sink (s : State) : Sink := ⟨s.wbits, s.wbytes, s.wacc, s.omem⟩

/-- A state with other writer's registers and buffer. -/
def State.withSink (s : State) (k : Sink) : State :=
  { s with wbits := k.wbits, wbytes := k.wbytes, wacc := k.wacc, omem := k.omem }

/-- A byte is delivered: `OMEM[WBYTES] <- v; WBYTES <- WBYTES + 1; WACC <- 0` (rules R131, R140). -/
def Sink.deliver (v : Byte) (k : Sink) : Sink :=
  { k with wbytes := k.wbytes + 1, wacc := 0, omem := Memory.write k.wbytes.toNat v k.omem }

/-- One turn of the loop of `PutBits` (rule R131). -/
def putBit (b : Bool) (k : Sink) : Sink :=
  let acc := k.wacc ||| ((if b then 1 else 0 : Byte) <<< (7 - k.wbits.toNat % 8))
  let k' := { k with wacc := acc, wbits := k.wbits + 1 }
  if k'.wbits.toNat % 8 = 0 then k'.deliver acc else k'

/-- The loop of `PutBits` (rule R131): the bits `v[n-1] .. v[0]`, most significant first. -/
def putLoop (v : Nat) : Nat → Sink → Sink
  | 0, k => k
  | i + 1, k => putLoop v i (putBit (v.testBit i) k)

/-- `PutBits(v, n)` (rule R131): the capacity test first, then the bits. -/
def putBits (v n : Nat) (s : State) : Except Raised State :=
  if s.wbits.toNat + n > 8 * s.snkcap.toNat then .error ⟨.ioFailure, 1⟩
  else .ok (s.withSink (putLoop v n s.sink))

/-! ### The reader's buffer -/

/-- Stream bit `pos` of the source (rules R71, R132): bit `7 - (pos & 7)` of `IMEM[pos >> 3]`. -/
def sourceBit (s : State) (pos : Nat) : Bool := (imemByte s (pos / 8)).getLsbD (7 - pos % 8)

/-- The loop of `GetBits` (rule R132): `v <- (v << 1) | b` for the next `n` bits from `pos`. -/
def getLoop (s : State) : Nat → Nat → Nat → Nat
  | 0, _, v => v
  | n + 1, pos, v => getLoop s n (pos + 1) (2 * v + (sourceBit s pos).toNat)

/-- `GetBits(n)` (rule R132): the end test first, then the value read and the state with the bits consumed. -/
def getBits (n : Nat) (s : State) : Except Raised (Nat × State) :=
  if s.rbits.toNat + n > 8 * s.srclen.toNat then raise .endOfStream
  else .ok (getLoop s n s.rbits.toNat 0, { s with rbits := s.rbits + BitVec.ofNat 64 n })

/-! ### Registers as a whole -/

/-- `RES <- v` (rule R22). -/
def setRes (v : Word64) (s : State) : State := { s with res := v }

/-- Every register to its reset value (rules R43, R242, R301). `OMEM`, `IMEM` and `CELL` are not written (rule R302); the
parameters, the host's inputs and outputs are no registers of the instance. -/
def resetRegisters (s : State) : State :=
  { State.reset with
    omem := s.omem, imem := s.imem, cell := s.cell,
    params := s.params, hostIn := s.hostIn, hostOut := s.hostOut, freeReads := s.freeReads }

/-! ### The end of every command -/

/-- The end of a command that completed (rule R264): `STATUS.ERR <- 0; CMDCNT <- CMDCNT + 1`. -/
def succeed (s : State) : State := { s with err := .ok, cmdcnt := s.cmdcnt + 1 }

/-- TAKING AN ERROR (rules R262, R264): on the state before the command, `STATUS.ERR` is the kind; the first failure since
reset, `SRESET` or `CLRERR` also sets `FIRSTERR`, `IOSTAT`, `ERRCMD` and `ERRARG`; `CMDCNT` counts the command. There is
no handler, no saved position and no mode change, and so no return from an error (rule R262). -/
def takeError (w : Word32) (r : Raised) (s : State) : State :=
  match s.firsterr with
  | .ok =>
    { s with
      err := .err r.kind, firsterr := .err r.kind, iostat := r.iostat, errcmd := w, errarg := s.arg,
      cmdcnt := s.cmdcnt + 1 }
  | .err _ => { s with err := .err r.kind, cmdcnt := s.cmdcnt + 1 }

/-- `Issue(w, a)` of rule R264 for every command but `SRESET`: run the body on the state; commit it, or take the error on
the state before. The word of a command is its encoding: no other word decodes to it (rules R104, R108). -/
def issue (i : Instr) (body : State → Except Raised State) (s : State) : Host.Outcome State Fault Refusal :=
  match body s with
  | .ok t => .next (succeed t)
  | .error r => .next (takeError (encode i) r s)

end Sys2Proof.Machine
end

