-- ==== Sys2Proof/Machine/Bitstream.lean ====
section
/-! DEFINITION. The BIO unit (spec/40_bitstream.md): the commands `OPEN`, `WRBIT`, `WRBITS`, `RDBIT`, `RDBITS`, `HASMORE`
and `CLOSE`, each with its checks in the order of spec/60_exceptions.md rule R263. -/

namespace Sys2Proof.Machine

/-- `OPEN` (rule R134): choose the role and bind the buffer. -/
def execOpen (role : BitVec 2) (s : State) : Host.Outcome State Fault Refusal :=
  issue (.openRole role) (fun s =>
    match roleOfField role with
    | .none => raise .illegalCommand
    | .writer =>
      if s.role ≠ .none then raise .illegalCommand
      else if argUnsigned s > s.params.omemSize then raise .invalidArgument
      else .ok { s with snkcap := s.arg, role := .writer }
    | .reader =>
      if s.role ≠ .none then raise .illegalCommand
      else if argUnsigned s > s.params.imemSize then raise .invalidArgument
      else .ok { s with srclen := s.arg, role := .reader }) s

/-- `WRBIT` (rule R135). -/
def execWrbit (bit : BitVec 1) (s : State) : Host.Outcome State Fault Refusal :=
  issue (.wrbit bit) (fun s =>
    if s.role ≠ .writer then raise .illegalCommand
    else if s.closed then raise .streamClosed
    else if s.ecact then raise .illegalCommand
    else putBits bit.toNat 1 s) s

/-- `WRBITS` (rule R136): legal lengths are 1 to 64 (rule R133). -/
def execWrbits (len : BitVec 7) (s : State) : Host.Outcome State Fault Refusal :=
  issue (.wrbits len) (fun s =>
    if s.role ≠ .writer then raise .illegalCommand
    else if s.closed then raise .streamClosed
    else if s.ecact then raise .illegalCommand
    else if len.toNat = 0 ∨ len.toNat > 64 then raise .invalidArgument
    else putBits (argLow len.toNat s) len.toNat s) s

/-- `RDBIT` (rule R137). -/
def execRdbit (s : State) : Host.Outcome State Fault Refusal :=
  issue .rdbit (fun s =>
    if s.role ≠ .reader then raise .illegalCommand
    else if s.closed then raise .streamClosed
    else if s.ecact then raise .illegalCommand
    else match getBits 1 s with
      | .error r => .error r
      | .ok (v, t) => .ok (setRes (zext64 v) t)) s

/-- `RDBITS` (rule R138): legal lengths are 1 to 64 (rule R133). -/
def execRdbits (len : BitVec 7) (s : State) : Host.Outcome State Fault Refusal :=
  issue (.rdbits len) (fun s =>
    if s.role ≠ .reader then raise .illegalCommand
    else if s.closed then raise .streamClosed
    else if s.ecact then raise .illegalCommand
    else if len.toNat = 0 ∨ len.toNat > 64 then raise .invalidArgument
    else match getBits len.toNat s with
      | .error r => .error r
      | .ok (v, t) => .ok (setRes (zext64 v) t)) s

/-- `HASMORE` (rule R139): permitted while the coder is active. -/
def execHasmore (s : State) : Host.Outcome State Fault Refusal :=
  issue .hasmore (fun s =>
    if s.role ≠ .reader then raise .illegalCommand
    else if s.closed then raise .streamClosed
    else .ok (setRes (if s.rbits.toNat < 8 * s.srclen.toNat then 1 else 0) s)) s

/-- `CLOSE` (rule R140): a second one succeeds and does nothing; a writer's partial byte goes out as `WACC` stands, its
unused low bits being 0. -/
def execClose (s : State) : Host.Outcome State Fault Refusal :=
  issue .close (fun s =>
    if s.role = .none then raise .illegalCommand
    else if s.closed then .ok s
    else if s.ecact then raise .illegalCommand
    else if s.role = .writer ∧ s.wbits.toNat % 8 ≠ 0 then
      .ok { s.withSink (s.sink.deliver s.wacc) with closed := true }
    else .ok { s with closed := true }) s

end Sys2Proof.Machine
end

