-- ==== Sys2Proof/Machine/Control.lean ====
section
/-! DEFINITION. The control commands `NOP`, `CLRERR` and `SRESET` (spec/44_control.md). -/

namespace Sys2Proof.Machine

/-- `NOP` (rule R240): nothing but the end every command has. -/
def execNop (s : State) : Host.Outcome State Fault Refusal := issue .nop (fun s => .ok s) s

/-- `CLRERR` (rule R241): clear the sticky error record. -/
def execClrerr (s : State) : Host.Outcome State Fault Refusal :=
  issue .clrerr (fun s => .ok { s with firsterr := .ok, iostat := 0, errcmd := 0, errarg := 0 }) s

/-- `SRESET` (rule R242): every register to its reset value. It cannot fail, and the closing increment of `CMDCNT` is not
applied (rule R264), so it does not end through `issue`. -/
def execSreset (s : State) : Host.Outcome State Fault Refusal := .next (resetRegisters s)

end Sys2Proof.Machine
end

