-- ==== Sys2Proof/Machine/Logistic.lean ====
section
/-! DEFINITION. The LLE unit (spec/41_logistic.md): `Squash`, `Stretch`, `Log2` and `Log2K` as functions of the anchor
table, and the commands `SQUASH`, `STRETCH`, `LOG2`, `LOG2K`. -/

namespace Sys2Proof.Machine

/-- `INV_EXP[j]` (rule R161). -/
def anchor (inv : List Nat) (j : Nat) : Nat := inv.getD j 0

/-- `SQUASH_TAB[d + 2047]` (rule R163): linear interpolation between two anchors. -/
def squashEntry (inv : List Nat) (d : Int) : Nat :=
  let w := lowBits d 7
  let y := (asr d 7 + 16).toNat
  (anchor inv y * (128 - w) + anchor inv (y + 1) * w) / 2 ^ 11

/-- `Squash(d)` (rule R164). -/
def squash (inv : List Nat) (d : Int) : Nat :=
  if d ≥ 2048 then 4095
  else if d ≤ -2048 then 0
  else squashEntry inv d

/-- The first logit of `d, d + 1, ..` (`n` of them) whose `Squash` reaches the level `p`. -/
def firstReach (inv : List Nat) (p : Nat) : Nat → Int → Option Int
  | 0, _ => none
  | n + 1, d => if squash inv d ≥ p then some d else firstReach inv p n (d + 1)

/-- `Stretch(p)`, that is `STRETCH_TAB[p]` (rules R166, R167): the smallest `d` in [-2047, 2047] with `Squash(d) >= p`;
the initial fill 0 at a level no `d` reaches; and 2047 at level 4095. `stretchTable` is the sweep itself. -/
def stretch (inv : List Nat) (p : Nat) : Int :=
  if p = 4095 then 2047 else (firstReach inv p 4095 (-2047)).getD 0

/-- The sweep of rule R166 from logit `d` on, `n` logits long, with `pi` the lowest level not yet assigned: the levels it
assigns, in order. -/
def stretchSweep (inv : List Nat) : Nat → Int → Nat → List Int
  | 0, _, _ => []
  | n + 1, d, pi =>
    List.replicate (squash inv d + 1 - pi) d ++ stretchSweep inv n (d + 1) (max pi (squash inv d + 1))

/-- The table `STRETCH_TAB` by the procedure of rule R166: the swept levels, the initial fill 0 above them, and
`STRETCH_TAB[4095] <- 2047` last. -/
def stretchTable (inv : List Nat) : List Int :=
  ((stretchSweep inv 4095 (-2047) 0 ++ List.replicate 4096 0).take 4096).set 4095 2047

/-- `Log2(x)` (rule R170): an 8-bit table and shifts. -/
def log2Floor (x : Nat) : Nat :=
  let x₁ := if x ≥ 2 ^ 16 then x / 2 ^ 16 else x
  let r₁ := if x ≥ 2 ^ 16 then 16 else 0
  let x₂ := if x₁ ≥ 2 ^ 8 then x₁ / 2 ^ 8 else x₁
  let r₂ := if x₁ ≥ 2 ^ 8 then r₁ + 8 else r₁
  r₂ + log2_8 x₂

/-- `Log2K(x)` (rule R172). -/
def log2Scaled (x : Nat) : Nat :=
  let lg := log2Floor x
  if x < 256 then (log2_4096.getD x 0 + 2) / 2 ^ 2
  else if x &&& (x - 1) = 0 then lg * 2 ^ 10
  else (lg - 7) * 2 ^ 10 + (log2_4096.getD (x / 2 ^ (lg - 7)) 0 + 2) / 2 ^ 2

/-- `SQUASH` (rule R174). -/
def execSquash (s : State) : Host.Outcome State Fault Refusal :=
  issue .squash (fun s => .ok (setRes (zext64 (squash s.params.invExp (argSigned s))) s)) s

/-- `STRETCH` (rule R175). -/
def execStretch (s : State) : Host.Outcome State Fault Refusal :=
  issue .stretch (fun s =>
    if argUnsigned s > 4095 then raise .invalidArgument
    else .ok (setRes (sext64 (stretch s.params.invExp (argUnsigned s))) s)) s

/-- `LOG2` (rule R176). -/
def execLog2 (s : State) : Host.Outcome State Fault Refusal :=
  issue .log2 (fun s =>
    if argUnsigned s = 0 ∨ argUnsigned s > 2 ^ 32 - 1 then raise .invalidArgument
    else .ok (setRes (zext64 (log2Floor (argUnsigned s))) s)) s

/-- `LOG2K` (rule R177). -/
def execLog2k (s : State) : Host.Outcome State Fault Refusal :=
  issue .log2k (fun s =>
    if argUnsigned s = 0 ∨ argUnsigned s > 2 ^ 32 - 1 then raise .invalidArgument
    else .ok (setRes (zext64 (log2Scaled (argUnsigned s))) s)) s

end Sys2Proof.Machine
end

