-- ==== Sys2Proof/Machine/Apm.lean ====
section
/-! DEFINITION. The APM unit (spec/42_apm.md): seeding, the step the document calls `Get`, and the commands `APMNEW` and
`APMGET`. -/

namespace Sys2Proof.Machine

/-- The seed of anchor `j` (rule R193): `Squash(128 * (j - 16)) << 4`. -/
def apmSeed (inv : List Nat) (j : Nat) : Cell16 :=
  BitVec.ofNat 16 (squash inv (128 * ((j : Int) - 16)) * 2 ^ 4)

/-- The target of the learn step (rule R194): `(bit << 16) + (bit << APMRATE) - (bit << 1)`. -/
def learnTarget (bit rate : Nat) : Int := (bit : Int) * 2 ^ 16 + (bit : Int) * ((2 ^ rate : Nat) : Int) - (bit : Int) * 2

/-- One cell moved toward the target (rules R192, R194): `c + ((g - c) >> rate)`. -/
def learnCell (bit rate : Nat) (c : Cell16) : Cell16 :=
  BitVec.ofInt 16 ((c.toNat : Int) + asr (learnTarget bit rate - (c.toNat : Int)) rate)

/-- Step 1 of `ApmStep` (rule R194): the two cells selected by the previous call learn the bit. -/
def apmLearn (bit : BitVec 1) (s : State) : State :=
  let s₁ := setCell s.apmidx.toNat (learnCell bit.toNat s.apmrate.toNat (cellAt s s.apmidx.toNat)) s
  setCell (s.apmidx.toNat + 1) (learnCell bit.toNat s.apmrate.toNat (cellAt s₁ (s.apmidx.toNat + 1))) s₁

/-- Step 2 of `ApmStep` (rule R194): `APMIDX <- ((Stretch(pr) + 2048) >> 7) + 33 * ctx`, stride 33 (rule R191, C1). -/
def apmSelect (pr : Probability) (ctx : Nat) (s : State) : State :=
  { s with
    apmidx := BitVec.ofNat 32 ((asr (stretch s.params.invExp pr.toNat + 2048) 7).toNat + 33 * ctx) }

/-- Step 3 of `ApmStep` (rule R194): interpolate between the two cells of the bracket. -/
def apmAnswer (pr : Probability) (s : State) : Probability :=
  let w := lowBits (stretch s.params.invExp pr.toNat) 7
  BitVec.ofNat 12
    (((cellAt s s.apmidx.toNat).toNat * (128 - w) + (cellAt s (s.apmidx.toNat + 1)).toNat * w) / 2 ^ 11)

/-- `ApmStep(bit, pr, ctx)` (rule R194): the refined Probability and the state after. -/
def apmStep (bit : BitVec 1) (pr : Probability) (ctx : Nat) (s : State) : Probability × State :=
  let t := apmSelect pr ctx (apmLearn bit s)
  (apmAnswer pr t, t)

/-- `APMNEW` (rule R196). -/
def execApmnew (rate : BitVec 4) (s : State) : Host.Outcome State Fault Refusal :=
  issue (.apmnew rate) (fun s =>
    if s.ecact ∧ s.ecapm then raise .illegalCommand
    else if argUnsigned s = 0 ∨ argUnsigned s > s.params.apmMaxCtx then raise .invalidArgument
    else .ok { s with
      apmn := BitVec.ofNat 32 (argUnsigned s), apmrate := rate, apmidx := 0, apmvld := true,
      cell := Memory.fill (33 * argUnsigned s) (fun i => apmSeed s.params.invExp (i % 33)) s.cell }) s

/-- `APMGET` (rule R197). -/
def execApmget (bit : BitVec 1) (pr : Probability) (s : State) : Host.Outcome State Fault Refusal :=
  issue (.apmget bit pr) (fun s =>
    if ¬ s.apmvld then raise .illegalCommand
    else if s.ecact ∧ s.ecapm then raise .illegalCommand
    else if argUnsigned s ≥ s.apmn.toNat then raise .invalidArgument
    else .ok (setRes (zext64 (apmStep bit pr (argUnsigned s) s).1.toNat) (apmStep bit pr (argUnsigned s) s).2)) s

end Sys2Proof.Machine
end

