-- ==== Sys2Proof/Machine/EntropyCodec.lean ====
section
/-! DEFINITION. The ECD unit (spec/43_entropy_codec.md): the adaptive binary coder with one global probability, and the
commands `ECINIT`, `ECENC`, `ECDEC`, `ECFIN`. -/

namespace Sys2Proof.Machine

/-- `Predict(ctx)` (rule R214): the top 12 bits of `ECPRED`, refined through the APM when `STATUS.ECAPM = 1`. -/
def predict (ctx : Nat) (s : State) : Probability × State :=
  let p : Probability := BitVec.ofNat 12 (s.ecpred.toNat / 2 ^ 4)
  if s.ecapm then apmStep s.eclast p ctx s else (p, s)

/-- `xmid` (rule R215). -/
def splitPoint (pr : Probability) (s : State) : Int :=
  (s.eclow.toNat : Int) + asr ((s.echigh.toNat : Int) - (s.eclow.toNat : Int)) 12 * (pr.toNat : Int)

/-- Narrowing by a coded bit (rule R215): 1 keeps `[ECLOW, xmid]`, 0 keeps `[xmid + 1, ECHIGH]`. -/
def narrow (bit : Bool) (xmid : Int) (s : State) : State :=
  if bit then { s with echigh := BitVec.ofInt 32 xmid } else { s with eclow := BitVec.ofInt 32 (xmid + 1) }

/-- The test of the renormalisation loops (rules R217, R218): `((ECLOW ^ ECHIGH) & 0xFF000000) = 0`. -/
def topBytesAgree (s : State) : Bool := (s.eclow ^^^ s.echigh) &&& 0xFF000000 == 0

/-- The shift of the interval by one settled byte (rules R217, R218). -/
def shiftInterval (s : State) : State :=
  { s with eclow := s.eclow <<< 8, echigh := (s.echigh <<< 8) ||| 0xFF }

/-- `EncShift()` (rule R217), at most `n` turns. -/
def encShift : Nat → State → Except Raised State
  | 0, s => .ok s
  | n + 1, s =>
    if topBytesAgree s then
      match putBits (s.echigh >>> 24).toNat 8 s with
      | .error r => .error r
      | .ok t => encShift n (shiftInterval t)
    else .ok s

/-- `DecShift()` (rule R218), at most `n` turns. -/
def decShift : Nat → State → Except Raised State
  | 0, s => .ok s
  | n + 1, s =>
    if topBytesAgree s then
      match getBits 8 s with
      | .error r => .error r
      | .ok (v, t) => decShift n (shiftInterval { t with eccode := (t.eccode <<< 8) ||| BitVec.ofNat 32 v })
    else .ok s

/-- The turns a renormalisation loop can take (rules R217, R218): "The loop runs 0 to 4 times". After four shifts `ECLOW`
is 0 and `ECHIGH` is `0xFFFFFFFF` whatever they were, so the bound cuts nothing off. -/
def maxShifts : Nat := 4

/-- `PredUpdate(b)` (rule R216). -/
def predUpdate (bit : Bool) (s : State) : State :=
  { s with
    ecpred :=
      if bit then BitVec.ofNat 16 (s.ecpred.toNat + (65536 - s.ecpred.toNat) / 2 ^ 6)
      else BitVec.ofNat 16 (s.ecpred.toNat - s.ecpred.toNat / 2 ^ 6)
    eclast := if bit then 1 else 0 }

/-- `ECINIT` (rule R213); codec ids as in rule R211. -/
def execEcinit (codec : BitVec 4) (apmen : BitVec 1) (s : State) : Host.Outcome State Fault Refusal :=
  issue (.ecinit codec apmen) (fun s =>
    if s.role = .none then raise .illegalCommand
    else if s.closed then raise .streamClosed
    else if s.ecact then raise .illegalCommand
    else if flagOf apmen ∧ ¬ s.apmvld then raise .illegalCommand
    else if codec.toNat ≥ 2 then
      if s.role = .reader then raise .unsupportedCodec else raise .invalidArgument
    else if codec.toNat = 0 then
      if flagOf apmen then raise .invalidArgument else .ok s
    else
      let start := fun (code : Word32) (t : State) =>
        { t with
          eccode := code, eclow := 0, echigh := 0xFFFFFFFF, ecpred := 32768, ecpr := 2048, eclast := 0,
          ecapm := flagOf apmen, eccodec := 1, ecact := true }
      if s.role = .reader then
        match getBits 32 s with
        | .error r => .error r
        | .ok (v, t) => .ok (start (BitVec.ofNat 32 v) t)
      else .ok (start 0 s)) s

/-- `ECENC` (rule R219). -/
def execEcenc (bit : BitVec 1) (s : State) : Host.Outcome State Fault Refusal :=
  issue (.ecenc bit) (fun s =>
    if s.role ≠ .writer then raise .illegalCommand
    else if s.closed then raise .streamClosed
    else if ¬ s.ecact then raise .illegalCommand
    else if s.ecapm ∧ argUnsigned s ≥ s.apmn.toNat then raise .invalidArgument
    else
      let (pr, t) := predict (argUnsigned s) s
      match encShift maxShifts (narrow (flagOf bit) (splitPoint pr t) t) with
      | .error r => .error r
      | .ok u => .ok { predUpdate (flagOf bit) u with ecpr := pr }) s

/-- `ECDEC` (rule R220): the bit is 1 exactly when `ECCODE <= xmid`. -/
def execEcdec (s : State) : Host.Outcome State Fault Refusal :=
  issue .ecdec (fun s =>
    if s.role ≠ .reader then raise .illegalCommand
    else if s.closed then raise .streamClosed
    else if ¬ s.ecact then raise .illegalCommand
    else if s.ecapm ∧ argUnsigned s ≥ s.apmn.toNat then raise .invalidArgument
    else
      let (pr, t) := predict (argUnsigned s) s
      let xmid := splitPoint pr t
      let bit := decide ((t.eccode.toNat : Int) ≤ xmid)
      match decShift maxShifts (narrow bit xmid t) with
      | .error r => .error r
      | .ok u => .ok { predUpdate bit u with ecpr := pr, res := zext64 bit.toNat }) s

/-- `ECFIN` (rule R221): the encoder writes the four bytes of `ECLOW`. -/
def execEcfin (s : State) : Host.Outcome State Fault Refusal :=
  issue .ecfin (fun s =>
    if s.role = .none then raise .illegalCommand
    else if s.closed then raise .streamClosed
    else if ¬ s.ecact then raise .illegalCommand
    else
      let stop := fun (t : State) => { t with ecact := false, ecapm := false, eccodec := 0 }
      if s.role = .writer then
        match putBits s.eclow.toNat 32 s with
        | .error r => .error r
        | .ok t => .ok (stop t)
      else .ok (stop s)) s

end Sys2Proof.Machine
end

