-- ==== Sys2Proof/Machine/Dispatch.lean ====
section
/-! DEFINITION. One arm per command: what a decoded command does (spec/60_exceptions.md rule R264). -/

namespace Sys2Proof.Machine

-- The commands of spec/opcode_table.json in the table's order.
def exec (i : Instr) (s : State) : Host.Outcome State Fault Refusal :=
  match i with
  | .nop => Sys2Proof.Machine.execNop s
  | .openRole role => Sys2Proof.Machine.execOpen role s
  | .wrbit bit => Sys2Proof.Machine.execWrbit bit s
  | .wrbits len => Sys2Proof.Machine.execWrbits len s
  | .rdbit => Sys2Proof.Machine.execRdbit s
  | .rdbits len => Sys2Proof.Machine.execRdbits len s
  | .hasmore => Sys2Proof.Machine.execHasmore s
  | .close => Sys2Proof.Machine.execClose s
  | .squash => Sys2Proof.Machine.execSquash s
  | .stretch => Sys2Proof.Machine.execStretch s
  | .log2 => Sys2Proof.Machine.execLog2 s
  | .log2k => Sys2Proof.Machine.execLog2k s
  | .apmnew rate => Sys2Proof.Machine.execApmnew rate s
  | .apmget bit pr => Sys2Proof.Machine.execApmget bit pr s
  | .ecinit codec apmen => Sys2Proof.Machine.execEcinit codec apmen s
  | .ecenc bit => Sys2Proof.Machine.execEcenc bit s
  | .ecdec => Sys2Proof.Machine.execEcdec s
  | .ecfin => Sys2Proof.Machine.execEcfin s
  | .clrerr => Sys2Proof.Machine.execClrerr s
  | .sreset => Sys2Proof.Machine.execSreset s

end Sys2Proof.Machine
end

