-- ==== Sys2Proof/Machine/HostPort.lean ====
section
/-! DEFINITION. What each move of the host does (spec/70_reset_and_hazards.md rule R307), and the bus view of those moves:
the register offsets of spec/10_state.md rule R43 and the address map of spec/20_memory.md rules R72 and R76. -/

namespace Sys2Proof.Machine

/-- Whether a command would open a reader over source bytes of which one was never written (rules R77, R85, R305): an `OPEN`
that raises an error opens no reader (log 16). -/
def opensUnwritten (i : Instr) (s : State) : Bool :=
  decide (i = .openRole 2) && decide (s.role = .none) && decide (argUnsigned s ≤ s.params.imemSize) &&
    decide (Memory.firstUnlisted 0 s.imem < argUnsigned s)

/-- A write of the word `w` to `CMD` (rules R23, R108, R111): run the command it decodes to; a word that does not decode
raises `IllegalCommand`. Opening a reader over bytes never written is refused (rule R305). -/
def issueWord (w : Word32) (s : State) : Host.Outcome State Fault Refusal :=
  match decode w with
  | .ok i => if opensUnwritten i s then .refused .sourceNotWritten else exec i s
  | .error _ => .next (takeError w ⟨.illegalCommand, 0⟩ s)

/-- The value of a register as a host read returns it, zero-extended (rules R43, R75); `CMD` reads 0 (rule R23). -/
def readReg (reg : Reg) (s : State) : Word64 :=
  match reg with
  | .cmd => 0
  | .arg => s.arg
  | .res => s.res
  | .status => (statusWord s).setWidth 64
  | .cmdcnt => s.cmdcnt
  | .errcmd => s.errcmd.setWidth 64
  | .errarg => s.errarg
  | .wbits => s.wbits
  | .wbytes => s.wbytes
  | .rbits => s.rbits
  | .rbytes => rbytes s
  | .snkcap => s.snkcap
  | .srclen => s.srclen
  | .wacc => s.wacc.setWidth 64
  | .apmn => s.apmn.setWidth 64
  | .apmrate => s.apmrate.setWidth 64
  | .apmidx => s.apmidx.setWidth 64
  | .eclow => s.eclow.setWidth 64
  | .echigh => s.echigh.setWidth 64
  | .eccode => s.eccode.setWidth 64
  | .ecpred => s.ecpred.setWidth 64
  | .ecpr => s.ecpr.setWidth 64
  | .eclast => s.eclast.setWidth 64

/-- A host read answers `v`; nothing else changes (rule R75). -/
def answer (v : Word64) (s : State) : State := { s with hostOut := v }

/-- Host read of `OMEM[a]` (rules R78, R302): the byte the block wrote if `a < WBYTES`; while this lifetime has written no
byte, what the buffer held before, which a reset leaves readable; a fresh free value otherwise (log 6, log 7). -/
def readOmem (a : Nat) (s : State) : State :=
  if a < s.wbytes.toNat ∨ s.wbytes = 0 then answer ((omemByte s a).setWidth 64) s
  else { s with hostOut := (Config.omemUnspecified s.freeReads).setWidth 64, freeReads := s.freeReads + 1 }

/-- Host read of word `i` of the `CELL` window (rule R78): `zext_32(CELL[i])` if `STATUS.APMVLD = 1` and `i < 33 * APMN`, a
fresh free value otherwise (log 6). -/
def readCell (i : Nat) (s : State) : State :=
  if s.apmvld ∧ i < 33 * s.apmn.toNat then answer ((cellAt s i).setWidth 64) s
  else { s with hostOut := (Config.cellUnspecified s.freeReads).setWidth 64, freeReads := s.freeReads + 1 }

/-- The effect of each move of the host (rule R307). -/
def hostMove (m : HostMove) (s : State) : Host.Outcome State Fault Refusal :=
  match m with
  | .writeArg value => .next { s with arg := value }
  | .writeCmd word => issueWord word s
  | .readReg reg => .next (answer (readReg reg s) s)
  | .writeImem a value =>
    if s.role = .reader then .refused .imemWriteUnderReader
    else if a < s.params.imemSize then .next { s with imem := Memory.write a value s.imem }
    else .fault (.noSuchAddress a)
  | .readImem a =>
    if a < s.params.imemSize then .next (answer ((imemByte s a).setWidth 64) s) else .fault (.noSuchAddress a)
  | .readOmem a => if a < s.params.omemSize then .next (readOmem a s) else .fault (.noSuchAddress a)
  | .readCell i => if i < 33 * s.params.apmMaxCtx then .next (readCell i s) else .fault (.noSuchAddress i)
  | .hardwareReset => .next (resetRegisters s)

/-! ### The bus view -/

/-- The register at an offset of the register page (rule R43). -/
def regAt (offset : Nat) : Option Reg :=
  match offset with
  | 0x00 => some .cmd
  | 0x08 => some .arg
  | 0x10 => some .res
  | 0x18 => some .status
  | 0x20 => some .cmdcnt
  | 0x28 => some .errcmd
  | 0x30 => some .errarg
  | 0x38 => some .wbits
  | 0x40 => some .wbytes
  | 0x48 => some .rbits
  | 0x50 => some .rbytes
  | 0x58 => some .snkcap
  | 0x60 => some .srclen
  | 0x68 => some .wacc
  | 0x70 => some .apmn
  | 0x78 => some .apmrate
  | 0x80 => some .apmidx
  | 0x88 => some .eclow
  | 0x90 => some .echigh
  | 0x98 => some .eccode
  | 0xA0 => some .ecpred
  | 0xA8 => some .ecpr
  | 0xB0 => some .eclast
  | _ => none

/-- The width in bits of a register (rules R43, R72). -/
def regWidth : Reg → Nat
  | .arg | .res | .cmdcnt | .errarg | .wbits | .wbytes | .rbits | .rbytes | .snkcap | .srclen => 64
  | .cmd | .status | .errcmd | .wacc | .apmn | .apmrate | .apmidx => 32
  | .eclow | .echigh | .eccode | .ecpred | .ecpr | .eclast => 32

/-- What a bus address names (rule R76). -/
inductive Target where
  /-- A register, by its exact offset. -/
  | reg (reg : Reg)
  /-- A place inside the register page that is no register's offset and not reserved: no access has it (rule R72). -/
  | insidePage
  /-- A reserved offset: reads 0, writes ignored (rules R43, R76). -/
  | reserved
  /-- A place in the `CELL` window: the byte offset into it. -/
  | cell (offset : Nat)
  /-- `OMEM` byte. -/
  | omem (a : Nat)
  /-- `IMEM` byte. -/
  | imem (a : Nat)
  /-- No window of the instance. -/
  | outside
  deriving DecidableEq, Repr

/-- The bus address of the `CELL` window (rule R76): inside the region unless `APM_MAX_CTX` is above 7943. -/
def cellWindow (p : Params) : Nat := if p.apmMaxCtx ≤ 7943 then p.base + 0x100000 else p.cellBase

/-- The address map of rule R76. Where a platform lets windows overlap, the first of register page, `CELL`, region, `OMEM`
and `IMEM` is taken (log 3). -/
def target (p : Params) (addr : Nat) : Target :=
  if p.base ≤ addr ∧ addr < p.base + 0xB8 then
    match regAt (addr - p.base) with
    | some reg => .reg reg
    | none => .insidePage
  else if cellWindow p ≤ addr ∧ addr < cellWindow p + 4 * (33 * p.apmMaxCtx) then .cell (addr - cellWindow p)
  else if p.base ≤ addr ∧ addr < p.base + 2 ^ 24 then .reserved
  else if p.omemBase ≤ addr ∧ addr < p.omemBase + p.omemSize then .omem (addr - p.omemBase)
  else if p.imemBase ≤ addr ∧ addr < p.imemBase + p.imemSize then .imem (addr - p.imemBase)
  else .outside

/-- Whether an access has a bus width and is naturally aligned (rule R72). -/
def aligned (addr bits : Nat) : Bool :=
  (bits == 8 || bits == 16 || bits == 32 || bits == 64) && addr % (bits / 8) == 0

/-- A bus read (rules R72, R73, R76 to R78). -/
def busRead (addr bits : Nat) (s : State) : Host.Outcome State Fault Refusal :=
  if ¬ aligned addr bits then .refused .accessShape
  else match target s.params addr with
    | .reg reg => if bits = regWidth reg then hostMove (.readReg reg) s else .refused .accessShape
    | .insidePage => .refused .accessShape
    | .reserved => .next (answer 0 s)
    | .cell offset =>
      if bits = 32 ∧ offset % 4 = 0 then hostMove (.readCell (offset / 4)) s else .refused .accessShape
    | .omem a => if bits = 8 then hostMove (.readOmem a) s else .refused .accessShape
    | .imem a => if bits = 8 then hostMove (.readImem a) s else .refused .accessShape
    | .outside => .fault (.noSuchAddress addr)

/-- A bus write (rules R23, R25, R43, R72, R76 to R78): a read-only register, `OMEM`, `CELL` and reserved offsets ignore
it. -/
def busWrite (addr bits : Nat) (value : Word64) (s : State) : Host.Outcome State Fault Refusal :=
  if ¬ aligned addr bits then .refused .accessShape
  else match target s.params addr with
    | .reg .cmd => if bits = 32 then hostMove (.writeCmd (value.setWidth 32)) s else .refused .accessShape
    | .reg .arg => if bits = 64 then hostMove (.writeArg value) s else .refused .accessShape
    | .reg reg => if bits = regWidth reg then .next s else .refused .accessShape
    | .insidePage => .refused .accessShape
    | .reserved => .next s
    | .cell offset => if bits = 32 ∧ offset % 4 = 0 then .next s else .refused .accessShape
    | .omem _ => if bits = 8 then .next s else .refused .accessShape
    | .imem a => if bits = 8 then hostMove (.writeImem a (value.setWidth 8)) s else .refused .accessShape
    | .outside => .fault (.noSuchAddress addr)

/-- Take one input of the machine (rules R76, R307). -/
def takeInput (x : HostInput) (s : State) : Host.Outcome State Fault Refusal :=
  match x with
  | .move m => hostMove m s
  | .bus (.read addr bits) => busRead addr bits s
  | .bus (.write addr bits value) => busWrite addr bits value s

/-- One step of the machine (rules R20, R80, R304): take the first waiting input; with none the instance is idle. -/
def stepInput (s : State) : Host.Outcome State Fault Refusal :=
  match s.hostIn with
  | [] => .next s
  | x :: rest => takeInput x { s with hostIn := rest }

/-- Put a `CMD` write of a word before the inputs already waiting. -/
def pushCommand (w : Word32) (s : State) : State := { s with hostIn := .move (.writeCmd w) :: s.hostIn }

end Sys2Proof.Machine
end

