-- ==== Sys2Proof/Machine/Step.lean ====
section
/-! DEFINITION. The step function and how the host hands it a command (spec/70_reset_and_hazards.md rules R304, R307). -/

namespace Sys2Proof.Machine

/-- One step: the next input of the host takes its effect; with none waiting the instance is idle. -/
def step (s : State) : Host.Outcome State Fault Refusal := stepInput s

/-- The state with the command word `w` as the host's next input (log 4). Commands arrive by value, so this is the `CMD`
write itself (rules R23, R83); bits above `nbits` are 0. -/
def State.withFetchWord (s : State) (nbits w : Nat) : State := pushCommand (BitVec.ofNat 32 (w % 2 ^ nbits)) s

end Sys2Proof.Machine
end

