-- ==== Sys2Proof/Safety.lean ====
section
/-! DEFINITION. What the statements are said with: the invariant of spec/10_state.md rule R42 and its companions, what it
means that bits were appended to the stream, what the APM's step does, and when a run has failed. -/

namespace Sys2Proof.Machine

/-- The invariant of every reachable state: rule R42 clause by clause, with rules R36, R37, R195, R222 for the coder and the
map, and the canonical form of the three memories. -/
structure State.Inv (s : State) : Prop where
  /-- The parameters meet rules R6 and R161. -/
  paramsValid : s.params.Valid
  /-- `OMEM` is in its canonical form, inside the buffer. -/
  omemWf : Memory.wf s.omem = true
  omemBound : ∀ c ∈ s.omem, c.1 < s.params.omemSize
  /-- `IMEM` is in its canonical form, inside the buffer. -/
  imemWf : Memory.wf s.imem = true
  imemBound : ∀ c ∈ s.imem, c.1 < s.params.imemSize
  /-- `CELL` is in its canonical form, inside the cell memory. -/
  cellWf : Memory.wf s.cell = true
  cellBound : ∀ c ∈ s.cell, c.1 < 33 * s.params.apmMaxCtx
  /-- Rule R42 (b). -/
  unopened : s.role = .none → s.closed = false ∧ s.ecact = false ∧ s.wbits = 0 ∧ s.wbytes = 0 ∧ s.rbits = 0
  /-- Rule R42 (c). -/
  notWriter : s.role ≠ .writer → s.wbits = 0 ∧ s.wbytes = 0 ∧ s.wacc = 0 ∧ s.snkcap = 0
  /-- Rule R42 (d), and rule R36: `ECCODE` is 0 in the `WRITER` role. -/
  notReader : s.role ≠ .reader → s.rbits = 0 ∧ s.srclen = 0 ∧ s.eccode = 0
  /-- Rule R42 (e). -/
  writerRoom : s.wbits.toNat ≤ 8 * s.snkcap.toNat ∧ s.snkcap.toNat ≤ s.params.omemSize
  readerRoom : s.rbits.toNat ≤ 8 * s.srclen.toNat ∧ s.srclen.toNat ≤ s.params.imemSize
  /-- Rule R42 (f). -/
  bytesOpen : s.closed = false → s.wbytes.toNat = s.wbits.toNat / 8
  bytesClosed : s.closed = true → s.wbytes.toNat = (s.wbits.toNat + 7) / 8 ∧ s.wacc = 0
  /-- Rule R42 (g). -/
  accLow : s.closed = false → s.wacc &&& ((0xFF : Byte) >>> (s.wbits.toNat % 8)) = 0
  /-- Rule R28: the delivered bytes are bytes of `OMEM` that the block wrote. -/
  delivered : ∀ a < s.wbytes.toNat, (Memory.read s.omem a).isSome = true
  /-- Rule R42 (h). -/
  coderOn : s.ecact = true → s.role ≠ .none ∧ s.closed = false ∧ s.eccodec = 1
  coderOff : s.ecact = false → s.ecapm = false ∧ s.eccodec = 0
  /-- Rule R42 (i). -/
  refining : s.ecapm = true → s.apmvld = true
  /-- Rule R42 (j) with rule R195 (c): the map's size and the selected bracket, inside one context. -/
  mapSize : s.apmvld = true → 1 ≤ s.apmn.toNat ∧ s.apmn.toNat ≤ s.params.apmMaxCtx
  mapIndex : s.apmvld = true → s.apmidx.toNat ≤ 33 * s.apmn.toNat - 2 ∧ s.apmidx.toNat % 33 ≤ 31
  /-- Rule R35: every meaningful cell has been written. -/
  mapSeeded : s.apmvld = true → ∀ i < 33 * s.apmn.toNat, (Memory.read s.cell i).isSome = true
  /-- Rule R42 (k). -/
  noError : s.firsterr = .ok → s.errcmd = 0 ∧ s.errarg = 0 ∧ s.iostat = 0
  lastError : s.err ≠ .ok → s.firsterr ≠ .ok
  /-- Rules R36, R222 (a), (b). -/
  interval : s.ecact = true → s.eclow.toNat ≤ s.echigh.toNat ∧ s.eclow.toNat / 2 ^ 24 ≠ s.echigh.toNat / 2 ^ 24
  /-- Rules R37, R216. -/
  predictor : s.ecact = true → 63 ≤ s.ecpred.toNat ∧ s.ecpred.toNat ≤ 65473

/-- Every source byte of an opened reader has been written since power-on (rules R77, R85, R305), so that no command reads an
unspecified byte. -/
def State.SourceWritten (s : State) : Prop :=
  s.role = .reader → ∀ a < s.srclen.toNat, (Memory.read s.imem a).isSome = true

/-- "the program failed" (rule R307): an error was recorded. -/
def State.failed (s : State) : Prop := s.firsterr ≠ .ok

/-- Stream bit `n` of what the writer has put so far (rules R29, R71): in `OMEM` once its byte is delivered, in `WACC`
before. -/
def writtenBit (s : State) (n : Nat) : Bool :=
  if n / 8 < s.wbytes.toNat then (omemByte s (n / 8)).getLsbD (7 - n % 8) else s.wacc.getLsbD (7 - n % 8)

/-- `t` is `s` with the `n` bits of `v` appended to the stream, most significant first (rule R131): the counters, the new
bits, the old bits, the zeros below the data in `WACC`, and every byte of `OMEM` but those the whole bytes go to, which are
the bytes from `WBYTES` on. -/
def Appends (v n : Nat) (s t : State) : Prop :=
  t.wbits.toNat = s.wbits.toNat + n ∧
  t.wbytes.toNat = (s.wbits.toNat + n) / 8 ∧
  (∀ j < n, writtenBit t (s.wbits.toNat + j) = v.testBit (n - 1 - j)) ∧
  (∀ m < s.wbits.toNat, writtenBit t m = writtenBit s m) ∧
  (∀ m, t.wbits.toNat ≤ m → m < 8 * (t.wbytes.toNat + 1) → t.wacc.getLsbD (7 - m % 8) = false) ∧
  (∀ a, a < s.wbytes.toNat ∨ (s.wbits.toNat + n) / 8 ≤ a → Memory.read t.omem a = Memory.read s.omem a)

/-- `v` is the `n` source bits from position `pos` on, the first one most significant (rules R71, R132). -/
def SourceField (s : State) (pos n v : Nat) : Prop :=
  v < 2 ^ n ∧ ∀ j < n, v.testBit (n - 1 - j) = (imemByte s ((pos + j) / 8)).getLsbD (7 - (pos + j) % 8)

/-- What one learn, select and answer of the APM does (rule R194), on integers: the two cells of the previous index move
toward the target, every other cell stays, the new index is that of the bracket, and the answer is the interpolation between
its two cells. -/
def ApmStepped (bit : Nat) (pr ctx : Nat) (s t : State) (answer : Nat) : Prop :=
  let g : Int := (bit : Int) * 65536 + (bit : Int) * 2 ^ s.apmrate.toNat - (bit : Int) * 2
  let st := stretch s.params.invExp pr
  let w := (st % 128).toNat
  (∀ i, i = s.apmidx.toNat ∨ i = s.apmidx.toNat + 1 →
    ((cellAt t i).toNat : Int) = (cellAt s i).toNat + (g - (cellAt s i).toNat) / 2 ^ s.apmrate.toNat) ∧
  (∀ i, i ≠ s.apmidx.toNat → i ≠ s.apmidx.toNat + 1 → Memory.read t.cell i = Memory.read s.cell i) ∧
  ((t.apmidx.toNat : Int) = (st + 2048) / 128 + 33 * ctx) ∧
  answer = ((cellAt t t.apmidx.toNat).toNat * (128 - w) + (cellAt t (t.apmidx.toNat + 1)).toNat * w) / 2048

/-- How many leading bytes two 32-bit numbers share (rules R217, R218). -/
def settledBytes (lo hi : Nat) : Nat :=
  if lo / 2 ^ 24 ≠ hi / 2 ^ 24 then 0
  else if lo / 2 ^ 16 ≠ hi / 2 ^ 16 then 1
  else if lo / 2 ^ 8 ≠ hi / 2 ^ 8 then 2
  else if lo ≠ hi then 3
  else 4

/-- `xmid` (rule R215) on natural numbers. -/
def midPoint (lo hi pr : Nat) : Nat := lo + (hi - lo) / 4096 * pr

/-- The low end after a coded bit (rule R215). -/
def narrowedLow (bit : Bool) (lo hi pr : Nat) : Nat := if bit then lo else midPoint lo hi pr + 1

/-- The high end after a coded bit (rule R215). -/
def narrowedHigh (bit : Bool) (lo hi pr : Nat) : Nat := if bit then midPoint lo hi pr else hi

/-- The interval after `k` settled bytes have been shifted out (rules R217, R218): zeros enter the low end, ones the high
end. -/
def shiftedLow (k lo : Nat) : Nat := lo * 2 ^ (8 * k) % 2 ^ 32

/-- See `shiftedLow`. -/
def shiftedHigh (k hi : Nat) : Nat := hi * 2 ^ (8 * k) % 2 ^ 32 + (2 ^ (8 * k) - 1)

/-- The predictor after an observed bit (rule R216). -/
def updatedPredictor (bit : Bool) (pred : Nat) : Nat :=
  if bit then pred + (65536 - pred) / 64 else pred - pred / 64

/-- The coder's state that encoder and decoder share (rule R223): interval, predictor, map. -/
def SameCoder (e d : State) : Prop :=
  e.eclow = d.eclow ∧ e.echigh = d.echigh ∧ e.ecpred = d.ecpred ∧ e.ecpr = d.ecpr ∧ e.eclast = d.eclast ∧
  e.ecapm = d.ecapm ∧ e.apmn = d.apmn ∧ e.apmrate = d.apmrate ∧ e.apmidx = d.apmidx ∧ e.cell = d.cell ∧
  e.params = d.params

end Sys2Proof.Machine

namespace Sys2Proof

/-- Two ranges of the bus, each a base and a size, hold no address in common. -/
abbrev Apart (a n b m : Nat) : Prop := a + n ≤ b ∨ b + m ≤ a

/-- What rule R76 leaves to the platform, done soundly: the region, the `OMEM` and `IMEM` windows and a moved `CELL` window hold
no address in common, and a moved `CELL` window starts at a word. -/
abbrev Params.WindowsApart (p : Params) : Prop :=
  Apart p.base (2 ^ 24) p.omemBase p.omemSize ∧ Apart p.base (2 ^ 24) p.imemBase p.imemSize ∧
  Apart p.omemBase p.omemSize p.imemBase p.imemSize ∧
  (7943 < p.apmMaxCtx → p.cellBase % 4 = 0 ∧ Apart p.base (2 ^ 24) p.cellBase (132 * p.apmMaxCtx) ∧
    Apart p.omemBase p.omemSize p.cellBase (132 * p.apmMaxCtx) ∧
    Apart p.imemBase p.imemSize p.cellBase (132 * p.apmMaxCtx))

end Sys2Proof
end

