-- ==== Sys2Proof/Certificates/Slice0/Obligations.lean ====
section
/-! DEFINITION. The statements about BSIO for the provers, each from the numbered rules of spec/ that its docstring names. -/

open Sys2Proof Sys2Proof.Machine

/-! ### Words and commands -/

/-- Decode and encode agree (rules R101, R102, R104, R111): every well-formed command, with every operand at every value,
is what its word decodes to. -/
def Obligations.DecodeOfEncode : Prop :=
  ∀ i : Instr, i.wf = true → decode (encode i) = .ok i

/-- No word is read twice (rules R104, R108): a word that decodes is the encoding of what it decodes to, which is well
formed. -/
def Obligations.EncodeOfDecode : Prop :=
  ∀ (w : Word32) (i : Instr), decode w = .ok i → i.wf = true ∧ encode i = w

/-- Words written out in spec/95_test_vectors.md (vectors D) decode to the commands listed there. -/
def Obligations.SpecWordsDecode : Prop :=
  decode 0x00000000 = .ok .nop ∧ decode 0x01000001 = .ok (.openRole 1) ∧ decode 0x0300000C = .ok (.wrbits 12) ∧
  decode 0x0300007F = .ok (.wrbits 127) ∧ decode 0x2000000F = .ok (.apmnew 15) ∧
  decode 0x21001771 = .ok (.apmget 1 3000) ∧ decode 0x30000011 = .ok (.ecinit 1 1) ∧
  decode 0x31000001 = .ok (.ecenc 1) ∧ decode 0x7F000000 = .ok .sreset

/-- Rule R105: a word with a reserved operation code raises `IllegalCommand`, whatever its other bits. -/
def Obligations.ReservedOpcodeRaises : Prop :=
  ∀ (s : State) (w : Word32) (opc : Nat), w.toNat / 2 ^ 24 = opc →
    ((0x08 ≤ opc ∧ opc ≤ 0x0F) ∨ (0x14 ≤ opc ∧ opc ≤ 0x1F) ∨ (0x22 ≤ opc ∧ opc ≤ 0x2F) ∨ (0x34 ≤ opc ∧ opc ≤ 0x7D) ∨
      (0x80 ≤ opc ∧ opc ≤ 0xFF)) →
    hostMove (.writeCmd w) s = .next (takeError w ⟨.illegalCommand, 0⟩ s)

/-- Rule R106: a word whose operation code is in rule R104 and which has a 1 at or above the number of bits its format names
raises `IllegalCommand`. -/
def Obligations.ReservedBitsRaise : Prop :=
  ∀ (s : State) (w : Word32) (opc n : Nat),
    (opc, n) ∈ [(0x00, 0), (0x01, 2), (0x02, 1), (0x03, 7), (0x04, 0), (0x05, 7), (0x06, 0), (0x07, 0), (0x10, 0),
      (0x11, 0), (0x12, 0), (0x13, 0), (0x20, 4), (0x21, 13), (0x30, 5), (0x31, 1), (0x32, 0), (0x33, 0), (0x7E, 0),
      (0x7F, 0)] →
    w.toNat / 2 ^ 24 = opc → 2 ^ n ≤ w.toNat % 2 ^ 24 →
    hostMove (.writeCmd w) s = .next (takeError w ⟨.illegalCommand, 0⟩ s)

/-! ### The step and the host -/

/-- A step runs the decoded command (rules R23, R264, R307): when the host's next input is a write of the word `w` to `CMD`,
the step is `exec` of the command `w` decodes to, on the state with that input taken; a word that does not decode raises
`IllegalCommand`. The one exception is an `OPEN` that would open a reader over `IMEM` bytes of which one was never written: "a
model refuses the move" (rules R85, R305). That inputs wait in a list and are taken one a step is the model's choice (log 4), and
so is that an `OPEN` which raises an error is not refused (log 16). -/
def Obligations.StepRunsIssuedCommand : Prop :=
  ∀ (s : State) (w : Word32) (rest : List HostInput), s.hostIn = .move (.writeCmd w) :: rest →
    (∀ i, decode w = .ok i → (i ≠ .openRole 2 ∨ s.role ≠ .none ∨ s.params.imemSize < s.arg.toNat ∨
        (Memory.wf s.imem = true ∧ ∀ a < s.arg.toNat, (Memory.read s.imem a).isSome = true)) →
      step s = exec i { s with hostIn := rest }) ∧
    (decode w = .ok (.openRole 2) → s.role = .none → s.arg.toNat ≤ s.params.imemSize →
      (∃ a < s.arg.toNat, Memory.read s.imem a = none) → step s = .refused .sourceNotWritten) ∧
    (∀ e, decode w = .error e → step s = .next (takeError w ⟨.illegalCommand, 0⟩ { s with hostIn := rest }))

/-- The model's choice (log 4): with an empty list of inputs a step changes nothing. It reads rules R272 and R304, by which the
instance is idle until the next `CMD` write; the list of inputs is the model's own. -/
def Obligations.IdleStepChangesNothing : Prop :=
  ∀ s : State, s.hostIn = [] → step s = .next s

/-- The host's writes and the hardware reset (rules R77, R300 to R302, R307). A write to `IMEM` under an open reader is refused
(rule R305). -/
def Obligations.HostWritesTakeEffect : Prop :=
  (∀ (s : State) (v : Word64), hostMove (.writeArg v) s = .next { s with arg := v }) ∧
  (∀ (s : State) (a : Nat) (v : Byte), s.role ≠ .reader → a < s.params.imemSize →
    ∃ t, hostMove (.writeImem a v) s = .next t ∧ Memory.read t.imem a = some v ∧
      (∀ b, b ≠ a → Memory.read t.imem b = Memory.read s.imem b) ∧ t = { s with imem := t.imem }) ∧
  (∀ (s : State) (a : Nat) (v : Byte), s.role = .reader →
    hostMove (.writeImem a v) s = .refused .imemWriteUnderReader) ∧
  (∀ s : State, hostMove .hardwareReset s = .next { State.reset with
    omem := s.omem, imem := s.imem, cell := s.cell, params := s.params, hostIn := s.hostIn, hostOut := s.hostOut,
    freeReads := s.freeReads })

/-- The host's reads (rules R75, R77, R78) answer and change nothing of the instance: registers, `IMEM` bytes, delivered `OMEM`
bytes, cells of a constructed map, and, with a value left open, every other `OMEM` byte and cell. What each register reads as is
said by `RegisterPageOnBus`. Two points are the model's choice: that the answer stands in the field `hostOut` (log 5), and that a
delivered `OMEM` byte is answered before `CLOSE` too, where rules R78 and R81 guarantee nothing (write-through, log 8). -/
def Obligations.HostReadsAnswer : Prop :=
  (∀ (s : State) (reg : Reg), hostMove (.readReg reg) s = .next { s with hostOut := readReg reg s }) ∧
  (∀ (s : State) (a : Nat), a < s.params.imemSize →
    hostMove (.readImem a) s = .next { s with hostOut := (imemByte s a).setWidth 64 }) ∧
  (∀ (s : State) (a : Nat), a < s.wbytes.toNat → a < s.params.omemSize →
    hostMove (.readOmem a) s = .next { s with hostOut := (omemByte s a).setWidth 64 }) ∧
  (∀ (s : State) (i : Nat), s.apmvld = true → i < 33 * s.apmn.toNat → i < 33 * s.params.apmMaxCtx →
    hostMove (.readCell i) s = .next { s with hostOut := (cellAt s i).setWidth 64 }) ∧
  (∀ (s : State) (a : Nat), a < s.params.omemSize →
    ∃ v n, hostMove (.readOmem a) s = .next { s with hostOut := v, freeReads := n }) ∧
  (∀ (s : State) (i : Nat), i < 33 * s.params.apmMaxCtx →
    ∃ v n, hostMove (.readCell i) s = .next { s with hostOut := v, freeReads := n })

/-- The register page on the bus (rules R23, R32, R43, R72, R76): every register reads at its offset and width, as the value of
its field, `CMD` as 0, `STATUS` as its word and `RBYTES` as `(RBITS + 7) >> 3`; a write to `CMD` or `ARG` is the host's move; a
write to another register is ignored; and a reserved offset of the region, at any bus width, reads 0 and ignores writes. The
`CELL` window is in the region, or a moved one is outside it. That the answer stands in `hostOut` is the model's choice
(log 5). -/
def Obligations.RegisterPageOnBus : Prop :=
  ∀ s : State, s.params.Valid →
    (∀ (o : Nat) (reg : Reg) (n : Nat) (value : Word64),
      (o, reg, n, value) ∈ [(0x00, Reg.cmd, 32, 0), (0x08, .arg, 64, s.arg), (0x10, .res, 64, s.res),
        (0x18, .status, 32, (statusWord s).setWidth 64), (0x20, .cmdcnt, 64, s.cmdcnt),
        (0x28, .errcmd, 32, s.errcmd.setWidth 64), (0x30, .errarg, 64, s.errarg), (0x38, .wbits, 64, s.wbits),
        (0x40, .wbytes, 64, s.wbytes), (0x48, .rbits, 64, s.rbits),
        (0x50, .rbytes, 64, BitVec.ofNat 64 ((s.rbits.toNat + 7) / 8)), (0x58, .snkcap, 64, s.snkcap),
        (0x60, .srclen, 64, s.srclen), (0x68, .wacc, 32, s.wacc.setWidth 64), (0x70, .apmn, 32, s.apmn.setWidth 64),
        (0x78, .apmrate, 32, s.apmrate.setWidth 64), (0x80, .apmidx, 32, s.apmidx.setWidth 64),
        (0x88, .eclow, 32, s.eclow.setWidth 64), (0x90, .echigh, 32, s.echigh.setWidth 64),
        (0x98, .eccode, 32, s.eccode.setWidth 64), (0xA0, .ecpred, 32, s.ecpred.setWidth 64),
        (0xA8, .ecpr, 32, s.ecpr.setWidth 64), (0xB0, .eclast, 32, s.eclast.setWidth 64)] →
      readReg reg s = value ∧ busRead (s.params.base + o) n s = .next { s with hostOut := value } ∧
      (reg ≠ .cmd → reg ≠ .arg → ∀ v, busWrite (s.params.base + o) n v s = .next s)) ∧
    (∀ v, busWrite s.params.base 32 v s = hostMove (.writeCmd (v.setWidth 32)) s) ∧
    (∀ v, busWrite (s.params.base + 0x08) 64 v s = .next { s with arg := v }) ∧
    (∀ o n : Nat, n ∈ [8, 16, 32, 64] → o % (n / 8) = 0 → 0xB8 ≤ o → o < 2 ^ 24 →
      (s.params.apmMaxCtx ≤ 7943 ∧ (o < 0x100000 ∨ 0x100000 + 132 * s.params.apmMaxCtx ≤ o) ∨
        7943 < s.params.apmMaxCtx ∧ Apart s.params.base (2 ^ 24) s.params.cellBase (132 * s.params.apmMaxCtx)) →
      busRead (s.params.base + o) n s = .next { s with hostOut := 0 } ∧
      ∀ v, busWrite (s.params.base + o) n v s = .next s)

/-- The other windows on the bus (rules R76, R77, R78), where the platform keeps the windows apart: a byte access to `OMEM` and
`IMEM` and a word access to `CELL` is the host's move on that byte or cell, and writes to `OMEM` and `CELL` are ignored. -/
def Obligations.WindowsOnBus : Prop :=
  ∀ s : State, s.params.Valid → s.params.WindowsApart →
    (∀ a < s.params.omemSize, busRead (s.params.omemBase + a) 8 s = hostMove (.readOmem a) s ∧
      ∀ v, busWrite (s.params.omemBase + a) 8 v s = .next s) ∧
    (∀ a < s.params.imemSize, busRead (s.params.imemBase + a) 8 s = hostMove (.readImem a) s ∧
      ∀ v, busWrite (s.params.imemBase + a) 8 v s = hostMove (.writeImem a (v.setWidth 8)) s) ∧
    (∀ i < 33 * s.params.apmMaxCtx,
      (s.params.apmMaxCtx ≤ 7943 →
        busRead (s.params.base + 0x100000 + 4 * i) 32 s = hostMove (.readCell i) s ∧
        ∀ v, busWrite (s.params.base + 0x100000 + 4 * i) 32 v s = .next s) ∧
      (7943 < s.params.apmMaxCtx →
        busRead (s.params.cellBase + 4 * i) 32 s = hostMove (.readCell i) s ∧
        ∀ v, busWrite (s.params.cellBase + 4 * i) 32 v s = .next s))

/-- Rule R25: the word `STATUS` holds each field at its place, with the codes of rules R25 and R260, and reads 0 at the reserved
bits. -/
def Obligations.StatusWordLayout : Prop :=
  (Role.code .none = 0 ∧ Role.code .writer = 1 ∧ Role.code .reader = 2) ∧
  (ErrCode.code .ok = 0 ∧ ErrCode.code (.err .invalidArgument) = 1 ∧ ErrCode.code (.err .endOfStream) = 2 ∧
    ErrCode.code (.err .streamClosed) = 3 ∧ ErrCode.code (.err .ioFailure) = 4 ∧
    ErrCode.code (.err .unsupportedCodec) = 5 ∧ ErrCode.code (.err .illegalCommand) = 6) ∧
  ∀ s : State, ((statusWord s).extractLsb' 0 2).toNat = s.role.code ∧ (statusWord s).getLsbD 2 = s.closed ∧
    (statusWord s).getLsbD 3 = s.ecact ∧ (statusWord s).getLsbD 4 = s.apmvld ∧ (statusWord s).getLsbD 5 = s.ecapm ∧
    (statusWord s).extractLsb' 6 2 = 0 ∧ ((statusWord s).extractLsb' 8 4).toNat = s.err.code ∧
    ((statusWord s).extractLsb' 12 4).toNat = s.firsterr.code ∧ (statusWord s).extractLsb' 16 4 = s.eccodec ∧
    (statusWord s).extractLsb' 20 4 = s.iostat ∧ (statusWord s).extractLsb' 24 8 = 0

/-! ### Taking an error -/

/-- What taking an error writes (rules R262, R264): `ERR`; on the first failure also `FIRSTERR`, `IOSTAT`, `ERRCMD` and `ERRARG`;
`CMDCNT`; and nothing else. -/
def Obligations.TakingAnError : Prop :=
  ∀ (w : Word32) (r : Raised) (s : State),
    (s.firsterr = .ok → takeError w r s =
      { s with err := .err r.kind, firsterr := .err r.kind, iostat := r.iostat, errcmd := w, errarg := s.arg,
               cmdcnt := s.cmdcnt + 1 }) ∧
    (s.firsterr ≠ .ok → takeError w r s = { s with err := .err r.kind, cmdcnt := s.cmdcnt + 1 })

/-- The end of every command (rule R264): every command in every state completes with `ERR = 0`, counts itself in `CMDCNT`
(`SRESET` leaves 0) and leaves the error record alone unless it is `CLRERR` or `SRESET`; or it takes the error it raised, with
sub-status 1 for `IOFailure` and 0 for every other kind, for the one word that decodes to it (log 9). -/
def Obligations.EveryCommandEnds : Prop :=
  ∀ (i : Instr) (s : State), ∃ t, exec i s = .next t ∧
    ((t.err = .ok ∧ (i = .sreset → t.cmdcnt = 0) ∧ (i ≠ .sreset → t.cmdcnt = s.cmdcnt + 1) ∧
        (i ≠ .sreset → i ≠ .clrerr →
          t.firsterr = s.firsterr ∧ t.iostat = s.iostat ∧ t.errcmd = s.errcmd ∧ t.errarg = s.errarg)) ∨
      ∃ k, t = takeError (encode i) ⟨k, if k = .ioFailure then 1 else 0⟩ s)

/-- Rule R262: a command that raises an error has no effect on any state other than the error report. -/
def Obligations.FailureChangesOnlyReport : Prop :=
  ∀ (i : Instr) (s t : State), exec i s = .next t → t.err ≠ .ok →
    t = { s with err := t.err, firsterr := t.firsterr, iostat := t.iostat, errcmd := t.errcmd, errarg := t.errarg,
                 cmdcnt := s.cmdcnt + 1 }

/-- Rules R26, R264: the first failing word is the one `ERRCMD` records, with the `ARG` it was issued with. -/
def Obligations.ErrcmdIsIssuedWord : Prop :=
  ∀ (s t : State) (w : Word32), hostMove (.writeCmd w) s = .next t → t.err ≠ .ok →
    (s.firsterr = .ok → t.firsterr = t.err ∧ t.errcmd = w ∧ t.errarg = s.arg) ∧
    (s.firsterr ≠ .ok → t.firsterr = s.firsterr ∧ t.errcmd = s.errcmd ∧ t.errarg = s.errarg)

/-! ### Control -/

/-- Rule R240: `NOP`, whose word is the all-zero word, does nothing but end well, in every state. -/
def Obligations.NopDoesNothing : Prop :=
  ∀ s : State, exec .nop s = .next { s with err := .ok, cmdcnt := s.cmdcnt + 1 } ∧
    hostMove (.writeCmd 0x00000000) s = exec .nop s

/-- Rule R241: `CLRERR` clears the sticky error record and nothing else, in every state. -/
def Obligations.ClrerrClearsRecord : Prop :=
  ∀ s : State, exec .clrerr s = .next { s with
      firsterr := .ok, iostat := 0, errcmd := 0, errarg := 0, err := .ok, cmdcnt := s.cmdcnt + 1 } ∧
    hostMove (.writeCmd 0x7E000000) s = exec .clrerr s

/-- Rules R242, R302: `SRESET` sets every register to 0, `ARG`, `RES` and `CMDCNT` included, and leaves the three memories, in
every state; it does what the hardware reset does. With a reserved bit set it is an `IllegalCommand`. -/
def Obligations.SresetClearsRegisters : Prop :=
  ∀ s : State, exec .sreset s = .next { s with
      arg := 0, res := 0, role := .none, closed := false, ecact := false, apmvld := false, ecapm := false, err := .ok,
      firsterr := .ok, eccodec := 0, iostat := 0, cmdcnt := 0, errcmd := 0, errarg := 0, wbits := 0, wbytes := 0, wacc := 0,
      snkcap := 0, rbits := 0, srclen := 0, apmn := 0, apmrate := 0, apmidx := 0, eclow := 0, echigh := 0, eccode := 0,
      ecpred := 0, ecpr := 0, eclast := 0 } ∧
    hostMove (.writeCmd 0x7F000000) s = exec .sreset s ∧ hostMove .hardwareReset s = exec .sreset s ∧
    ∀ w : Word32, w.toNat / 2 ^ 24 = 0x7F → w.toNat % 2 ^ 24 ≠ 0 →
      hostMove (.writeCmd w) s = .next (takeError w ⟨.illegalCommand, 0⟩ s)

/-! ### The bitstream -/

/-- Rule R134: `OPEN` in an unopened instance sets the role and the capacity or the length. -/
def Obligations.OpenBindsBuffer : Prop :=
  (∀ s : State, s.role = .none → s.arg.toNat ≤ s.params.omemSize →
    exec (.openRole 1) s = .next { s with snkcap := s.arg, role := .writer, err := .ok, cmdcnt := s.cmdcnt + 1 }) ∧
  (∀ s : State, s.role = .none → s.arg.toNat ≤ s.params.imemSize →
    exec (.openRole 2) s = .next { s with srclen := s.arg, role := .reader, err := .ok, cmdcnt := s.cmdcnt + 1 })

/-- Rules R131, R135, R136: with room in the sink `WRBIT` appends its bit and `WRBITS` the low `LEN` bits of `ARG`. -/
def Obligations.WritesAppendBits : Prop :=
  (∀ (s : State) (bit : BitVec 1), s.Inv → s.role = .writer → s.closed = false → s.ecact = false →
    s.wbits.toNat + 1 ≤ 8 * s.snkcap.toNat →
    ∃ t, exec (.wrbit bit) s = .next t ∧ Appends bit.toNat 1 s t ∧
      t = { s with wbits := t.wbits, wbytes := t.wbytes, wacc := t.wacc, omem := t.omem, err := .ok,
                   cmdcnt := s.cmdcnt + 1 }) ∧
  (∀ (s : State) (len : BitVec 7), s.Inv → s.role = .writer → s.closed = false → s.ecact = false →
    1 ≤ len.toNat → len.toNat ≤ 64 → s.wbits.toNat + len.toNat ≤ 8 * s.snkcap.toNat →
    ∃ t, exec (.wrbits len) s = .next t ∧ Appends (s.arg.toNat % 2 ^ len.toNat) len.toNat s t ∧
      t = { s with wbits := t.wbits, wbytes := t.wbytes, wacc := t.wacc, omem := t.omem, err := .ok,
                   cmdcnt := s.cmdcnt + 1 })

/-- Rules R132, R137, R138: with bits left `RDBIT` and `RDBITS` read the next bits of the source, the first one most
significant. -/
def Obligations.ReadsConsumeBits : Prop :=
  (∀ s : State, s.role = .reader → s.closed = false → s.ecact = false → s.rbits.toNat + 1 ≤ 8 * s.srclen.toNat →
    ∃ v, SourceField s s.rbits.toNat 1 v ∧ exec .rdbit s = .next { s with
      res := BitVec.ofNat 64 v, rbits := s.rbits + 1, err := .ok, cmdcnt := s.cmdcnt + 1 }) ∧
  (∀ (s : State) (len : BitVec 7), s.role = .reader → s.closed = false → s.ecact = false →
    1 ≤ len.toNat → len.toNat ≤ 64 → s.rbits.toNat + len.toNat ≤ 8 * s.srclen.toNat →
    ∃ v, SourceField s s.rbits.toNat len.toNat v ∧ exec (.rdbits len) s = .next { s with
      res := BitVec.ofNat 64 v, rbits := s.rbits + BitVec.ofNat 64 len.toNat, err := .ok, cmdcnt := s.cmdcnt + 1 })

/-- Rule R139: `HASMORE` answers whether a bit is left, also while the coder is active. -/
def Obligations.HasmoreAnswers : Prop :=
  ∀ s : State, s.role = .reader → s.closed = false →
    (s.rbits.toNat < 8 * s.srclen.toNat →
      exec .hasmore s = .next { s with res := 1, err := .ok, cmdcnt := s.cmdcnt + 1 }) ∧
    (8 * s.srclen.toNat ≤ s.rbits.toNat →
      exec .hasmore s = .next { s with res := 0, err := .ok, cmdcnt := s.cmdcnt + 1 })

/-- Rule R140: `CLOSE` writes a writer's partial byte to `OMEM[WBYTES]` and closes; a second `CLOSE` does nothing. -/
def Obligations.CloseEndsStream : Prop :=
  (∀ s : State, s.role ≠ .none → s.closed = true →
    exec .close s = .next { s with err := .ok, cmdcnt := s.cmdcnt + 1 }) ∧
  (∀ s : State, s.role ≠ .none → s.closed = false → s.ecact = false → (s.role = .reader ∨ s.wbits.toNat % 8 = 0) →
    exec .close s = .next { s with closed := true, err := .ok, cmdcnt := s.cmdcnt + 1 }) ∧
  (∀ s : State, s.role = .writer → s.closed = false → s.ecact = false → s.wbits.toNat % 8 ≠ 0 →
    ∃ t, exec .close s = .next t ∧ Memory.read t.omem s.wbytes.toNat = some s.wacc ∧
      (∀ a, a ≠ s.wbytes.toNat → Memory.read t.omem a = Memory.read s.omem a) ∧
      t = { s with closed := true, wbytes := s.wbytes + 1, wacc := 0, omem := t.omem, err := .ok,
                   cmdcnt := s.cmdcnt + 1 })

/-! ### The logistic engine -/

/-- Rules R163, R164, R174: `SQUASH` answers 4095 from 2048 up, 0 from -2048 down, and between them the interpolation between
the two anchors around `d`. -/
def Obligations.SquashInterpolates : Prop :=
  ∀ s : State, ∃ v, exec .squash s = .next { s with res := BitVec.ofNat 64 v, err := .ok, cmdcnt := s.cmdcnt + 1 } ∧
    v = squash s.params.invExp s.arg.toInt ∧
    (2048 ≤ s.arg.toInt → v = 4095) ∧ (s.arg.toInt ≤ -2048 → v = 0) ∧
    (∀ y w : Nat, -2047 ≤ s.arg.toInt → s.arg.toInt ≤ 2047 → w < 128 → s.arg.toInt = 128 * ((y : Int) - 16) + w →
      v = (s.params.invExp.getD y 0 * (128 - w) + s.params.invExp.getD (y + 1) 0 * w) / 2048)

/-- Rules R166, R167, R175: for an operand up to 4095 `STRETCH` answers 2047 at 4095, else the smallest logit in [-2047, 2047]
whose `Squash` reaches the level, else the initial fill 0. -/
def Obligations.StretchInverts : Prop :=
  ∀ s : State, s.arg.toNat ≤ 4095 →
    ∃ d : Int, exec .stretch s = .next { s with res := BitVec.ofInt 64 d, err := .ok, cmdcnt := s.cmdcnt + 1 } ∧
      d = stretch s.params.invExp s.arg.toNat ∧ (s.arg.toNat = 4095 → d = 2047) ∧
      (s.arg.toNat ≠ 4095 → ∀ e, -2047 ≤ e → e ≤ 2047 → s.arg.toNat ≤ squash s.params.invExp e →
        d ≤ e ∧ -2047 ≤ d ∧ s.arg.toNat ≤ squash s.params.invExp d) ∧
      (s.arg.toNat ≠ 4095 → (∀ e, -2047 ≤ e → e ≤ 2047 → squash s.params.invExp e < s.arg.toNat) → d = 0)

/-- Rules R170, R176: `LOG2` answers the position of the highest 1 bit of a 32-bit operand that is not 0. -/
def Obligations.Log2IsFloor : Prop :=
  ∀ s : State, s.arg.toNat ≠ 0 → s.arg.toNat < 2 ^ 32 →
    ∃ r, 2 ^ r ≤ s.arg.toNat ∧ s.arg.toNat < 2 ^ (r + 1) ∧
      exec .log2 s = .next { s with res := BitVec.ofNat 64 r, err := .ok, cmdcnt := s.cmdcnt + 1 }

/-- Rules R172, R177: `LOG2K` reads the table below 256, is exact at powers of two from there on, and elsewhere reads the table
at the top eight bits. -/
def Obligations.Log2kByTable : Prop :=
  ∀ s : State, s.arg.toNat ≠ 0 → s.arg.toNat < 2 ^ 32 →
    ∃ v, exec .log2k s = .next { s with res := BitVec.ofNat 64 v, err := .ok, cmdcnt := s.cmdcnt + 1 } ∧
      (s.arg.toNat < 256 → v = (log2_4096.getD s.arg.toNat 0 + 2) / 4) ∧
      (∀ lg, 8 ≤ lg → s.arg.toNat = 2 ^ lg → v = 1024 * lg) ∧
      (∀ lg, 8 ≤ lg → 2 ^ lg < s.arg.toNat → s.arg.toNat < 2 ^ (lg + 1) →
        v = 1024 * (lg - 7) + (log2_4096.getD (s.arg.toNat / 2 ^ (lg - 7)) 0 + 2) / 4)

/-- Rule R165 (a), (b): for every anchor table that meets rule R161, `Squash` is a Probability and monotone. -/
def Obligations.SquashMonotoneBounded : Prop :=
  ∀ p : Params, p.Valid →
    (∀ d, squash p.invExp d ≤ 4095) ∧ (∀ d e, d ≤ e → squash p.invExp d ≤ squash p.invExp e)

/-- Rule R166: for every anchor table, `Stretch` is the table the sweep builds, at all 4096 levels. -/
def Obligations.StretchIsSweptTable : Prop :=
  ∀ (inv : List Nat) (p : Nat), p ≤ 4095 → (stretchTable inv)[p]? = some (stretch inv p)

/-- Rule R168 (e), what does hold: for every anchor table that meets rule R161 and every logit, `Squash` of `Stretch` of
`Squash` is `Squash`, and `Stretch` of `Squash` is no larger than the logit unless the level is 4095. -/
def Obligations.StretchAfterSquash : Prop :=
  ∀ p : Params, p.Valid → ∀ d, -2047 ≤ d → d ≤ 2047 →
    squash p.invExp (stretch p.invExp (squash p.invExp d)) = squash p.invExp d ∧
    (squash p.invExp d ≠ 4095 → stretch p.invExp (squash p.invExp d) ≤ d)

/-! ### The adaptive probability map -/

/-- Rules R193, R196: `APMNEW` seeds every context from `Squash` at the 33 anchor logits, leaves the cells above, and records
count, rate and index 0. -/
def Obligations.ApmnewSeeds : Prop :=
  ∀ (s : State) (rate : BitVec 4), s.params.Valid → ¬ (s.ecact = true ∧ s.ecapm = true) → 1 ≤ s.arg.toNat →
    s.arg.toNat ≤ s.params.apmMaxCtx →
    ∃ t, exec (.apmnew rate) s = .next t ∧ t.apmn.toNat = s.arg.toNat ∧
      (∀ c j : Nat, c < s.arg.toNat → j ≤ 32 →
        Memory.read t.cell (33 * c + j) =
          some (BitVec.ofNat 16 (16 * squash s.params.invExp (128 * ((j : Int) - 16))))) ∧
      (∀ i, 33 * s.arg.toNat ≤ i → Memory.read t.cell i = Memory.read s.cell i) ∧
      t = { s with apmn := t.apmn, apmrate := rate, apmidx := 0, apmvld := true, cell := t.cell, err := .ok,
                   cmdcnt := s.cmdcnt + 1 }

/-- Rules R194, R197: `APMGET` learns, selects and answers. -/
def Obligations.ApmgetSteps : Prop :=
  ∀ (s : State) (bit : BitVec 1) (pr : Probability), s.Inv → s.apmvld = true →
    ¬ (s.ecact = true ∧ s.ecapm = true) → s.arg.toNat < s.apmn.toNat →
    ∃ t v, exec (.apmget bit pr) s = .next t ∧ ApmStepped bit.toNat pr.toNat s.arg.toNat s t v ∧
      t = { s with cell := t.cell, apmidx := t.apmidx, res := BitVec.ofNat 64 v, err := .ok, cmdcnt := s.cmdcnt + 1 }

/-- Rule R195 (a): for every rate, bit and cell the learn step's exact value is a 16-bit value, so that the cell takes it as
it is. -/
def Obligations.LearnStaysInRange : Prop :=
  ∀ (bit : BitVec 1) (rate : BitVec 4) (c : Cell16),
    ((learnCell bit.toNat rate.toNat c).toNat : Int) =
      c.toNat + ((bit.toNat : Int) * 65536 + (bit.toNat : Int) * 2 ^ rate.toNat - (bit.toNat : Int) * 2 - c.toNat) /
        2 ^ rate.toNat

/-! ### The entropy coder -/

/-- Rule R213: `ECINIT codec=NONE` succeeds and starts nothing; `ECINIT codec=FPAQ` in a writer starts the coder. -/
def Obligations.EcinitStartsWriter : Prop :=
  (∀ s : State, s.role ≠ .none → s.closed = false → s.ecact = false →
    exec (.ecinit 0 0) s = .next { s with err := .ok, cmdcnt := s.cmdcnt + 1 }) ∧
  (∀ (s : State) (apmen : BitVec 1), s.role = .writer → s.closed = false → s.ecact = false →
    (apmen = 1 → s.apmvld = true) →
    exec (.ecinit 1 apmen) s = .next { s with
      eccode := 0, eclow := 0, echigh := 0xFFFFFFFF, ecpred := 32768, ecpr := 2048, eclast := 0, ecapm := apmen == 1,
      eccodec := 1, ecact := true, err := .ok, cmdcnt := s.cmdcnt + 1 })

/-- Rule R213: `ECINIT codec=FPAQ` in a reader starts the coder and primes `ECCODE` with the next 32 bits. -/
def Obligations.EcinitPrimesReader : Prop :=
  ∀ (s : State) (apmen : BitVec 1), s.role = .reader → s.closed = false → s.ecact = false →
    (apmen = 1 → s.apmvld = true) → s.rbits.toNat + 32 ≤ 8 * s.srclen.toNat →
    ∃ v, SourceField s s.rbits.toNat 32 v ∧ exec (.ecinit 1 apmen) s = .next { s with
      eccode := BitVec.ofNat 32 v, rbits := s.rbits + 32, eclow := 0, echigh := 0xFFFFFFFF, ecpred := 32768, ecpr := 2048,
      eclast := 0, ecapm := apmen == 1, eccodec := 1, ecact := true, err := .ok, cmdcnt := s.cmdcnt + 1 }

/-- Rule R214: the Probability used is the top 12 bits of `ECPRED`, or the APM's answer to it with the last bit observed. -/
def Obligations.PredictRefines : Prop :=
  ∀ (s : State) (ctx : Nat), s.Inv →
    (s.ecapm = false → predict ctx s = (BitVec.ofNat 12 (s.ecpred.toNat / 16), s)) ∧
    (s.ecapm = true → ctx < s.apmn.toNat →
      ∃ pr t, predict ctx s = (pr, t) ∧ ApmStepped s.eclast.toNat (s.ecpred.toNat / 16) ctx s t pr.toNat ∧
        t = { s with cell := t.cell, apmidx := t.apmidx })

/-- Rules R215 to R217, R219: `ECENC` narrows the interval by its bit, writes the settled bytes (the leading bytes the two ends
share) and shifts them out, and updates the predictor. -/
def Obligations.EcencCodesBit : Prop :=
  ∀ (s : State) (bit : BitVec 1) (pr lo hi k : Nat), s.Inv → s.role = .writer → s.closed = false → s.ecact = true →
    (s.ecapm = true → s.arg.toNat < s.apmn.toNat) →
    pr = (predict s.arg.toNat s).1.toNat →
    lo = narrowedLow (bit == 1) s.eclow.toNat s.echigh.toNat pr →
    hi = narrowedHigh (bit == 1) s.eclow.toNat s.echigh.toNat pr →
    k = settledBytes lo hi → s.wbits.toNat + 8 * k ≤ 8 * s.snkcap.toNat →
    ∃ t, exec (.ecenc bit) s = .next t ∧ Appends (hi / 2 ^ (32 - 8 * k)) (8 * k) s t ∧
      t.eclow.toNat = shiftedLow k lo ∧ t.echigh.toNat = shiftedHigh k hi ∧
      t.ecpred.toNat = updatedPredictor (bit == 1) s.ecpred.toNat ∧
      t = { s with
        wbits := t.wbits, wbytes := t.wbytes, wacc := t.wacc, omem := t.omem, eclow := t.eclow, echigh := t.echigh,
        ecpred := t.ecpred, eclast := bit, ecpr := (predict s.arg.toNat s).1, cell := (predict s.arg.toNat s).2.cell,
        apmidx := (predict s.arg.toNat s).2.apmidx, err := .ok, cmdcnt := s.cmdcnt + 1 }

/-- Rules R215, R216, R218, R220: `ECDEC` decodes 1 exactly when `ECCODE` is at or below the split point, narrows the interval by
it, takes in a byte for each settled byte, and updates the predictor. -/
def Obligations.EcdecDecodesBit : Prop :=
  ∀ (s : State) (bit : Bool) (pr lo hi k : Nat), s.Inv → s.role = .reader → s.closed = false → s.ecact = true →
    (s.ecapm = true → s.arg.toNat < s.apmn.toNat) →
    pr = (predict s.arg.toNat s).1.toNat →
    bit = decide (s.eccode.toNat ≤ midPoint s.eclow.toNat s.echigh.toNat pr) →
    lo = narrowedLow bit s.eclow.toNat s.echigh.toNat pr → hi = narrowedHigh bit s.eclow.toNat s.echigh.toNat pr →
    k = settledBytes lo hi → s.rbits.toNat + 8 * k ≤ 8 * s.srclen.toNat →
    ∃ t v, exec .ecdec s = .next t ∧ SourceField s s.rbits.toNat (8 * k) v ∧
      t.eccode.toNat = s.eccode.toNat * 2 ^ (8 * k) % 2 ^ 32 + v ∧
      t.eclow.toNat = shiftedLow k lo ∧ t.echigh.toNat = shiftedHigh k hi ∧
      t.ecpred.toNat = updatedPredictor bit s.ecpred.toNat ∧
      t = { s with
        rbits := s.rbits + BitVec.ofNat 64 (8 * k), eccode := t.eccode, eclow := t.eclow, echigh := t.echigh,
        ecpred := t.ecpred, eclast := if bit then 1 else 0, ecpr := (predict s.arg.toNat s).1,
        cell := (predict s.arg.toNat s).2.cell, apmidx := (predict s.arg.toNat s).2.apmidx,
        res := if bit then 1 else 0, err := .ok, cmdcnt := s.cmdcnt + 1 }

/-- Rule R221: `ECFIN` writes the four bytes of `ECLOW` in a writer and nothing in a reader, and stops the coder. -/
def Obligations.EcfinStopsCoder : Prop :=
  (∀ s : State, s.Inv → s.role = .writer → s.ecact = true → s.wbits.toNat + 32 ≤ 8 * s.snkcap.toNat →
    ∃ t, exec .ecfin s = .next t ∧ Appends s.eclow.toNat 32 s t ∧
      t = { s with wbits := t.wbits, wbytes := t.wbytes, wacc := t.wacc, omem := t.omem, ecact := false, ecapm := false,
                   eccodec := 0, err := .ok, cmdcnt := s.cmdcnt + 1 }) ∧
  (∀ s : State, s.role = .reader → s.closed = false → s.ecact = true →
    exec .ecfin s = .next { s with ecact := false, ecapm := false, eccodec := 0, err := .ok, cmdcnt := s.cmdcnt + 1 })

/-- Rule R222 (c): the split point lies in the interval, below its high end, for every Probability. -/
def Obligations.SplitInsideInterval : Prop :=
  ∀ (s : State) (pr : Probability), s.eclow.toNat < s.echigh.toNat →
    (s.eclow.toNat : Int) ≤ splitPoint pr s ∧ splitPoint pr s < s.echigh.toNat

/-- Rules R218, R223, one bit of the lockstep: a decoder in the encoder's coder state, given the same `ARG`, that decodes the
encoded bit ends in the encoder's coder state and has read exactly as many bits as the encoder wrote. -/
def Obligations.LockstepOfOneBit : Prop :=
  ∀ (e d e' d' : State) (bit : BitVec 1), SameCoder e d → e.arg = d.arg →
    exec (.ecenc bit) e = .next e' → e'.err = .ok → exec .ecdec d = .next d' → d'.err = .ok →
    d'.res = bit.setWidth 64 →
    SameCoder e' d' ∧ d'.rbits = d.rbits + (e'.wbits - e.wbits)

/-! ### When a command raises what -/

/-- Rules R130, R261: a command of the other role, or any stream or coder command before `OPEN`, raises `IllegalCommand`. -/
def Obligations.WrongRoleIsIllegal : Prop :=
  ∀ (s : State) (i : Instr),
    (((∃ b, i = .wrbit b) ∨ (∃ n, i = .wrbits n) ∨ (∃ b, i = .ecenc b)) ∧ s.role ≠ .writer ∨
      (i = .rdbit ∨ (∃ n, i = .rdbits n) ∨ i = .hasmore ∨ i = .ecdec) ∧ s.role ≠ .reader ∨
      (i = .close ∨ (∃ c a, i = .ecinit c a) ∨ i = .ecfin) ∧ s.role = .none) →
    exec i s = .next (takeError (encode i) ⟨.illegalCommand, 0⟩ s)

/-- Rules R140, R263: on a closed stream a stream or coder command of the right role, other than `CLOSE`, raises
`StreamClosed`, whatever its operands. -/
def Obligations.ClosedStreamIsClosed : Prop :=
  ∀ (s : State) (i : Instr), s.closed = true →
    (((∃ b, i = .wrbit b) ∨ (∃ n, i = .wrbits n) ∨ (∃ b, i = .ecenc b)) ∧ s.role = .writer ∨
      (i = .rdbit ∨ (∃ n, i = .rdbits n) ∨ i = .hasmore ∨ i = .ecdec) ∧ s.role = .reader ∨
      ((∃ c a, i = .ecinit c a) ∨ i = .ecfin) ∧ s.role ≠ .none) →
    exec i s = .next (takeError (encode i) ⟨.streamClosed, 0⟩ s)

/-- Rules R225, R219 to R221: what the coder's state excludes. While it is active: raw bits, `CLOSE`, a second `ECINIT`; and when
it uses the APM, `APMNEW` and `APMGET`. While it is not: `ECENC`, `ECDEC`, `ECFIN`. -/
def Obligations.CoderStateExcludes : Prop :=
  ∀ (s : State) (i : Instr),
    (s.closed = false ∧ s.ecact = true ∧
        (((∃ b, i = .wrbit b) ∨ (∃ n, i = .wrbits n)) ∧ s.role = .writer ∨
          (i = .rdbit ∨ ∃ n, i = .rdbits n) ∧ s.role = .reader ∨
          (i = .close ∨ ∃ c a, i = .ecinit c a) ∧ s.role ≠ .none) ∨
      s.ecact = true ∧ s.ecapm = true ∧ ((∃ r, i = .apmnew r) ∨ ∃ b p, i = .apmget b p) ∨
      s.closed = false ∧ s.ecact = false ∧
        ((∃ b, i = .ecenc b) ∧ s.role = .writer ∨ i = .ecdec ∧ s.role = .reader ∨ i = .ecfin ∧ s.role ≠ .none)) →
    exec i s = .next (takeError (encode i) ⟨.illegalCommand, 0⟩ s)

/-- Rule R133: a length of 0 or above 64 raises `InvalidArgument`, in the role and state that may transfer bits (rule R263). -/
def Obligations.IllegalLengthRaises : Prop :=
  ∀ (s : State) (len : BitVec 7), s.closed = false → s.ecact = false → (len.toNat = 0 ∨ 65 ≤ len.toNat) →
    (s.role = .writer → exec (.wrbits len) s = .next (takeError (encode (.wrbits len)) ⟨.invalidArgument, 0⟩ s)) ∧
    (s.role = .reader → exec (.rdbits len) s = .next (takeError (encode (.rdbits len)) ⟨.invalidArgument, 0⟩ s))

/-- Rule R131: a write for which the sink has no room raises `IOFailure` with sub-status 1 and writes nothing. -/
def Obligations.FullSinkRaises : Prop :=
  ∀ s : State, s.role = .writer → s.closed = false →
    (∀ bit, s.ecact = false → 8 * s.snkcap.toNat < s.wbits.toNat + 1 →
      exec (.wrbit bit) s = .next (takeError (encode (.wrbit bit)) ⟨.ioFailure, 1⟩ s)) ∧
    (∀ len : BitVec 7, s.ecact = false → 1 ≤ len.toNat → len.toNat ≤ 64 →
      8 * s.snkcap.toNat < s.wbits.toNat + len.toNat →
      exec (.wrbits len) s = .next (takeError (encode (.wrbits len)) ⟨.ioFailure, 1⟩ s)) ∧
    (s.ecact = true → 8 * s.snkcap.toNat < s.wbits.toNat + 32 →
      exec .ecfin s = .next (takeError (encode .ecfin) ⟨.ioFailure, 1⟩ s))

/-- Rule R132: a read of more bits than the source has left raises `EndOfStream` and consumes nothing. -/
def Obligations.PastEndRaises : Prop :=
  ∀ s : State, s.role = .reader → s.closed = false → s.ecact = false →
    (8 * s.srclen.toNat < s.rbits.toNat + 1 →
      exec .rdbit s = .next (takeError (encode .rdbit) ⟨.endOfStream, 0⟩ s)) ∧
    (∀ len : BitVec 7, 1 ≤ len.toNat → len.toNat ≤ 64 → 8 * s.srclen.toNat < s.rbits.toNat + len.toNat →
      exec (.rdbits len) s = .next (takeError (encode (.rdbits len)) ⟨.endOfStream, 0⟩ s)) ∧
    (∀ apmen : BitVec 1, (apmen = 1 → s.apmvld = true) → 8 * s.srclen.toNat < s.rbits.toNat + 32 →
      exec (.ecinit 1 apmen) s = .next (takeError (encode (.ecinit 1 apmen)) ⟨.endOfStream, 0⟩ s))

/-- Rules R219, R220: a coding command whose settled bytes do not fit the sink, or are not in the source, fails as a whole. -/
def Obligations.CodingWithoutRoomRaises : Prop :=
  ∀ (s : State) (pr : Nat), s.Inv → s.closed = false → s.ecact = true →
    (s.ecapm = true → s.arg.toNat < s.apmn.toNat) → pr = (predict s.arg.toNat s).1.toNat →
    (∀ bit : BitVec 1, s.role = .writer →
      8 * s.snkcap.toNat < s.wbits.toNat +
        8 * settledBytes (narrowedLow (bit == 1) s.eclow.toNat s.echigh.toNat pr)
          (narrowedHigh (bit == 1) s.eclow.toNat s.echigh.toNat pr) →
      exec (.ecenc bit) s = .next (takeError (encode (.ecenc bit)) ⟨.ioFailure, 1⟩ s)) ∧
    (∀ bit : Bool, s.role = .reader →
      bit = decide (s.eccode.toNat ≤ midPoint s.eclow.toNat s.echigh.toNat pr) →
      8 * s.srclen.toNat < s.rbits.toNat +
        8 * settledBytes (narrowedLow bit s.eclow.toNat s.echigh.toNat pr)
          (narrowedHigh bit s.eclow.toNat s.echigh.toNat pr) →
      exec .ecdec s = .next (takeError (encode .ecdec) ⟨.endOfStream, 0⟩ s))

/-- Rules R107, R134: `OPEN` with a reserved role or in an opened instance raises `IllegalCommand`; a size above the buffer raises
`InvalidArgument`. -/
def Obligations.OpenRaises : Prop :=
  ∀ s : State,
    (∀ (w : Word32), w = 0x01000000 ∨ w = 0x01000003 →
      hostMove (.writeCmd w) s = .next (takeError w ⟨.illegalCommand, 0⟩ s)) ∧
    (∀ role, s.role ≠ .none →
      exec (.openRole role) s = .next (takeError (encode (.openRole role)) ⟨.illegalCommand, 0⟩ s)) ∧
    (s.role = .none → s.params.omemSize < s.arg.toNat →
      exec (.openRole 1) s = .next (takeError (encode (.openRole 1)) ⟨.invalidArgument, 0⟩ s)) ∧
    (s.role = .none → s.params.imemSize < s.arg.toNat →
      exec (.openRole 2) s = .next (takeError (encode (.openRole 2)) ⟨.invalidArgument, 0⟩ s))

/-- Rules R175 to R177: operands the logistic engine refuses. -/
def Obligations.LogisticOperandRaises : Prop :=
  ∀ s : State,
    (4096 ≤ s.arg.toNat → exec .stretch s = .next (takeError (encode .stretch) ⟨.invalidArgument, 0⟩ s)) ∧
    (s.arg.toNat = 0 ∨ 2 ^ 32 ≤ s.arg.toNat →
      exec .log2 s = .next (takeError (encode .log2) ⟨.invalidArgument, 0⟩ s) ∧
      exec .log2k s = .next (takeError (encode .log2k) ⟨.invalidArgument, 0⟩ s))

/-- Rules R196, R197, R219, R220: no map, a context count out of range, a context outside the map. -/
def Obligations.MapOperandRaises : Prop :=
  ∀ s : State,
    (∀ rate, ¬ (s.ecact = true ∧ s.ecapm = true) → (s.arg.toNat = 0 ∨ s.params.apmMaxCtx < s.arg.toNat) →
      exec (.apmnew rate) s = .next (takeError (encode (.apmnew rate)) ⟨.invalidArgument, 0⟩ s)) ∧
    (∀ bit pr, s.apmvld = false →
      exec (.apmget bit pr) s = .next (takeError (encode (.apmget bit pr)) ⟨.illegalCommand, 0⟩ s)) ∧
    (∀ bit pr, s.apmvld = true → ¬ (s.ecact = true ∧ s.ecapm = true) → s.apmn.toNat ≤ s.arg.toNat →
      exec (.apmget bit pr) s = .next (takeError (encode (.apmget bit pr)) ⟨.invalidArgument, 0⟩ s)) ∧
    (s.closed = false → s.ecact = true → s.ecapm = true → s.apmn.toNat ≤ s.arg.toNat →
      (∀ bit, s.role = .writer →
        exec (.ecenc bit) s = .next (takeError (encode (.ecenc bit)) ⟨.invalidArgument, 0⟩ s)) ∧
      (s.role = .reader → exec .ecdec s = .next (takeError (encode .ecdec) ⟨.invalidArgument, 0⟩ s)))

/-- Rules R211, R213: refinement without a map, an unrecognised codec id in each role, and refinement of no codec. -/
def Obligations.EcinitRaises : Prop :=
  ∀ s : State, s.closed = false → s.ecact = false →
    (∀ codec, s.role ≠ .none → s.apmvld = false →
      exec (.ecinit codec 1) s = .next (takeError (encode (.ecinit codec 1)) ⟨.illegalCommand, 0⟩ s)) ∧
    (∀ (codec : BitVec 4) apmen, (apmen = 1 → s.apmvld = true) → 2 ≤ codec.toNat → s.role = .reader →
      exec (.ecinit codec apmen) s = .next (takeError (encode (.ecinit codec apmen)) ⟨.unsupportedCodec, 0⟩ s)) ∧
    (∀ (codec : BitVec 4) apmen, (apmen = 1 → s.apmvld = true) → 2 ≤ codec.toNat → s.role = .writer →
      exec (.ecinit codec apmen) s = .next (takeError (encode (.ecinit codec apmen)) ⟨.invalidArgument, 0⟩ s)) ∧
    (s.role ≠ .none → s.apmvld = true →
      exec (.ecinit 0 1) s = .next (takeError (encode (.ecinit 0 1)) ⟨.invalidArgument, 0⟩ s))

/-! ### Reset and what every step keeps -/

/-- Rule R301: in the reset state every register is 0, field by field, `STATUS` and `RBYTES` included, and every register reads 0;
the permitted commands, whatever `ARG`, are `NOP`, `OPEN`, the four LLE commands, `APMNEW`, `CLRERR` and `SRESET`, and every
other one raises `IllegalCommand`, whatever the parameters. -/
def Obligations.ResetState : Prop :=
  (State.reset.arg = 0 ∧ State.reset.res = 0 ∧ State.reset.cmdcnt = 0 ∧ statusWord State.reset = 0 ∧
    State.reset.errcmd = 0 ∧ State.reset.errarg = 0 ∧ State.reset.wbits = 0 ∧ State.reset.wbytes = 0 ∧
    State.reset.rbits = 0 ∧ rbytes State.reset = 0 ∧ State.reset.snkcap = 0 ∧ State.reset.srclen = 0 ∧
    State.reset.wacc = 0 ∧ State.reset.apmn = 0 ∧ State.reset.apmrate = 0 ∧ State.reset.apmidx = 0 ∧
    State.reset.eclow = 0 ∧ State.reset.echigh = 0 ∧ State.reset.eccode = 0 ∧ State.reset.ecpred = 0 ∧
    State.reset.ecpr = 0 ∧ State.reset.eclast = 0) ∧
  (State.reset.role = .none ∧ State.reset.closed = false ∧ State.reset.ecact = false ∧ State.reset.apmvld = false ∧
    State.reset.ecapm = false ∧ State.reset.err = .ok ∧ State.reset.firsterr = .ok ∧ State.reset.eccodec = 0 ∧
    State.reset.iostat = 0) ∧
  (∀ reg : Reg, readReg reg State.reset = 0) ∧
  ∀ (i : Instr) (a : Word64) (p : Params), i.wf = true →
    ∃ t, exec i { State.reset with arg := a, params := p } = .next t ∧
      (t.err ≠ .err .illegalCommand ↔
        i = .nop ∨ (∃ role, i = .openRole role) ∨ i = .squash ∨ i = .stretch ∨ i = .log2 ∨ i = .log2k ∨
          (∃ rate, i = .apmnew rate) ∨ i = .clrerr ∨ i = .sreset)

/-- The invariant of rules R42, R36, R37, R195 and R222 holds after reset, and that of rules R85 and R305 on a reader's source. -/
def Obligations.ResetMeetsInvariant : Prop := State.reset.Inv ∧ State.reset.SourceWritten

/-- Every step keeps the invariant of rules R42, R36, R37, R195 and R222, from every state that meets it; and every step keeps
that each source byte of a reader has been written (rules R77, R85, R305). -/
def Obligations.StepKeepsInvariant : Prop :=
  ∀ s t : State, step s = .next t → (s.Inv → t.Inv) ∧ (s.SourceWritten → t.SourceWritten)

/-- Rule R141: no command but `SRESET` decreases a bit or byte counter. -/
def Obligations.CountersNeverFall : Prop :=
  ∀ (i : Instr) (s t : State), s.Inv → i ≠ .sreset → exec i s = .next t →
    s.wbits.toNat ≤ t.wbits.toNat ∧ s.wbytes.toNat ≤ t.wbytes.toNat ∧ s.rbits.toNat ≤ t.rbits.toNat ∧
    (rbytes s).toNat ≤ (rbytes t).toNat

/-- Rule R130: an opened instance keeps its role until `SRESET`. -/
def Obligations.RoleIsKept : Prop :=
  ∀ (i : Instr) (s t : State), i ≠ .sreset → s.role ≠ .none → exec i s = .next t → t.role = s.role

/-- Rules R21, R41, R74: no command writes `IMEM`, a parameter or the host's side of the machine, and none but `SRESET` writes
`ARG`. -/
def Obligations.CommandsLeaveInputs : Prop :=
  ∀ (i : Instr) (s t : State), exec i s = .next t →
    t.imem = s.imem ∧ t.params = s.params ∧ t.hostIn = s.hostIn ∧ t.hostOut = s.hostOut ∧ t.freeReads = s.freeReads ∧
    (i ≠ .sreset → t.arg = s.arg)

/-- Rule R81: once the stream is closed no command changes `OMEM`, and none but `SRESET` reopens it or moves `WBYTES`. -/
def Obligations.ClosedStreamStays : Prop :=
  ∀ (i : Instr) (s t : State), s.Inv → s.closed = true → exec i s = .next t →
    t.omem = s.omem ∧ (i ≠ .sreset → t.closed = true ∧ t.wbytes = s.wbytes)
end

