-- ==== Sys2Proof/Laws/Logistic.lean ====
section
/-! SUPPORT. The search behind `Stretch` and the range of its answers. -/

namespace Sys2Proof.Machine

/-- The search answers the first logit that reaches the level. -/
theorem firstReach_some {inv : List Nat} {p n : Nat} {d e : Int} (h : firstReach inv p n d = some e) :
    d ≤ e ∧ e < d + n ∧ p ≤ squash inv e ∧ ∀ f, d ≤ f → f < e → squash inv f < p := by
  induction n generalizing d with
  | zero => simp [firstReach] at h
  | succ n ih =>
    rw [firstReach] at h
    split at h
    · next hp =>
      obtain rfl : d = e := by simpa using h
      exact ⟨le_refl _, by omega, hp, fun f h1 h2 => by omega⟩
    · next hp =>
      obtain ⟨h1, h2, h3, h4⟩ := ih h
      refine ⟨by omega, by omega, h3, fun f hf hfe => ?_⟩
      rcases eq_or_lt_of_le hf with rfl | hf
      · omega
      · exact h4 f (by omega) hfe

/-- The search fails when no logit reaches the level. -/
theorem firstReach_none {inv : List Nat} {p n : Nat} {d : Int} :
    firstReach inv p n d = none ↔ ∀ f, d ≤ f → f < d + n → squash inv f < p := by
  induction n generalizing d with
  | zero => simp only [firstReach, true_iff]; intro f h1 h2; omega
  | succ n ih =>
    rw [firstReach]
    split
    · next hp =>
      simp only [reduceCtorEq, false_iff, not_forall]
      exact ⟨d, le_refl _, by omega, by omega⟩
    · next hp =>
      rw [ih]
      constructor
      · intro h f h1 h2
        rcases eq_or_lt_of_le h1 with rfl | h1
        · omega
        · exact h f (by omega) (by omega)
      · intro h f h1 h2
        exact h f (by omega) (by omega)

/-- `Stretch` answers a logit (rule R167). -/
theorem stretch_range (inv : List Nat) (p : Nat) : -2047 ≤ stretch inv p ∧ stretch inv p ≤ 2047 := by
  unfold stretch
  split
  · omega
  · cases h : firstReach inv p 4095 (-2047) with
    | none => simp
    | some e =>
      obtain ⟨h1, h2, -, -⟩ := firstReach_some h
      simp only [Option.getD_some]
      omega

/-- The bracket of a logit is one of the 32 of a context (rule R194). -/
theorem bracket_range (inv : List Nat) (p : Nat) :
    0 ≤ asr (stretch inv p + 2048) 7 ∧ asr (stretch inv p + 2048) 7 ≤ 31 := by
  have := stretch_range inv p
  simp only [asr]
  omega

/-- The weight of a bracket is below 128. -/
theorem lowBits_lt (a : Int) (k : Nat) : lowBits a k < 2 ^ k := by
  unfold lowBits
  have hpos : (0 : Int) < ((2 ^ k : Nat) : Int) := by exact_mod_cast Nat.two_pow_pos k
  have := Int.emod_lt_of_pos a hpos
  have := Int.emod_nonneg a (ne_of_gt hpos)
  omega

/-- `LOG2_8` is the floor of the base-2 logarithm (rule R169). -/
theorem log2_8_spec {i : Nat} (h : i ≠ 0) : 2 ^ log2_8 i ≤ i ∧ i < 2 ^ (log2_8 i + 1) := by
  rw [log2_8, if_neg h]
  exact ⟨Nat.log2_self_le h, Nat.lt_log2_self⟩

end Sys2Proof.Machine
end

