-- ==== Sys2Proof/Laws/Memory.lean ====
section
/-! SUPPORT. What reading, writing and filling a memory do, and that each keeps the canonical form. -/

namespace Sys2Proof.Machine

variable {w : Nat}

/-- Every listed address is above `a`. -/
def Memory.above (a : Nat) (m : Memory w) : Prop := ∀ c ∈ m, a < c.1

theorem Memory.wf_cons {a : Nat} {v : BitVec w} {m : Memory w} :
    Memory.wf ((a, v) :: m) = true ↔ Memory.above a m ∧ Memory.wf m = true := by
  induction m generalizing a v with
  | nil => simp [Memory.wf, Memory.above]
  | cons c m ih =>
    obtain ⟨b, u⟩ := c
    simp only [Memory.wf, Bool.and_eq_true, decide_eq_true_eq, ih]
    constructor
    · rintro ⟨hab, hb, hm⟩
      refine ⟨?_, hb, hm⟩
      intro c hc
      rcases List.mem_cons.1 hc with rfl | hc
      · exact hab
      · exact lt_trans hab (hb c hc)
    · rintro ⟨ha, hb, hm⟩
      exact ⟨ha (b, u) (by simp), hb, hm⟩

theorem Memory.read_cons (b a : Nat) (v : BitVec w) (m : Memory w) :
    Memory.read ((b, v) :: m) a = if a = b then some v else Memory.read m a := rfl

@[simp] theorem Memory.read_nil (a : Nat) : Memory.read ([] : Memory w) a = none := rfl

theorem Memory.read_append (m n : Memory w) (a : Nat) :
    Memory.read (m ++ n) a = (Memory.read m a).or (Memory.read n a) := by
  induction m with
  | nil => rfl
  | cons c m ih =>
    obtain ⟨b, u⟩ := c
    simp only [List.cons_append, Memory.read_cons]
    split
    · rfl
    · exact ih

theorem Memory.read_isSome {m : Memory w} {a : Nat} : (Memory.read m a).isSome = true ↔ ∃ c ∈ m, c.1 = a := by
  induction m with
  | nil => simp
  | cons c m ih =>
    obtain ⟨b, u⟩ := c
    rw [Memory.read_cons]
    by_cases h : a = b
    · simp [h]
    · simp [h, ih, Ne.symm h]

/-- Reading after a write (canonical or not, the first entry of an address is the one that counts). -/
theorem Memory.read_write (a b : Nat) (v : BitVec w) (m : Memory w) (hm : Memory.wf m = true) :
    Memory.read (Memory.write a v m) b = if b = a then some v else Memory.read m b := by
  induction m with
  | nil => simp [Memory.write, Memory.read_cons]
  | cons c m ih =>
    obtain ⟨d, u⟩ := c
    have hm' := (Memory.wf_cons.1 hm).2
    unfold Memory.write
    split
    · rw [Memory.read_cons]
    · split
      · next h =>
        subst h
        rw [Memory.read_cons, Memory.read_cons]
        split <;> rfl
      · next h =>
        rw [Memory.read_cons, ih hm', Memory.read_cons]
        by_cases hb : b = d
        · simp [hb, Ne.symm h]
        · simp [hb]

@[simp] theorem Memory.read_write_same (a : Nat) (v : BitVec w) (m : Memory w) :
    Memory.read (Memory.write a v m) a = some v := by
  induction m with
  | nil => simp [Memory.write, Memory.read_cons]
  | cons c m ih =>
    obtain ⟨d, u⟩ := c
    unfold Memory.write
    split
    · rw [Memory.read_cons, if_pos rfl]
    · split
      · rw [Memory.read_cons, if_pos rfl]
      · next h => rw [Memory.read_cons, if_neg h, ih]

theorem Memory.read_write_other {a b : Nat} (h : b ≠ a) (v : BitVec w) (m : Memory w) :
    Memory.read (Memory.write a v m) b = Memory.read m b := by
  induction m with
  | nil => simp [Memory.write, Memory.read_cons, h]
  | cons c m ih =>
    obtain ⟨d, u⟩ := c
    unfold Memory.write
    split
    · rw [Memory.read_cons, if_neg h]
    · split
      · next hd => subst hd; rw [Memory.read_cons, if_neg h, Memory.read_cons, if_neg h]
      · rw [Memory.read_cons, ih, Memory.read_cons]

theorem Memory.mem_write {a : Nat} {v : BitVec w} {m : Memory w} {c : Nat × BitVec w}
    (h : c ∈ Memory.write a v m) : c = (a, v) ∨ c ∈ m := by
  induction m with
  | nil => exact .inl (by simpa [Memory.write] using h)
  | cons d m ih =>
    obtain ⟨d, u⟩ := d
    unfold Memory.write at h
    split at h
    · simpa using h
    · split at h
      · rcases List.mem_cons.1 h with h | h
        · exact .inl h
        · exact .inr (List.mem_cons_of_mem _ h)
      · rcases List.mem_cons.1 h with h | h
        · exact .inr (by simp [h])
        · rcases ih h with h | h
          · exact .inl h
          · exact .inr (List.mem_cons_of_mem _ h)

/-- A write keeps the canonical form. -/
theorem Memory.write_wf (a : Nat) (v : BitVec w) (m : Memory w) (hm : Memory.wf m = true) :
    Memory.wf (Memory.write a v m) = true := by
  induction m with
  | nil => rfl
  | cons c m ih =>
    obtain ⟨d, u⟩ := c
    obtain ⟨hd, hm'⟩ := Memory.wf_cons.1 hm
    unfold Memory.write
    split
    · next h =>
      refine Memory.wf_cons.2 ⟨?_, hm⟩
      intro c hc
      rcases List.mem_cons.1 hc with rfl | hc
      · exact h
      · exact lt_trans h (hd c hc)
    · split
      · next h => subst h; exact Memory.wf_cons.2 ⟨hd, hm'⟩
      · next h h' =>
        refine Memory.wf_cons.2 ⟨?_, ih hm'⟩
        intro c hc
        rcases Memory.mem_write hc with rfl | hc
        · simp only; omega
        · exact hd c hc

theorem Memory.read_map_range (n k : Nat) (f : Nat → BitVec w) (a : Nat) :
    Memory.read ((List.range' k n).map (fun i => (i, f i))) a = if k ≤ a ∧ a < k + n then some (f a) else none := by
  induction n generalizing k with
  | zero =>
    rw [if_neg (by omega)]
    rfl
  | succ n ih =>
    rw [List.range'_succ, List.map_cons, Memory.read_cons, ih (k + 1)]
    by_cases h : a = k
    · subst h; simp
    · by_cases h' : k ≤ a ∧ a < k + (n + 1)
      · rw [if_neg h, if_pos (by omega), if_pos h']
      · rw [if_neg h, if_neg (by omega), if_neg h']

theorem Memory.read_filter (n : Nat) (m : Memory w) (a : Nat) :
    Memory.read (m.filter (fun c => decide (n ≤ c.1))) a = if n ≤ a then Memory.read m a else none := by
  induction m with
  | nil => simp
  | cons c m ih =>
    obtain ⟨b, u⟩ := c
    rw [List.filter_cons]
    by_cases hb : n ≤ b
    · simp only [hb, decide_true, if_true, Memory.read_cons, ih]
      by_cases ha : a = b
      · simp [ha, hb]
      · simp [ha]
    · simp only [hb, decide_false, Bool.false_eq_true, if_false, ih, Memory.read_cons]
      by_cases hn : n ≤ a
      · have : a ≠ b := by omega
        simp [hn, this]
      · simp [hn]

/-- Reading after a fill: the filled words below `n`, the old ones from `n` on. -/
theorem Memory.read_fill (n : Nat) (f : Nat → BitVec w) (m : Memory w) (a : Nat) :
    Memory.read (Memory.fill n f m) a = if a < n then some (f a) else Memory.read m a := by
  unfold Memory.fill
  rw [Memory.read_append, List.range_eq_range', Memory.read_map_range, Memory.read_filter]
  by_cases h : a < n
  · simp [h]
  · have : n ≤ a := by omega
    simp [h, this]

theorem Memory.wf_filter (p : Nat × BitVec w → Bool) (m : Memory w) (hm : Memory.wf m = true) :
    Memory.wf (m.filter p) = true := by
  induction m with
  | nil => rfl
  | cons c m ih =>
    obtain ⟨b, u⟩ := c
    obtain ⟨hb, hm'⟩ := Memory.wf_cons.1 hm
    rw [List.filter_cons]
    split
    · refine Memory.wf_cons.2 ⟨?_, ih hm'⟩
      intro c hc
      exact hb c (List.mem_filter.1 hc).1
    · exact ih hm'

theorem Memory.wf_range (k n : Nat) (f : Nat → BitVec w) (m : Memory w) (hm : Memory.wf m = true)
    (hk : ∀ c ∈ m, k + n ≤ c.1) : Memory.wf ((List.range' k n).map (fun i => (i, f i)) ++ m) = true := by
  induction n generalizing k with
  | zero => exact hm
  | succ n ih =>
    rw [List.range'_succ, List.map_cons, List.cons_append]
    refine Memory.wf_cons.2 ⟨?_, ih (k + 1) (fun c hc => by have := hk c hc; omega)⟩
    intro c hc
    rcases List.mem_append.1 hc with hc | hc
    · obtain ⟨i, hi, rfl⟩ := List.mem_map.1 hc
      have := List.mem_range'.1 hi
      simp only; omega
    · have := hk c hc; omega

/-- A fill keeps the canonical form. -/
theorem Memory.fill_wf (n : Nat) (f : Nat → BitVec w) (m : Memory w) (hm : Memory.wf m = true) :
    Memory.wf (Memory.fill n f m) = true := by
  unfold Memory.fill
  rw [List.range_eq_range']
  refine Memory.wf_range 0 n f _ (Memory.wf_filter _ _ hm) ?_
  intro c hc
  have := (List.mem_filter.1 hc).2
  simp only [decide_eq_true_eq] at this
  omega

theorem Memory.mem_fill {n : Nat} {f : Nat → BitVec w} {m : Memory w} {c : Nat × BitVec w}
    (h : c ∈ Memory.fill n f m) : c.1 < n ∨ c ∈ m := by
  unfold Memory.fill at h
  rcases List.mem_append.1 h with h | h
  · obtain ⟨i, hi, rfl⟩ := List.mem_map.1 h
    exact .inl (List.mem_range.1 hi)
  · exact .inr (List.mem_filter.1 h).1

/-- The three memories after power-on have the canonical form. -/
theorem reset_memories_wf :
    Memory.wf State.reset.omem = true ∧ Memory.wf State.reset.imem = true ∧ Memory.wf State.reset.cell = true :=
  ⟨rfl, rfl, rfl⟩

/-! ### The first unlisted address -/

theorem Memory.le_firstUnlisted (a : Nat) (m : Memory w) : a ≤ Memory.firstUnlisted a m := by
  induction m generalizing a with
  | nil => exact Nat.le_refl a
  | cons c m ih =>
    obtain ⟨b, u⟩ := c
    unfold Memory.firstUnlisted
    split
    · exact Nat.le_of_succ_le (ih (a + 1))
    · split
      · exact ih a
      · exact Nat.le_refl a

/-- Every address below the first unlisted one has been written. -/
theorem Memory.isSome_of_lt_firstUnlisted {a b : Nat} {m : Memory w} (hab : a ≤ b) (h : b < Memory.firstUnlisted a m) :
    (Memory.read m b).isSome = true := by
  induction m generalizing a with
  | nil => exact absurd h (Nat.not_lt.2 hab)
  | cons c m ih =>
    obtain ⟨d, u⟩ := c
    rw [Memory.read_cons]
    split
    · rfl
    · next hd =>
      unfold Memory.firstUnlisted at h
      split at h
      · next hda => exact ih (by omega) h
      · split at h
        · exact ih hab h
        · omega

/-- In the canonical form the first unlisted address is not listed. -/
theorem Memory.read_firstUnlisted {a : Nat} {m : Memory w} (hm : Memory.wf m = true) :
    Memory.read m (Memory.firstUnlisted a m) = none := by
  induction m generalizing a with
  | nil => rfl
  | cons c m ih =>
    obtain ⟨b, u⟩ := c
    obtain ⟨hab, hm⟩ := Memory.wf_cons.1 hm
    unfold Memory.firstUnlisted
    split
    · next h =>
      have := Memory.le_firstUnlisted (a + 1) m
      rw [Memory.read_cons, if_neg (by omega), ih hm]
    · split
      · have := Memory.le_firstUnlisted a m
        rw [Memory.read_cons, if_neg (by omega), ih hm]
      · rw [Memory.read_cons, if_neg (by omega), ← Option.not_isSome_iff_eq_none, Memory.read_isSome]
        rintro ⟨c, hc, rfl⟩
        have := hab c hc
        omega

/-- The first unlisted address is below `n` exactly when some address below `n` was never written. -/
theorem Memory.firstUnlisted_lt_iff {m : Memory w} (hm : Memory.wf m = true) {n : Nat} :
    Memory.firstUnlisted 0 m < n ↔ ∃ a < n, Memory.read m a = none := by
  constructor
  · exact fun h => ⟨_, h, Memory.read_firstUnlisted hm⟩
  · rintro ⟨a, ha, hr⟩
    by_contra hn
    have := Memory.isSome_of_lt_firstUnlisted (m := m) (Nat.zero_le a) (by omega)
    simp [hr] at this

end Sys2Proof.Machine
end

