-- ==== Sys2Proof/Laws/State.lean ====
section
/-! SUPPORT. One lemma per field per update of the state, each true by unfolding the update once, so that no later proof
unfolds a record update. -/

namespace Sys2Proof.Machine

/-! ### setRes -/

@[simp] theorem setRes_arg (v : Word64) (s : State) : (setRes v s).arg = s.arg := rfl
@[simp] theorem setRes_res (v : Word64) (s : State) : (setRes v s).res = v := rfl
@[simp] theorem setRes_role (v : Word64) (s : State) : (setRes v s).role = s.role := rfl
@[simp] theorem setRes_closed (v : Word64) (s : State) : (setRes v s).closed = s.closed := rfl
@[simp] theorem setRes_ecact (v : Word64) (s : State) : (setRes v s).ecact = s.ecact := rfl
@[simp] theorem setRes_apmvld (v : Word64) (s : State) : (setRes v s).apmvld = s.apmvld := rfl
@[simp] theorem setRes_ecapm (v : Word64) (s : State) : (setRes v s).ecapm = s.ecapm := rfl
@[simp] theorem setRes_err (v : Word64) (s : State) : (setRes v s).err = s.err := rfl
@[simp] theorem setRes_firsterr (v : Word64) (s : State) : (setRes v s).firsterr = s.firsterr := rfl
@[simp] theorem setRes_eccodec (v : Word64) (s : State) : (setRes v s).eccodec = s.eccodec := rfl
@[simp] theorem setRes_iostat (v : Word64) (s : State) : (setRes v s).iostat = s.iostat := rfl
@[simp] theorem setRes_cmdcnt (v : Word64) (s : State) : (setRes v s).cmdcnt = s.cmdcnt := rfl
@[simp] theorem setRes_errcmd (v : Word64) (s : State) : (setRes v s).errcmd = s.errcmd := rfl
@[simp] theorem setRes_errarg (v : Word64) (s : State) : (setRes v s).errarg = s.errarg := rfl
@[simp] theorem setRes_wbits (v : Word64) (s : State) : (setRes v s).wbits = s.wbits := rfl
@[simp] theorem setRes_wbytes (v : Word64) (s : State) : (setRes v s).wbytes = s.wbytes := rfl
@[simp] theorem setRes_wacc (v : Word64) (s : State) : (setRes v s).wacc = s.wacc := rfl
@[simp] theorem setRes_snkcap (v : Word64) (s : State) : (setRes v s).snkcap = s.snkcap := rfl
@[simp] theorem setRes_rbits (v : Word64) (s : State) : (setRes v s).rbits = s.rbits := rfl
@[simp] theorem setRes_srclen (v : Word64) (s : State) : (setRes v s).srclen = s.srclen := rfl
@[simp] theorem setRes_apmn (v : Word64) (s : State) : (setRes v s).apmn = s.apmn := rfl
@[simp] theorem setRes_apmrate (v : Word64) (s : State) : (setRes v s).apmrate = s.apmrate := rfl
@[simp] theorem setRes_apmidx (v : Word64) (s : State) : (setRes v s).apmidx = s.apmidx := rfl
@[simp] theorem setRes_eclow (v : Word64) (s : State) : (setRes v s).eclow = s.eclow := rfl
@[simp] theorem setRes_echigh (v : Word64) (s : State) : (setRes v s).echigh = s.echigh := rfl
@[simp] theorem setRes_eccode (v : Word64) (s : State) : (setRes v s).eccode = s.eccode := rfl
@[simp] theorem setRes_ecpred (v : Word64) (s : State) : (setRes v s).ecpred = s.ecpred := rfl
@[simp] theorem setRes_ecpr (v : Word64) (s : State) : (setRes v s).ecpr = s.ecpr := rfl
@[simp] theorem setRes_eclast (v : Word64) (s : State) : (setRes v s).eclast = s.eclast := rfl
@[simp] theorem setRes_omem (v : Word64) (s : State) : (setRes v s).omem = s.omem := rfl
@[simp] theorem setRes_imem (v : Word64) (s : State) : (setRes v s).imem = s.imem := rfl
@[simp] theorem setRes_cell (v : Word64) (s : State) : (setRes v s).cell = s.cell := rfl
@[simp] theorem setRes_params (v : Word64) (s : State) : (setRes v s).params = s.params := rfl
@[simp] theorem setRes_hostIn (v : Word64) (s : State) : (setRes v s).hostIn = s.hostIn := rfl
@[simp] theorem setRes_hostOut (v : Word64) (s : State) : (setRes v s).hostOut = s.hostOut := rfl
@[simp] theorem setRes_freeReads (v : Word64) (s : State) : (setRes v s).freeReads = s.freeReads := rfl

/-! ### setCell -/

@[simp] theorem setCell_arg (i : Nat) (v : Cell16) (s : State) : (setCell i v s).arg = s.arg := rfl
@[simp] theorem setCell_res (i : Nat) (v : Cell16) (s : State) : (setCell i v s).res = s.res := rfl
@[simp] theorem setCell_role (i : Nat) (v : Cell16) (s : State) : (setCell i v s).role = s.role := rfl
@[simp] theorem setCell_closed (i : Nat) (v : Cell16) (s : State) : (setCell i v s).closed = s.closed := rfl
@[simp] theorem setCell_ecact (i : Nat) (v : Cell16) (s : State) : (setCell i v s).ecact = s.ecact := rfl
@[simp] theorem setCell_apmvld (i : Nat) (v : Cell16) (s : State) : (setCell i v s).apmvld = s.apmvld := rfl
@[simp] theorem setCell_ecapm (i : Nat) (v : Cell16) (s : State) : (setCell i v s).ecapm = s.ecapm := rfl
@[simp] theorem setCell_err (i : Nat) (v : Cell16) (s : State) : (setCell i v s).err = s.err := rfl
@[simp] theorem setCell_firsterr (i : Nat) (v : Cell16) (s : State) : (setCell i v s).firsterr = s.firsterr := rfl
@[simp] theorem setCell_eccodec (i : Nat) (v : Cell16) (s : State) : (setCell i v s).eccodec = s.eccodec := rfl
@[simp] theorem setCell_iostat (i : Nat) (v : Cell16) (s : State) : (setCell i v s).iostat = s.iostat := rfl
@[simp] theorem setCell_cmdcnt (i : Nat) (v : Cell16) (s : State) : (setCell i v s).cmdcnt = s.cmdcnt := rfl
@[simp] theorem setCell_errcmd (i : Nat) (v : Cell16) (s : State) : (setCell i v s).errcmd = s.errcmd := rfl
@[simp] theorem setCell_errarg (i : Nat) (v : Cell16) (s : State) : (setCell i v s).errarg = s.errarg := rfl
@[simp] theorem setCell_wbits (i : Nat) (v : Cell16) (s : State) : (setCell i v s).wbits = s.wbits := rfl
@[simp] theorem setCell_wbytes (i : Nat) (v : Cell16) (s : State) : (setCell i v s).wbytes = s.wbytes := rfl
@[simp] theorem setCell_wacc (i : Nat) (v : Cell16) (s : State) : (setCell i v s).wacc = s.wacc := rfl
@[simp] theorem setCell_snkcap (i : Nat) (v : Cell16) (s : State) : (setCell i v s).snkcap = s.snkcap := rfl
@[simp] theorem setCell_rbits (i : Nat) (v : Cell16) (s : State) : (setCell i v s).rbits = s.rbits := rfl
@[simp] theorem setCell_srclen (i : Nat) (v : Cell16) (s : State) : (setCell i v s).srclen = s.srclen := rfl
@[simp] theorem setCell_apmn (i : Nat) (v : Cell16) (s : State) : (setCell i v s).apmn = s.apmn := rfl
@[simp] theorem setCell_apmrate (i : Nat) (v : Cell16) (s : State) : (setCell i v s).apmrate = s.apmrate := rfl
@[simp] theorem setCell_apmidx (i : Nat) (v : Cell16) (s : State) : (setCell i v s).apmidx = s.apmidx := rfl
@[simp] theorem setCell_eclow (i : Nat) (v : Cell16) (s : State) : (setCell i v s).eclow = s.eclow := rfl
@[simp] theorem setCell_echigh (i : Nat) (v : Cell16) (s : State) : (setCell i v s).echigh = s.echigh := rfl
@[simp] theorem setCell_eccode (i : Nat) (v : Cell16) (s : State) : (setCell i v s).eccode = s.eccode := rfl
@[simp] theorem setCell_ecpred (i : Nat) (v : Cell16) (s : State) : (setCell i v s).ecpred = s.ecpred := rfl
@[simp] theorem setCell_ecpr (i : Nat) (v : Cell16) (s : State) : (setCell i v s).ecpr = s.ecpr := rfl
@[simp] theorem setCell_eclast (i : Nat) (v : Cell16) (s : State) : (setCell i v s).eclast = s.eclast := rfl
@[simp] theorem setCell_omem (i : Nat) (v : Cell16) (s : State) : (setCell i v s).omem = s.omem := rfl
@[simp] theorem setCell_imem (i : Nat) (v : Cell16) (s : State) : (setCell i v s).imem = s.imem := rfl
@[simp] theorem setCell_cell (i : Nat) (v : Cell16) (s : State) : (setCell i v s).cell = Memory.write i v s.cell := rfl
@[simp] theorem setCell_params (i : Nat) (v : Cell16) (s : State) : (setCell i v s).params = s.params := rfl
@[simp] theorem setCell_hostIn (i : Nat) (v : Cell16) (s : State) : (setCell i v s).hostIn = s.hostIn := rfl
@[simp] theorem setCell_hostOut (i : Nat) (v : Cell16) (s : State) : (setCell i v s).hostOut = s.hostOut := rfl
@[simp] theorem setCell_freeReads (i : Nat) (v : Cell16) (s : State) : (setCell i v s).freeReads = s.freeReads := rfl

/-! ### withSink -/

@[simp] theorem withSink_arg (s : State) (k : Sink) : (s.withSink k).arg = s.arg := rfl
@[simp] theorem withSink_res (s : State) (k : Sink) : (s.withSink k).res = s.res := rfl
@[simp] theorem withSink_role (s : State) (k : Sink) : (s.withSink k).role = s.role := rfl
@[simp] theorem withSink_closed (s : State) (k : Sink) : (s.withSink k).closed = s.closed := rfl
@[simp] theorem withSink_ecact (s : State) (k : Sink) : (s.withSink k).ecact = s.ecact := rfl
@[simp] theorem withSink_apmvld (s : State) (k : Sink) : (s.withSink k).apmvld = s.apmvld := rfl
@[simp] theorem withSink_ecapm (s : State) (k : Sink) : (s.withSink k).ecapm = s.ecapm := rfl
@[simp] theorem withSink_err (s : State) (k : Sink) : (s.withSink k).err = s.err := rfl
@[simp] theorem withSink_firsterr (s : State) (k : Sink) : (s.withSink k).firsterr = s.firsterr := rfl
@[simp] theorem withSink_eccodec (s : State) (k : Sink) : (s.withSink k).eccodec = s.eccodec := rfl
@[simp] theorem withSink_iostat (s : State) (k : Sink) : (s.withSink k).iostat = s.iostat := rfl
@[simp] theorem withSink_cmdcnt (s : State) (k : Sink) : (s.withSink k).cmdcnt = s.cmdcnt := rfl
@[simp] theorem withSink_errcmd (s : State) (k : Sink) : (s.withSink k).errcmd = s.errcmd := rfl
@[simp] theorem withSink_errarg (s : State) (k : Sink) : (s.withSink k).errarg = s.errarg := rfl
@[simp] theorem withSink_wbits (s : State) (k : Sink) : (s.withSink k).wbits = k.wbits := rfl
@[simp] theorem withSink_wbytes (s : State) (k : Sink) : (s.withSink k).wbytes = k.wbytes := rfl
@[simp] theorem withSink_wacc (s : State) (k : Sink) : (s.withSink k).wacc = k.wacc := rfl
@[simp] theorem withSink_snkcap (s : State) (k : Sink) : (s.withSink k).snkcap = s.snkcap := rfl
@[simp] theorem withSink_rbits (s : State) (k : Sink) : (s.withSink k).rbits = s.rbits := rfl
@[simp] theorem withSink_srclen (s : State) (k : Sink) : (s.withSink k).srclen = s.srclen := rfl
@[simp] theorem withSink_apmn (s : State) (k : Sink) : (s.withSink k).apmn = s.apmn := rfl
@[simp] theorem withSink_apmrate (s : State) (k : Sink) : (s.withSink k).apmrate = s.apmrate := rfl
@[simp] theorem withSink_apmidx (s : State) (k : Sink) : (s.withSink k).apmidx = s.apmidx := rfl
@[simp] theorem withSink_eclow (s : State) (k : Sink) : (s.withSink k).eclow = s.eclow := rfl
@[simp] theorem withSink_echigh (s : State) (k : Sink) : (s.withSink k).echigh = s.echigh := rfl
@[simp] theorem withSink_eccode (s : State) (k : Sink) : (s.withSink k).eccode = s.eccode := rfl
@[simp] theorem withSink_ecpred (s : State) (k : Sink) : (s.withSink k).ecpred = s.ecpred := rfl
@[simp] theorem withSink_ecpr (s : State) (k : Sink) : (s.withSink k).ecpr = s.ecpr := rfl
@[simp] theorem withSink_eclast (s : State) (k : Sink) : (s.withSink k).eclast = s.eclast := rfl
@[simp] theorem withSink_omem (s : State) (k : Sink) : (s.withSink k).omem = k.omem := rfl
@[simp] theorem withSink_imem (s : State) (k : Sink) : (s.withSink k).imem = s.imem := rfl
@[simp] theorem withSink_cell (s : State) (k : Sink) : (s.withSink k).cell = s.cell := rfl
@[simp] theorem withSink_params (s : State) (k : Sink) : (s.withSink k).params = s.params := rfl
@[simp] theorem withSink_hostIn (s : State) (k : Sink) : (s.withSink k).hostIn = s.hostIn := rfl
@[simp] theorem withSink_hostOut (s : State) (k : Sink) : (s.withSink k).hostOut = s.hostOut := rfl
@[simp] theorem withSink_freeReads (s : State) (k : Sink) : (s.withSink k).freeReads = s.freeReads := rfl

/-! ### succeed -/

@[simp] theorem succeed_arg (s : State) : (succeed s).arg = s.arg := rfl
@[simp] theorem succeed_res (s : State) : (succeed s).res = s.res := rfl
@[simp] theorem succeed_role (s : State) : (succeed s).role = s.role := rfl
@[simp] theorem succeed_closed (s : State) : (succeed s).closed = s.closed := rfl
@[simp] theorem succeed_ecact (s : State) : (succeed s).ecact = s.ecact := rfl
@[simp] theorem succeed_apmvld (s : State) : (succeed s).apmvld = s.apmvld := rfl
@[simp] theorem succeed_ecapm (s : State) : (succeed s).ecapm = s.ecapm := rfl
@[simp] theorem succeed_err (s : State) : (succeed s).err = .ok := rfl
@[simp] theorem succeed_firsterr (s : State) : (succeed s).firsterr = s.firsterr := rfl
@[simp] theorem succeed_eccodec (s : State) : (succeed s).eccodec = s.eccodec := rfl
@[simp] theorem succeed_iostat (s : State) : (succeed s).iostat = s.iostat := rfl
@[simp] theorem succeed_cmdcnt (s : State) : (succeed s).cmdcnt = s.cmdcnt + 1 := rfl
@[simp] theorem succeed_errcmd (s : State) : (succeed s).errcmd = s.errcmd := rfl
@[simp] theorem succeed_errarg (s : State) : (succeed s).errarg = s.errarg := rfl
@[simp] theorem succeed_wbits (s : State) : (succeed s).wbits = s.wbits := rfl
@[simp] theorem succeed_wbytes (s : State) : (succeed s).wbytes = s.wbytes := rfl
@[simp] theorem succeed_wacc (s : State) : (succeed s).wacc = s.wacc := rfl
@[simp] theorem succeed_snkcap (s : State) : (succeed s).snkcap = s.snkcap := rfl
@[simp] theorem succeed_rbits (s : State) : (succeed s).rbits = s.rbits := rfl
@[simp] theorem succeed_srclen (s : State) : (succeed s).srclen = s.srclen := rfl
@[simp] theorem succeed_apmn (s : State) : (succeed s).apmn = s.apmn := rfl
@[simp] theorem succeed_apmrate (s : State) : (succeed s).apmrate = s.apmrate := rfl
@[simp] theorem succeed_apmidx (s : State) : (succeed s).apmidx = s.apmidx := rfl
@[simp] theorem succeed_eclow (s : State) : (succeed s).eclow = s.eclow := rfl
@[simp] theorem succeed_echigh (s : State) : (succeed s).echigh = s.echigh := rfl
@[simp] theorem succeed_eccode (s : State) : (succeed s).eccode = s.eccode := rfl
@[simp] theorem succeed_ecpred (s : State) : (succeed s).ecpred = s.ecpred := rfl
@[simp] theorem succeed_ecpr (s : State) : (succeed s).ecpr = s.ecpr := rfl
@[simp] theorem succeed_eclast (s : State) : (succeed s).eclast = s.eclast := rfl
@[simp] theorem succeed_omem (s : State) : (succeed s).omem = s.omem := rfl
@[simp] theorem succeed_imem (s : State) : (succeed s).imem = s.imem := rfl
@[simp] theorem succeed_cell (s : State) : (succeed s).cell = s.cell := rfl
@[simp] theorem succeed_params (s : State) : (succeed s).params = s.params := rfl
@[simp] theorem succeed_hostIn (s : State) : (succeed s).hostIn = s.hostIn := rfl
@[simp] theorem succeed_hostOut (s : State) : (succeed s).hostOut = s.hostOut := rfl
@[simp] theorem succeed_freeReads (s : State) : (succeed s).freeReads = s.freeReads := rfl

/-! ### resetRegisters -/

@[simp] theorem resetRegisters_arg (s : State) : (resetRegisters s).arg = 0 := rfl
@[simp] theorem resetRegisters_res (s : State) : (resetRegisters s).res = 0 := rfl
@[simp] theorem resetRegisters_role (s : State) : (resetRegisters s).role = .none := rfl
@[simp] theorem resetRegisters_closed (s : State) : (resetRegisters s).closed = false := rfl
@[simp] theorem resetRegisters_ecact (s : State) : (resetRegisters s).ecact = false := rfl
@[simp] theorem resetRegisters_apmvld (s : State) : (resetRegisters s).apmvld = false := rfl
@[simp] theorem resetRegisters_ecapm (s : State) : (resetRegisters s).ecapm = false := rfl
@[simp] theorem resetRegisters_err (s : State) : (resetRegisters s).err = .ok := rfl
@[simp] theorem resetRegisters_firsterr (s : State) : (resetRegisters s).firsterr = .ok := rfl
@[simp] theorem resetRegisters_eccodec (s : State) : (resetRegisters s).eccodec = 0 := rfl
@[simp] theorem resetRegisters_iostat (s : State) : (resetRegisters s).iostat = 0 := rfl
@[simp] theorem resetRegisters_cmdcnt (s : State) : (resetRegisters s).cmdcnt = 0 := rfl
@[simp] theorem resetRegisters_errcmd (s : State) : (resetRegisters s).errcmd = 0 := rfl
@[simp] theorem resetRegisters_errarg (s : State) : (resetRegisters s).errarg = 0 := rfl
@[simp] theorem resetRegisters_wbits (s : State) : (resetRegisters s).wbits = 0 := rfl
@[simp] theorem resetRegisters_wbytes (s : State) : (resetRegisters s).wbytes = 0 := rfl
@[simp] theorem resetRegisters_wacc (s : State) : (resetRegisters s).wacc = 0 := rfl
@[simp] theorem resetRegisters_snkcap (s : State) : (resetRegisters s).snkcap = 0 := rfl
@[simp] theorem resetRegisters_rbits (s : State) : (resetRegisters s).rbits = 0 := rfl
@[simp] theorem resetRegisters_srclen (s : State) : (resetRegisters s).srclen = 0 := rfl
@[simp] theorem resetRegisters_apmn (s : State) : (resetRegisters s).apmn = 0 := rfl
@[simp] theorem resetRegisters_apmrate (s : State) : (resetRegisters s).apmrate = 0 := rfl
@[simp] theorem resetRegisters_apmidx (s : State) : (resetRegisters s).apmidx = 0 := rfl
@[simp] theorem resetRegisters_eclow (s : State) : (resetRegisters s).eclow = 0 := rfl
@[simp] theorem resetRegisters_echigh (s : State) : (resetRegisters s).echigh = 0 := rfl
@[simp] theorem resetRegisters_eccode (s : State) : (resetRegisters s).eccode = 0 := rfl
@[simp] theorem resetRegisters_ecpred (s : State) : (resetRegisters s).ecpred = 0 := rfl
@[simp] theorem resetRegisters_ecpr (s : State) : (resetRegisters s).ecpr = 0 := rfl
@[simp] theorem resetRegisters_eclast (s : State) : (resetRegisters s).eclast = 0 := rfl
@[simp] theorem resetRegisters_omem (s : State) : (resetRegisters s).omem = s.omem := rfl
@[simp] theorem resetRegisters_imem (s : State) : (resetRegisters s).imem = s.imem := rfl
@[simp] theorem resetRegisters_cell (s : State) : (resetRegisters s).cell = s.cell := rfl
@[simp] theorem resetRegisters_params (s : State) : (resetRegisters s).params = s.params := rfl
@[simp] theorem resetRegisters_hostIn (s : State) : (resetRegisters s).hostIn = s.hostIn := rfl
@[simp] theorem resetRegisters_hostOut (s : State) : (resetRegisters s).hostOut = s.hostOut := rfl
@[simp] theorem resetRegisters_freeReads (s : State) : (resetRegisters s).freeReads = s.freeReads := rfl

/-! ### answer -/

@[simp] theorem answer_arg (v : Word64) (s : State) : (answer v s).arg = s.arg := rfl
@[simp] theorem answer_res (v : Word64) (s : State) : (answer v s).res = s.res := rfl
@[simp] theorem answer_role (v : Word64) (s : State) : (answer v s).role = s.role := rfl
@[simp] theorem answer_closed (v : Word64) (s : State) : (answer v s).closed = s.closed := rfl
@[simp] theorem answer_ecact (v : Word64) (s : State) : (answer v s).ecact = s.ecact := rfl
@[simp] theorem answer_apmvld (v : Word64) (s : State) : (answer v s).apmvld = s.apmvld := rfl
@[simp] theorem answer_ecapm (v : Word64) (s : State) : (answer v s).ecapm = s.ecapm := rfl
@[simp] theorem answer_err (v : Word64) (s : State) : (answer v s).err = s.err := rfl
@[simp] theorem answer_firsterr (v : Word64) (s : State) : (answer v s).firsterr = s.firsterr := rfl
@[simp] theorem answer_eccodec (v : Word64) (s : State) : (answer v s).eccodec = s.eccodec := rfl
@[simp] theorem answer_iostat (v : Word64) (s : State) : (answer v s).iostat = s.iostat := rfl
@[simp] theorem answer_cmdcnt (v : Word64) (s : State) : (answer v s).cmdcnt = s.cmdcnt := rfl
@[simp] theorem answer_errcmd (v : Word64) (s : State) : (answer v s).errcmd = s.errcmd := rfl
@[simp] theorem answer_errarg (v : Word64) (s : State) : (answer v s).errarg = s.errarg := rfl
@[simp] theorem answer_wbits (v : Word64) (s : State) : (answer v s).wbits = s.wbits := rfl
@[simp] theorem answer_wbytes (v : Word64) (s : State) : (answer v s).wbytes = s.wbytes := rfl
@[simp] theorem answer_wacc (v : Word64) (s : State) : (answer v s).wacc = s.wacc := rfl
@[simp] theorem answer_snkcap (v : Word64) (s : State) : (answer v s).snkcap = s.snkcap := rfl
@[simp] theorem answer_rbits (v : Word64) (s : State) : (answer v s).rbits = s.rbits := rfl
@[simp] theorem answer_srclen (v : Word64) (s : State) : (answer v s).srclen = s.srclen := rfl
@[simp] theorem answer_apmn (v : Word64) (s : State) : (answer v s).apmn = s.apmn := rfl
@[simp] theorem answer_apmrate (v : Word64) (s : State) : (answer v s).apmrate = s.apmrate := rfl
@[simp] theorem answer_apmidx (v : Word64) (s : State) : (answer v s).apmidx = s.apmidx := rfl
@[simp] theorem answer_eclow (v : Word64) (s : State) : (answer v s).eclow = s.eclow := rfl
@[simp] theorem answer_echigh (v : Word64) (s : State) : (answer v s).echigh = s.echigh := rfl
@[simp] theorem answer_eccode (v : Word64) (s : State) : (answer v s).eccode = s.eccode := rfl
@[simp] theorem answer_ecpred (v : Word64) (s : State) : (answer v s).ecpred = s.ecpred := rfl
@[simp] theorem answer_ecpr (v : Word64) (s : State) : (answer v s).ecpr = s.ecpr := rfl
@[simp] theorem answer_eclast (v : Word64) (s : State) : (answer v s).eclast = s.eclast := rfl
@[simp] theorem answer_omem (v : Word64) (s : State) : (answer v s).omem = s.omem := rfl
@[simp] theorem answer_imem (v : Word64) (s : State) : (answer v s).imem = s.imem := rfl
@[simp] theorem answer_cell (v : Word64) (s : State) : (answer v s).cell = s.cell := rfl
@[simp] theorem answer_params (v : Word64) (s : State) : (answer v s).params = s.params := rfl
@[simp] theorem answer_hostIn (v : Word64) (s : State) : (answer v s).hostIn = s.hostIn := rfl
@[simp] theorem answer_hostOut (v : Word64) (s : State) : (answer v s).hostOut = v := rfl
@[simp] theorem answer_freeReads (v : Word64) (s : State) : (answer v s).freeReads = s.freeReads := rfl

/-! ### pushCommand -/

@[simp] theorem pushCommand_arg (w : Word32) (s : State) : (pushCommand w s).arg = s.arg := rfl
@[simp] theorem pushCommand_res (w : Word32) (s : State) : (pushCommand w s).res = s.res := rfl
@[simp] theorem pushCommand_role (w : Word32) (s : State) : (pushCommand w s).role = s.role := rfl
@[simp] theorem pushCommand_closed (w : Word32) (s : State) : (pushCommand w s).closed = s.closed := rfl
@[simp] theorem pushCommand_ecact (w : Word32) (s : State) : (pushCommand w s).ecact = s.ecact := rfl
@[simp] theorem pushCommand_apmvld (w : Word32) (s : State) : (pushCommand w s).apmvld = s.apmvld := rfl
@[simp] theorem pushCommand_ecapm (w : Word32) (s : State) : (pushCommand w s).ecapm = s.ecapm := rfl
@[simp] theorem pushCommand_err (w : Word32) (s : State) : (pushCommand w s).err = s.err := rfl
@[simp] theorem pushCommand_firsterr (w : Word32) (s : State) : (pushCommand w s).firsterr = s.firsterr := rfl
@[simp] theorem pushCommand_eccodec (w : Word32) (s : State) : (pushCommand w s).eccodec = s.eccodec := rfl
@[simp] theorem pushCommand_iostat (w : Word32) (s : State) : (pushCommand w s).iostat = s.iostat := rfl
@[simp] theorem pushCommand_cmdcnt (w : Word32) (s : State) : (pushCommand w s).cmdcnt = s.cmdcnt := rfl
@[simp] theorem pushCommand_errcmd (w : Word32) (s : State) : (pushCommand w s).errcmd = s.errcmd := rfl
@[simp] theorem pushCommand_errarg (w : Word32) (s : State) : (pushCommand w s).errarg = s.errarg := rfl
@[simp] theorem pushCommand_wbits (w : Word32) (s : State) : (pushCommand w s).wbits = s.wbits := rfl
@[simp] theorem pushCommand_wbytes (w : Word32) (s : State) : (pushCommand w s).wbytes = s.wbytes := rfl
@[simp] theorem pushCommand_wacc (w : Word32) (s : State) : (pushCommand w s).wacc = s.wacc := rfl
@[simp] theorem pushCommand_snkcap (w : Word32) (s : State) : (pushCommand w s).snkcap = s.snkcap := rfl
@[simp] theorem pushCommand_rbits (w : Word32) (s : State) : (pushCommand w s).rbits = s.rbits := rfl
@[simp] theorem pushCommand_srclen (w : Word32) (s : State) : (pushCommand w s).srclen = s.srclen := rfl
@[simp] theorem pushCommand_apmn (w : Word32) (s : State) : (pushCommand w s).apmn = s.apmn := rfl
@[simp] theorem pushCommand_apmrate (w : Word32) (s : State) : (pushCommand w s).apmrate = s.apmrate := rfl
@[simp] theorem pushCommand_apmidx (w : Word32) (s : State) : (pushCommand w s).apmidx = s.apmidx := rfl
@[simp] theorem pushCommand_eclow (w : Word32) (s : State) : (pushCommand w s).eclow = s.eclow := rfl
@[simp] theorem pushCommand_echigh (w : Word32) (s : State) : (pushCommand w s).echigh = s.echigh := rfl
@[simp] theorem pushCommand_eccode (w : Word32) (s : State) : (pushCommand w s).eccode = s.eccode := rfl
@[simp] theorem pushCommand_ecpred (w : Word32) (s : State) : (pushCommand w s).ecpred = s.ecpred := rfl
@[simp] theorem pushCommand_ecpr (w : Word32) (s : State) : (pushCommand w s).ecpr = s.ecpr := rfl
@[simp] theorem pushCommand_eclast (w : Word32) (s : State) : (pushCommand w s).eclast = s.eclast := rfl
@[simp] theorem pushCommand_omem (w : Word32) (s : State) : (pushCommand w s).omem = s.omem := rfl
@[simp] theorem pushCommand_imem (w : Word32) (s : State) : (pushCommand w s).imem = s.imem := rfl
@[simp] theorem pushCommand_cell (w : Word32) (s : State) : (pushCommand w s).cell = s.cell := rfl
@[simp] theorem pushCommand_params (w : Word32) (s : State) : (pushCommand w s).params = s.params := rfl
@[simp] theorem pushCommand_hostIn (w : Word32) (s : State) : (pushCommand w s).hostIn = .move (.writeCmd w) :: s.hostIn := rfl
@[simp] theorem pushCommand_hostOut (w : Word32) (s : State) : (pushCommand w s).hostOut = s.hostOut := rfl
@[simp] theorem pushCommand_freeReads (w : Word32) (s : State) : (pushCommand w s).freeReads = s.freeReads := rfl

/-! ### shiftInterval -/

@[simp] theorem shiftInterval_arg (s : State) : (shiftInterval s).arg = s.arg := rfl
@[simp] theorem shiftInterval_res (s : State) : (shiftInterval s).res = s.res := rfl
@[simp] theorem shiftInterval_role (s : State) : (shiftInterval s).role = s.role := rfl
@[simp] theorem shiftInterval_closed (s : State) : (shiftInterval s).closed = s.closed := rfl
@[simp] theorem shiftInterval_ecact (s : State) : (shiftInterval s).ecact = s.ecact := rfl
@[simp] theorem shiftInterval_apmvld (s : State) : (shiftInterval s).apmvld = s.apmvld := rfl
@[simp] theorem shiftInterval_ecapm (s : State) : (shiftInterval s).ecapm = s.ecapm := rfl
@[simp] theorem shiftInterval_err (s : State) : (shiftInterval s).err = s.err := rfl
@[simp] theorem shiftInterval_firsterr (s : State) : (shiftInterval s).firsterr = s.firsterr := rfl
@[simp] theorem shiftInterval_eccodec (s : State) : (shiftInterval s).eccodec = s.eccodec := rfl
@[simp] theorem shiftInterval_iostat (s : State) : (shiftInterval s).iostat = s.iostat := rfl
@[simp] theorem shiftInterval_cmdcnt (s : State) : (shiftInterval s).cmdcnt = s.cmdcnt := rfl
@[simp] theorem shiftInterval_errcmd (s : State) : (shiftInterval s).errcmd = s.errcmd := rfl
@[simp] theorem shiftInterval_errarg (s : State) : (shiftInterval s).errarg = s.errarg := rfl
@[simp] theorem shiftInterval_wbits (s : State) : (shiftInterval s).wbits = s.wbits := rfl
@[simp] theorem shiftInterval_wbytes (s : State) : (shiftInterval s).wbytes = s.wbytes := rfl
@[simp] theorem shiftInterval_wacc (s : State) : (shiftInterval s).wacc = s.wacc := rfl
@[simp] theorem shiftInterval_snkcap (s : State) : (shiftInterval s).snkcap = s.snkcap := rfl
@[simp] theorem shiftInterval_rbits (s : State) : (shiftInterval s).rbits = s.rbits := rfl
@[simp] theorem shiftInterval_srclen (s : State) : (shiftInterval s).srclen = s.srclen := rfl
@[simp] theorem shiftInterval_apmn (s : State) : (shiftInterval s).apmn = s.apmn := rfl
@[simp] theorem shiftInterval_apmrate (s : State) : (shiftInterval s).apmrate = s.apmrate := rfl
@[simp] theorem shiftInterval_apmidx (s : State) : (shiftInterval s).apmidx = s.apmidx := rfl
@[simp] theorem shiftInterval_eclow (s : State) : (shiftInterval s).eclow = s.eclow <<< 8 := rfl
@[simp] theorem shiftInterval_echigh (s : State) : (shiftInterval s).echigh = (s.echigh <<< 8) ||| 0xFF := rfl
@[simp] theorem shiftInterval_eccode (s : State) : (shiftInterval s).eccode = s.eccode := rfl
@[simp] theorem shiftInterval_ecpred (s : State) : (shiftInterval s).ecpred = s.ecpred := rfl
@[simp] theorem shiftInterval_ecpr (s : State) : (shiftInterval s).ecpr = s.ecpr := rfl
@[simp] theorem shiftInterval_eclast (s : State) : (shiftInterval s).eclast = s.eclast := rfl
@[simp] theorem shiftInterval_omem (s : State) : (shiftInterval s).omem = s.omem := rfl
@[simp] theorem shiftInterval_imem (s : State) : (shiftInterval s).imem = s.imem := rfl
@[simp] theorem shiftInterval_cell (s : State) : (shiftInterval s).cell = s.cell := rfl
@[simp] theorem shiftInterval_params (s : State) : (shiftInterval s).params = s.params := rfl
@[simp] theorem shiftInterval_hostIn (s : State) : (shiftInterval s).hostIn = s.hostIn := rfl
@[simp] theorem shiftInterval_hostOut (s : State) : (shiftInterval s).hostOut = s.hostOut := rfl
@[simp] theorem shiftInterval_freeReads (s : State) : (shiftInterval s).freeReads = s.freeReads := rfl

/-! ### predUpdate -/

@[simp] theorem predUpdate_arg (b : Bool) (s : State) : (predUpdate b s).arg = s.arg := rfl
@[simp] theorem predUpdate_res (b : Bool) (s : State) : (predUpdate b s).res = s.res := rfl
@[simp] theorem predUpdate_role (b : Bool) (s : State) : (predUpdate b s).role = s.role := rfl
@[simp] theorem predUpdate_closed (b : Bool) (s : State) : (predUpdate b s).closed = s.closed := rfl
@[simp] theorem predUpdate_ecact (b : Bool) (s : State) : (predUpdate b s).ecact = s.ecact := rfl
@[simp] theorem predUpdate_apmvld (b : Bool) (s : State) : (predUpdate b s).apmvld = s.apmvld := rfl
@[simp] theorem predUpdate_ecapm (b : Bool) (s : State) : (predUpdate b s).ecapm = s.ecapm := rfl
@[simp] theorem predUpdate_err (b : Bool) (s : State) : (predUpdate b s).err = s.err := rfl
@[simp] theorem predUpdate_firsterr (b : Bool) (s : State) : (predUpdate b s).firsterr = s.firsterr := rfl
@[simp] theorem predUpdate_eccodec (b : Bool) (s : State) : (predUpdate b s).eccodec = s.eccodec := rfl
@[simp] theorem predUpdate_iostat (b : Bool) (s : State) : (predUpdate b s).iostat = s.iostat := rfl
@[simp] theorem predUpdate_cmdcnt (b : Bool) (s : State) : (predUpdate b s).cmdcnt = s.cmdcnt := rfl
@[simp] theorem predUpdate_errcmd (b : Bool) (s : State) : (predUpdate b s).errcmd = s.errcmd := rfl
@[simp] theorem predUpdate_errarg (b : Bool) (s : State) : (predUpdate b s).errarg = s.errarg := rfl
@[simp] theorem predUpdate_wbits (b : Bool) (s : State) : (predUpdate b s).wbits = s.wbits := rfl
@[simp] theorem predUpdate_wbytes (b : Bool) (s : State) : (predUpdate b s).wbytes = s.wbytes := rfl
@[simp] theorem predUpdate_wacc (b : Bool) (s : State) : (predUpdate b s).wacc = s.wacc := rfl
@[simp] theorem predUpdate_snkcap (b : Bool) (s : State) : (predUpdate b s).snkcap = s.snkcap := rfl
@[simp] theorem predUpdate_rbits (b : Bool) (s : State) : (predUpdate b s).rbits = s.rbits := rfl
@[simp] theorem predUpdate_srclen (b : Bool) (s : State) : (predUpdate b s).srclen = s.srclen := rfl
@[simp] theorem predUpdate_apmn (b : Bool) (s : State) : (predUpdate b s).apmn = s.apmn := rfl
@[simp] theorem predUpdate_apmrate (b : Bool) (s : State) : (predUpdate b s).apmrate = s.apmrate := rfl
@[simp] theorem predUpdate_apmidx (b : Bool) (s : State) : (predUpdate b s).apmidx = s.apmidx := rfl
@[simp] theorem predUpdate_eclow (b : Bool) (s : State) : (predUpdate b s).eclow = s.eclow := rfl
@[simp] theorem predUpdate_echigh (b : Bool) (s : State) : (predUpdate b s).echigh = s.echigh := rfl
@[simp] theorem predUpdate_eccode (b : Bool) (s : State) : (predUpdate b s).eccode = s.eccode := rfl
@[simp] theorem predUpdate_ecpred (b : Bool) (s : State) : (predUpdate b s).ecpred = if b then BitVec.ofNat 16 (s.ecpred.toNat + (65536 - s.ecpred.toNat) / 2 ^ 6)
      else BitVec.ofNat 16 (s.ecpred.toNat - s.ecpred.toNat / 2 ^ 6) := rfl
@[simp] theorem predUpdate_ecpr (b : Bool) (s : State) : (predUpdate b s).ecpr = s.ecpr := rfl
@[simp] theorem predUpdate_eclast (b : Bool) (s : State) : (predUpdate b s).eclast = if b then 1 else 0 := rfl
@[simp] theorem predUpdate_omem (b : Bool) (s : State) : (predUpdate b s).omem = s.omem := rfl
@[simp] theorem predUpdate_imem (b : Bool) (s : State) : (predUpdate b s).imem = s.imem := rfl
@[simp] theorem predUpdate_cell (b : Bool) (s : State) : (predUpdate b s).cell = s.cell := rfl
@[simp] theorem predUpdate_params (b : Bool) (s : State) : (predUpdate b s).params = s.params := rfl
@[simp] theorem predUpdate_hostIn (b : Bool) (s : State) : (predUpdate b s).hostIn = s.hostIn := rfl
@[simp] theorem predUpdate_hostOut (b : Bool) (s : State) : (predUpdate b s).hostOut = s.hostOut := rfl
@[simp] theorem predUpdate_freeReads (b : Bool) (s : State) : (predUpdate b s).freeReads = s.freeReads := rfl

/-! ### takeError: the fields it never writes, then the report -/

@[simp] theorem takeError_arg (w : Word32) (r : Raised) (s : State) : (takeError w r s).arg = s.arg := by
  unfold takeError; cases s.firsterr <;> rfl
@[simp] theorem takeError_res (w : Word32) (r : Raised) (s : State) : (takeError w r s).res = s.res := by
  unfold takeError; cases s.firsterr <;> rfl
@[simp] theorem takeError_role (w : Word32) (r : Raised) (s : State) : (takeError w r s).role = s.role := by
  unfold takeError; cases s.firsterr <;> rfl
@[simp] theorem takeError_closed (w : Word32) (r : Raised) (s : State) : (takeError w r s).closed = s.closed := by
  unfold takeError; cases s.firsterr <;> rfl
@[simp] theorem takeError_ecact (w : Word32) (r : Raised) (s : State) : (takeError w r s).ecact = s.ecact := by
  unfold takeError; cases s.firsterr <;> rfl
@[simp] theorem takeError_apmvld (w : Word32) (r : Raised) (s : State) : (takeError w r s).apmvld = s.apmvld := by
  unfold takeError; cases s.firsterr <;> rfl
@[simp] theorem takeError_ecapm (w : Word32) (r : Raised) (s : State) : (takeError w r s).ecapm = s.ecapm := by
  unfold takeError; cases s.firsterr <;> rfl
@[simp] theorem takeError_eccodec (w : Word32) (r : Raised) (s : State) : (takeError w r s).eccodec = s.eccodec := by
  unfold takeError; cases s.firsterr <;> rfl
@[simp] theorem takeError_wbits (w : Word32) (r : Raised) (s : State) : (takeError w r s).wbits = s.wbits := by
  unfold takeError; cases s.firsterr <;> rfl
@[simp] theorem takeError_wbytes (w : Word32) (r : Raised) (s : State) : (takeError w r s).wbytes = s.wbytes := by
  unfold takeError; cases s.firsterr <;> rfl
@[simp] theorem takeError_wacc (w : Word32) (r : Raised) (s : State) : (takeError w r s).wacc = s.wacc := by
  unfold takeError; cases s.firsterr <;> rfl
@[simp] theorem takeError_snkcap (w : Word32) (r : Raised) (s : State) : (takeError w r s).snkcap = s.snkcap := by
  unfold takeError; cases s.firsterr <;> rfl
@[simp] theorem takeError_rbits (w : Word32) (r : Raised) (s : State) : (takeError w r s).rbits = s.rbits := by
  unfold takeError; cases s.firsterr <;> rfl
@[simp] theorem takeError_srclen (w : Word32) (r : Raised) (s : State) : (takeError w r s).srclen = s.srclen := by
  unfold takeError; cases s.firsterr <;> rfl
@[simp] theorem takeError_apmn (w : Word32) (r : Raised) (s : State) : (takeError w r s).apmn = s.apmn := by
  unfold takeError; cases s.firsterr <;> rfl
@[simp] theorem takeError_apmrate (w : Word32) (r : Raised) (s : State) : (takeError w r s).apmrate = s.apmrate := by
  unfold takeError; cases s.firsterr <;> rfl
@[simp] theorem takeError_apmidx (w : Word32) (r : Raised) (s : State) : (takeError w r s).apmidx = s.apmidx := by
  unfold takeError; cases s.firsterr <;> rfl
@[simp] theorem takeError_eclow (w : Word32) (r : Raised) (s : State) : (takeError w r s).eclow = s.eclow := by
  unfold takeError; cases s.firsterr <;> rfl
@[simp] theorem takeError_echigh (w : Word32) (r : Raised) (s : State) : (takeError w r s).echigh = s.echigh := by
  unfold takeError; cases s.firsterr <;> rfl
@[simp] theorem takeError_eccode (w : Word32) (r : Raised) (s : State) : (takeError w r s).eccode = s.eccode := by
  unfold takeError; cases s.firsterr <;> rfl
@[simp] theorem takeError_ecpred (w : Word32) (r : Raised) (s : State) : (takeError w r s).ecpred = s.ecpred := by
  unfold takeError; cases s.firsterr <;> rfl
@[simp] theorem takeError_ecpr (w : Word32) (r : Raised) (s : State) : (takeError w r s).ecpr = s.ecpr := by
  unfold takeError; cases s.firsterr <;> rfl
@[simp] theorem takeError_eclast (w : Word32) (r : Raised) (s : State) : (takeError w r s).eclast = s.eclast := by
  unfold takeError; cases s.firsterr <;> rfl
@[simp] theorem takeError_omem (w : Word32) (r : Raised) (s : State) : (takeError w r s).omem = s.omem := by
  unfold takeError; cases s.firsterr <;> rfl
@[simp] theorem takeError_imem (w : Word32) (r : Raised) (s : State) : (takeError w r s).imem = s.imem := by
  unfold takeError; cases s.firsterr <;> rfl
@[simp] theorem takeError_cell (w : Word32) (r : Raised) (s : State) : (takeError w r s).cell = s.cell := by
  unfold takeError; cases s.firsterr <;> rfl
@[simp] theorem takeError_params (w : Word32) (r : Raised) (s : State) : (takeError w r s).params = s.params := by
  unfold takeError; cases s.firsterr <;> rfl
@[simp] theorem takeError_hostIn (w : Word32) (r : Raised) (s : State) : (takeError w r s).hostIn = s.hostIn := by
  unfold takeError; cases s.firsterr <;> rfl
@[simp] theorem takeError_hostOut (w : Word32) (r : Raised) (s : State) : (takeError w r s).hostOut = s.hostOut := by
  unfold takeError; cases s.firsterr <;> rfl
@[simp] theorem takeError_freeReads (w : Word32) (r : Raised) (s : State) : (takeError w r s).freeReads = s.freeReads := by
  unfold takeError; cases s.firsterr <;> rfl
@[simp] theorem takeError_err (w : Word32) (r : Raised) (s : State) : (takeError w r s).err = .err r.kind := by
  unfold takeError; cases s.firsterr <;> rfl
@[simp] theorem takeError_cmdcnt (w : Word32) (r : Raised) (s : State) :
    (takeError w r s).cmdcnt = s.cmdcnt + 1 := by
  unfold takeError; cases s.firsterr <;> rfl
theorem takeError_first {w : Word32} {r : Raised} {s : State} (h : s.firsterr = .ok) :
    takeError w r s = { s with
      err := .err r.kind, firsterr := .err r.kind, iostat := r.iostat, errcmd := w, errarg := s.arg,
      cmdcnt := s.cmdcnt + 1 } := by
  unfold takeError; rw [h]
theorem takeError_later {w : Word32} {r : Raised} {s : State} (h : s.firsterr ≠ .ok) :
    takeError w r s = { s with err := .err r.kind, cmdcnt := s.cmdcnt + 1 } := by
  unfold takeError
  cases hf : s.firsterr with
  | ok => exact absurd hf h
  | err k => rfl

/-! ### narrow: the fields it never writes -/

@[simp] theorem narrow_arg (b : Bool) (x : Int) (s : State) : (narrow b x s).arg = s.arg := by
  unfold narrow; cases b <;> rfl
@[simp] theorem narrow_res (b : Bool) (x : Int) (s : State) : (narrow b x s).res = s.res := by
  unfold narrow; cases b <;> rfl
@[simp] theorem narrow_role (b : Bool) (x : Int) (s : State) : (narrow b x s).role = s.role := by
  unfold narrow; cases b <;> rfl
@[simp] theorem narrow_closed (b : Bool) (x : Int) (s : State) : (narrow b x s).closed = s.closed := by
  unfold narrow; cases b <;> rfl
@[simp] theorem narrow_ecact (b : Bool) (x : Int) (s : State) : (narrow b x s).ecact = s.ecact := by
  unfold narrow; cases b <;> rfl
@[simp] theorem narrow_apmvld (b : Bool) (x : Int) (s : State) : (narrow b x s).apmvld = s.apmvld := by
  unfold narrow; cases b <;> rfl
@[simp] theorem narrow_ecapm (b : Bool) (x : Int) (s : State) : (narrow b x s).ecapm = s.ecapm := by
  unfold narrow; cases b <;> rfl
@[simp] theorem narrow_err (b : Bool) (x : Int) (s : State) : (narrow b x s).err = s.err := by
  unfold narrow; cases b <;> rfl
@[simp] theorem narrow_firsterr (b : Bool) (x : Int) (s : State) : (narrow b x s).firsterr = s.firsterr := by
  unfold narrow; cases b <;> rfl
@[simp] theorem narrow_eccodec (b : Bool) (x : Int) (s : State) : (narrow b x s).eccodec = s.eccodec := by
  unfold narrow; cases b <;> rfl
@[simp] theorem narrow_iostat (b : Bool) (x : Int) (s : State) : (narrow b x s).iostat = s.iostat := by
  unfold narrow; cases b <;> rfl
@[simp] theorem narrow_cmdcnt (b : Bool) (x : Int) (s : State) : (narrow b x s).cmdcnt = s.cmdcnt := by
  unfold narrow; cases b <;> rfl
@[simp] theorem narrow_errcmd (b : Bool) (x : Int) (s : State) : (narrow b x s).errcmd = s.errcmd := by
  unfold narrow; cases b <;> rfl
@[simp] theorem narrow_errarg (b : Bool) (x : Int) (s : State) : (narrow b x s).errarg = s.errarg := by
  unfold narrow; cases b <;> rfl
@[simp] theorem narrow_wbits (b : Bool) (x : Int) (s : State) : (narrow b x s).wbits = s.wbits := by
  unfold narrow; cases b <;> rfl
@[simp] theorem narrow_wbytes (b : Bool) (x : Int) (s : State) : (narrow b x s).wbytes = s.wbytes := by
  unfold narrow; cases b <;> rfl
@[simp] theorem narrow_wacc (b : Bool) (x : Int) (s : State) : (narrow b x s).wacc = s.wacc := by
  unfold narrow; cases b <;> rfl
@[simp] theorem narrow_snkcap (b : Bool) (x : Int) (s : State) : (narrow b x s).snkcap = s.snkcap := by
  unfold narrow; cases b <;> rfl
@[simp] theorem narrow_rbits (b : Bool) (x : Int) (s : State) : (narrow b x s).rbits = s.rbits := by
  unfold narrow; cases b <;> rfl
@[simp] theorem narrow_srclen (b : Bool) (x : Int) (s : State) : (narrow b x s).srclen = s.srclen := by
  unfold narrow; cases b <;> rfl
@[simp] theorem narrow_apmn (b : Bool) (x : Int) (s : State) : (narrow b x s).apmn = s.apmn := by
  unfold narrow; cases b <;> rfl
@[simp] theorem narrow_apmrate (b : Bool) (x : Int) (s : State) : (narrow b x s).apmrate = s.apmrate := by
  unfold narrow; cases b <;> rfl
@[simp] theorem narrow_apmidx (b : Bool) (x : Int) (s : State) : (narrow b x s).apmidx = s.apmidx := by
  unfold narrow; cases b <;> rfl
@[simp] theorem narrow_eccode (b : Bool) (x : Int) (s : State) : (narrow b x s).eccode = s.eccode := by
  unfold narrow; cases b <;> rfl
@[simp] theorem narrow_ecpred (b : Bool) (x : Int) (s : State) : (narrow b x s).ecpred = s.ecpred := by
  unfold narrow; cases b <;> rfl
@[simp] theorem narrow_ecpr (b : Bool) (x : Int) (s : State) : (narrow b x s).ecpr = s.ecpr := by
  unfold narrow; cases b <;> rfl
@[simp] theorem narrow_eclast (b : Bool) (x : Int) (s : State) : (narrow b x s).eclast = s.eclast := by
  unfold narrow; cases b <;> rfl
@[simp] theorem narrow_omem (b : Bool) (x : Int) (s : State) : (narrow b x s).omem = s.omem := by
  unfold narrow; cases b <;> rfl
@[simp] theorem narrow_imem (b : Bool) (x : Int) (s : State) : (narrow b x s).imem = s.imem := by
  unfold narrow; cases b <;> rfl
@[simp] theorem narrow_cell (b : Bool) (x : Int) (s : State) : (narrow b x s).cell = s.cell := by
  unfold narrow; cases b <;> rfl
@[simp] theorem narrow_params (b : Bool) (x : Int) (s : State) : (narrow b x s).params = s.params := by
  unfold narrow; cases b <;> rfl
@[simp] theorem narrow_hostIn (b : Bool) (x : Int) (s : State) : (narrow b x s).hostIn = s.hostIn := by
  unfold narrow; cases b <;> rfl
@[simp] theorem narrow_hostOut (b : Bool) (x : Int) (s : State) : (narrow b x s).hostOut = s.hostOut := by
  unfold narrow; cases b <;> rfl
@[simp] theorem narrow_freeReads (b : Bool) (x : Int) (s : State) : (narrow b x s).freeReads = s.freeReads := by
  unfold narrow; cases b <;> rfl
theorem narrow_eclow (b : Bool) (x : Int) (s : State) :
    (narrow b x s).eclow = if b then s.eclow else BitVec.ofInt 32 (x + 1) := by
  unfold narrow; cases b <;> rfl
theorem narrow_echigh (b : Bool) (x : Int) (s : State) :
    (narrow b x s).echigh = if b then BitVec.ofInt 32 x else s.echigh := by
  unfold narrow; cases b <;> rfl

/-! ### the APM's step: the fields it never writes -/

@[simp] theorem apmStep_arg (b : BitVec 1) (p : Probability) (c : Nat) (s : State) : (apmStep b p c s).2.arg = s.arg := rfl
@[simp] theorem apmStep_res (b : BitVec 1) (p : Probability) (c : Nat) (s : State) : (apmStep b p c s).2.res = s.res := rfl
@[simp] theorem apmStep_role (b : BitVec 1) (p : Probability) (c : Nat) (s : State) : (apmStep b p c s).2.role = s.role := rfl
@[simp] theorem apmStep_closed (b : BitVec 1) (p : Probability) (c : Nat) (s : State) : (apmStep b p c s).2.closed = s.closed := rfl
@[simp] theorem apmStep_ecact (b : BitVec 1) (p : Probability) (c : Nat) (s : State) : (apmStep b p c s).2.ecact = s.ecact := rfl
@[simp] theorem apmStep_apmvld (b : BitVec 1) (p : Probability) (c : Nat) (s : State) : (apmStep b p c s).2.apmvld = s.apmvld := rfl
@[simp] theorem apmStep_ecapm (b : BitVec 1) (p : Probability) (c : Nat) (s : State) : (apmStep b p c s).2.ecapm = s.ecapm := rfl
@[simp] theorem apmStep_err (b : BitVec 1) (p : Probability) (c : Nat) (s : State) : (apmStep b p c s).2.err = s.err := rfl
@[simp] theorem apmStep_firsterr (b : BitVec 1) (p : Probability) (c : Nat) (s : State) : (apmStep b p c s).2.firsterr = s.firsterr := rfl
@[simp] theorem apmStep_eccodec (b : BitVec 1) (p : Probability) (c : Nat) (s : State) : (apmStep b p c s).2.eccodec = s.eccodec := rfl
@[simp] theorem apmStep_iostat (b : BitVec 1) (p : Probability) (c : Nat) (s : State) : (apmStep b p c s).2.iostat = s.iostat := rfl
@[simp] theorem apmStep_cmdcnt (b : BitVec 1) (p : Probability) (c : Nat) (s : State) : (apmStep b p c s).2.cmdcnt = s.cmdcnt := rfl
@[simp] theorem apmStep_errcmd (b : BitVec 1) (p : Probability) (c : Nat) (s : State) : (apmStep b p c s).2.errcmd = s.errcmd := rfl
@[simp] theorem apmStep_errarg (b : BitVec 1) (p : Probability) (c : Nat) (s : State) : (apmStep b p c s).2.errarg = s.errarg := rfl
@[simp] theorem apmStep_wbits (b : BitVec 1) (p : Probability) (c : Nat) (s : State) : (apmStep b p c s).2.wbits = s.wbits := rfl
@[simp] theorem apmStep_wbytes (b : BitVec 1) (p : Probability) (c : Nat) (s : State) : (apmStep b p c s).2.wbytes = s.wbytes := rfl
@[simp] theorem apmStep_wacc (b : BitVec 1) (p : Probability) (c : Nat) (s : State) : (apmStep b p c s).2.wacc = s.wacc := rfl
@[simp] theorem apmStep_snkcap (b : BitVec 1) (p : Probability) (c : Nat) (s : State) : (apmStep b p c s).2.snkcap = s.snkcap := rfl
@[simp] theorem apmStep_rbits (b : BitVec 1) (p : Probability) (c : Nat) (s : State) : (apmStep b p c s).2.rbits = s.rbits := rfl
@[simp] theorem apmStep_srclen (b : BitVec 1) (p : Probability) (c : Nat) (s : State) : (apmStep b p c s).2.srclen = s.srclen := rfl
@[simp] theorem apmStep_apmn (b : BitVec 1) (p : Probability) (c : Nat) (s : State) : (apmStep b p c s).2.apmn = s.apmn := rfl
@[simp] theorem apmStep_apmrate (b : BitVec 1) (p : Probability) (c : Nat) (s : State) : (apmStep b p c s).2.apmrate = s.apmrate := rfl
@[simp] theorem apmStep_eclow (b : BitVec 1) (p : Probability) (c : Nat) (s : State) : (apmStep b p c s).2.eclow = s.eclow := rfl
@[simp] theorem apmStep_echigh (b : BitVec 1) (p : Probability) (c : Nat) (s : State) : (apmStep b p c s).2.echigh = s.echigh := rfl
@[simp] theorem apmStep_eccode (b : BitVec 1) (p : Probability) (c : Nat) (s : State) : (apmStep b p c s).2.eccode = s.eccode := rfl
@[simp] theorem apmStep_ecpred (b : BitVec 1) (p : Probability) (c : Nat) (s : State) : (apmStep b p c s).2.ecpred = s.ecpred := rfl
@[simp] theorem apmStep_ecpr (b : BitVec 1) (p : Probability) (c : Nat) (s : State) : (apmStep b p c s).2.ecpr = s.ecpr := rfl
@[simp] theorem apmStep_eclast (b : BitVec 1) (p : Probability) (c : Nat) (s : State) : (apmStep b p c s).2.eclast = s.eclast := rfl
@[simp] theorem apmStep_omem (b : BitVec 1) (p : Probability) (c : Nat) (s : State) : (apmStep b p c s).2.omem = s.omem := rfl
@[simp] theorem apmStep_imem (b : BitVec 1) (p : Probability) (c : Nat) (s : State) : (apmStep b p c s).2.imem = s.imem := rfl
@[simp] theorem apmStep_params (b : BitVec 1) (p : Probability) (c : Nat) (s : State) : (apmStep b p c s).2.params = s.params := rfl
@[simp] theorem apmStep_hostIn (b : BitVec 1) (p : Probability) (c : Nat) (s : State) : (apmStep b p c s).2.hostIn = s.hostIn := rfl
@[simp] theorem apmStep_hostOut (b : BitVec 1) (p : Probability) (c : Nat) (s : State) : (apmStep b p c s).2.hostOut = s.hostOut := rfl
@[simp] theorem apmStep_freeReads (b : BitVec 1) (p : Probability) (c : Nat) (s : State) : (apmStep b p c s).2.freeReads = s.freeReads := rfl

/-! ### predict: the fields it never writes -/

@[simp] theorem predict_arg (c : Nat) (s : State) : (predict c s).2.arg = s.arg := by
  unfold predict; dsimp only; split <;> rfl
@[simp] theorem predict_res (c : Nat) (s : State) : (predict c s).2.res = s.res := by
  unfold predict; dsimp only; split <;> rfl
@[simp] theorem predict_role (c : Nat) (s : State) : (predict c s).2.role = s.role := by
  unfold predict; dsimp only; split <;> rfl
@[simp] theorem predict_closed (c : Nat) (s : State) : (predict c s).2.closed = s.closed := by
  unfold predict; dsimp only; split <;> rfl
@[simp] theorem predict_ecact (c : Nat) (s : State) : (predict c s).2.ecact = s.ecact := by
  unfold predict; dsimp only; split <;> rfl
@[simp] theorem predict_apmvld (c : Nat) (s : State) : (predict c s).2.apmvld = s.apmvld := by
  unfold predict; dsimp only; split <;> rfl
@[simp] theorem predict_ecapm (c : Nat) (s : State) : (predict c s).2.ecapm = s.ecapm := by
  unfold predict; dsimp only; split <;> rfl
@[simp] theorem predict_err (c : Nat) (s : State) : (predict c s).2.err = s.err := by
  unfold predict; dsimp only; split <;> rfl
@[simp] theorem predict_firsterr (c : Nat) (s : State) : (predict c s).2.firsterr = s.firsterr := by
  unfold predict; dsimp only; split <;> rfl
@[simp] theorem predict_eccodec (c : Nat) (s : State) : (predict c s).2.eccodec = s.eccodec := by
  unfold predict; dsimp only; split <;> rfl
@[simp] theorem predict_iostat (c : Nat) (s : State) : (predict c s).2.iostat = s.iostat := by
  unfold predict; dsimp only; split <;> rfl
@[simp] theorem predict_cmdcnt (c : Nat) (s : State) : (predict c s).2.cmdcnt = s.cmdcnt := by
  unfold predict; dsimp only; split <;> rfl
@[simp] theorem predict_errcmd (c : Nat) (s : State) : (predict c s).2.errcmd = s.errcmd := by
  unfold predict; dsimp only; split <;> rfl
@[simp] theorem predict_errarg (c : Nat) (s : State) : (predict c s).2.errarg = s.errarg := by
  unfold predict; dsimp only; split <;> rfl
@[simp] theorem predict_wbits (c : Nat) (s : State) : (predict c s).2.wbits = s.wbits := by
  unfold predict; dsimp only; split <;> rfl
@[simp] theorem predict_wbytes (c : Nat) (s : State) : (predict c s).2.wbytes = s.wbytes := by
  unfold predict; dsimp only; split <;> rfl
@[simp] theorem predict_wacc (c : Nat) (s : State) : (predict c s).2.wacc = s.wacc := by
  unfold predict; dsimp only; split <;> rfl
@[simp] theorem predict_snkcap (c : Nat) (s : State) : (predict c s).2.snkcap = s.snkcap := by
  unfold predict; dsimp only; split <;> rfl
@[simp] theorem predict_rbits (c : Nat) (s : State) : (predict c s).2.rbits = s.rbits := by
  unfold predict; dsimp only; split <;> rfl
@[simp] theorem predict_srclen (c : Nat) (s : State) : (predict c s).2.srclen = s.srclen := by
  unfold predict; dsimp only; split <;> rfl
@[simp] theorem predict_apmn (c : Nat) (s : State) : (predict c s).2.apmn = s.apmn := by
  unfold predict; dsimp only; split <;> rfl
@[simp] theorem predict_apmrate (c : Nat) (s : State) : (predict c s).2.apmrate = s.apmrate := by
  unfold predict; dsimp only; split <;> rfl
@[simp] theorem predict_eclow (c : Nat) (s : State) : (predict c s).2.eclow = s.eclow := by
  unfold predict; dsimp only; split <;> rfl
@[simp] theorem predict_echigh (c : Nat) (s : State) : (predict c s).2.echigh = s.echigh := by
  unfold predict; dsimp only; split <;> rfl
@[simp] theorem predict_eccode (c : Nat) (s : State) : (predict c s).2.eccode = s.eccode := by
  unfold predict; dsimp only; split <;> rfl
@[simp] theorem predict_ecpred (c : Nat) (s : State) : (predict c s).2.ecpred = s.ecpred := by
  unfold predict; dsimp only; split <;> rfl
@[simp] theorem predict_ecpr (c : Nat) (s : State) : (predict c s).2.ecpr = s.ecpr := by
  unfold predict; dsimp only; split <;> rfl
@[simp] theorem predict_eclast (c : Nat) (s : State) : (predict c s).2.eclast = s.eclast := by
  unfold predict; dsimp only; split <;> rfl
@[simp] theorem predict_omem (c : Nat) (s : State) : (predict c s).2.omem = s.omem := by
  unfold predict; dsimp only; split <;> rfl
@[simp] theorem predict_imem (c : Nat) (s : State) : (predict c s).2.imem = s.imem := by
  unfold predict; dsimp only; split <;> rfl
@[simp] theorem predict_params (c : Nat) (s : State) : (predict c s).2.params = s.params := by
  unfold predict; dsimp only; split <;> rfl
@[simp] theorem predict_hostIn (c : Nat) (s : State) : (predict c s).2.hostIn = s.hostIn := by
  unfold predict; dsimp only; split <;> rfl
@[simp] theorem predict_hostOut (c : Nat) (s : State) : (predict c s).2.hostOut = s.hostOut := by
  unfold predict; dsimp only; split <;> rfl
@[simp] theorem predict_freeReads (c : Nat) (s : State) : (predict c s).2.freeReads = s.freeReads := by
  unfold predict; dsimp only; split <;> rfl

/-! ### sinks -/

@[simp] theorem sink_wbits (s : State) : s.sink.wbits = s.wbits := rfl
@[simp] theorem sink_wbytes (s : State) : s.sink.wbytes = s.wbytes := rfl
@[simp] theorem sink_wacc (s : State) : s.sink.wacc = s.wacc := rfl
@[simp] theorem sink_omem (s : State) : s.sink.omem = s.omem := rfl
@[simp] theorem sink_withSink (s : State) (k : Sink) : (s.withSink k).sink = k := rfl
@[simp] theorem withSink_sink (s : State) : s.withSink s.sink = s := rfl
@[simp] theorem deliver_wbits (v : Byte) (k : Sink) : (k.deliver v).wbits = k.wbits := rfl
@[simp] theorem deliver_wbytes (v : Byte) (k : Sink) : (k.deliver v).wbytes = k.wbytes + 1 := rfl
@[simp] theorem deliver_wacc (v : Byte) (k : Sink) : (k.deliver v).wacc = 0 := rfl
@[simp] theorem deliver_omem (v : Byte) (k : Sink) :
    (k.deliver v).omem = Memory.write k.wbytes.toNat v k.omem := rfl

end Sys2Proof.Machine
end

