-- ==== Sys2Proof/Laws/Apm.lean ====
section
/-! SUPPORT. The APM's learn, select and answer: each part's effect, and what the whole step leaves alone. -/

namespace Sys2Proof.Machine

/-- Reading the cells after one is written. -/
theorem cellAt_setCell (i j : Nat) (v : Cell16) (s : State) :
    cellAt (setCell i v s) j = if j = i then v else cellAt s j := by
  unfold cellAt setCell
  by_cases h : j = i
  · subst h; simp
  · simp [Memory.read_write_other h, h]

/-- The cell memory after the learn step: both cells of the index learn, each from its own old value. -/
theorem apmLearn_cell (bit : BitVec 1) (s : State) (i : Nat) :
    cellAt (apmLearn bit s) i =
      if i = s.apmidx.toNat ∨ i = s.apmidx.toNat + 1 then learnCell bit.toNat s.apmrate.toNat (cellAt s i)
      else cellAt s i := by
  simp only [apmLearn, cellAt_setCell]
  by_cases h : i = s.apmidx.toNat
  · subst h; simp
  · by_cases h' : i = s.apmidx.toNat + 1
    · subst h'; simp
    · simp [h, h']

/-- The learn step writes two cells and nothing else. -/
theorem apmLearn_read (bit : BitVec 1) (s : State) (i : Nat) (h : i ≠ s.apmidx.toNat) (h' : i ≠ s.apmidx.toNat + 1) :
    Memory.read (apmLearn bit s).cell i = Memory.read s.cell i := by
  simp only [apmLearn, setCell_cell]
  rw [Memory.read_write_other h', Memory.read_write_other h]

theorem apmLearn_frame (bit : BitVec 1) (s : State) : apmLearn bit s = { s with cell := (apmLearn bit s).cell } := rfl

/-- The whole step changes the cells and the index only. -/
theorem apmStep_frame (bit : BitVec 1) (pr : Probability) (ctx : Nat) (s : State) :
    (apmStep bit pr ctx s).2 = { s with cell := (apmStep bit pr ctx s).2.cell, apmidx := (apmStep bit pr ctx s).2.apmidx } :=
  rfl

theorem apmStep_cell (bit : BitVec 1) (pr : Probability) (ctx : Nat) (s : State) :
    (apmStep bit pr ctx s).2.cell = (apmLearn bit s).cell := rfl

/-- The learn step keeps the cell memory's canonical form. -/
theorem apmLearn_wf (bit : BitVec 1) (s : State) (h : Memory.wf s.cell = true) :
    Memory.wf (apmLearn bit s).cell = true := by
  simp only [apmLearn, setCell_cell]
  exact Memory.write_wf _ _ _ (Memory.write_wf _ _ _ h)

/-- The cells the learn step lists. -/
theorem apmLearn_mem (bit : BitVec 1) (s : State) {c : Nat × Cell16} (h : c ∈ (apmLearn bit s).cell) :
    c.1 = s.apmidx.toNat ∨ c.1 = s.apmidx.toNat + 1 ∨ c ∈ s.cell := by
  simp only [apmLearn, setCell_cell] at h
  rcases Memory.mem_write h with rfl | h
  · exact .inr (.inl rfl)
  · rcases Memory.mem_write h with rfl | h
    · exact .inl rfl
    · exact .inr (.inr h)

/-- The learn step unlists no cell. -/
theorem apmLearn_isSome (bit : BitVec 1) (s : State) (i : Nat) (h : (Memory.read s.cell i).isSome = true) :
    (Memory.read (apmLearn bit s).cell i).isSome = true := by
  by_cases h1 : i = s.apmidx.toNat + 1
  · subst h1; simp [apmLearn]
  · by_cases h2 : i = s.apmidx.toNat
    · simp only [apmLearn, setCell_cell]
      rw [Memory.read_write_other h1, h2, Memory.read_write_same]
      rfl
    · rw [apmLearn_read bit s i h2 h1, h]

/-- The index the step selects, as a number, when the context is one of a map's. -/
theorem apmStep_index (bit : BitVec 1) (pr : Probability) (ctx : Nat) (s : State) (h : ctx < 2 ^ 24) :
    ((apmStep bit pr ctx s).2.apmidx.toNat : Int) = asr (stretch s.params.invExp pr.toNat + 2048) 7 + 33 * ctx ∧
      (apmStep bit pr ctx s).2.apmidx.toNat % 33 ≤ 31 ∧
      (apmStep bit pr ctx s).2.apmidx.toNat ≤ 33 * ctx + 31 := by
  have hb := bracket_range s.params.invExp pr.toNat
  have hi : (apmStep bit pr ctx s).2.apmidx =
      BitVec.ofNat 32 ((asr (stretch s.params.invExp pr.toNat + 2048) 7).toNat + 33 * ctx) := rfl
  rw [hi, BitVec.toNat_ofNat]
  generalize asr (stretch s.params.invExp pr.toNat + 2048) 7 = b at *
  obtain ⟨n, rfl⟩ := Int.eq_ofNat_of_zero_le hb.1
  simp only [Int.toNat_natCast]
  have hn : n ≤ 31 := by omega
  rw [Nat.mod_eq_of_lt (by omega)]
  refine ⟨by push_cast; ring, by omega, by omega⟩

/-- An interpolation between two cells is a Probability. -/
theorem interpolation_lt (a b : Cell16) (w : Nat) (hw : w < 128) :
    (a.toNat * (128 - w) + b.toNat * w) / 2048 < 4096 := by
  have ha := a.isLt
  have hb := b.isLt
  have h1 : a.toNat * (128 - w) ≤ 65535 * (128 - w) := Nat.mul_le_mul_right _ (by omega)
  have h2 : b.toNat * w ≤ 65535 * w := Nat.mul_le_mul_right _ (by omega)
  omega

/-- The answer as a number. -/
theorem apmAnswer_toNat (pr : Probability) (s : State) :
    (apmAnswer pr s).toNat =
      ((cellAt s s.apmidx.toNat).toNat * (128 - lowBits (stretch s.params.invExp pr.toNat) 7) +
        (cellAt s (s.apmidx.toNat + 1)).toNat * lowBits (stretch s.params.invExp pr.toNat) 7) / 2048 := by
  have h := interpolation_lt (cellAt s s.apmidx.toNat) (cellAt s (s.apmidx.toNat + 1)) _
    (lowBits_lt (stretch s.params.invExp pr.toNat) 7)
  simp only [apmAnswer, BitVec.toNat_ofNat]
  exact Nat.mod_eq_of_lt h

end Sys2Proof.Machine
end

