-- ==== Sys2Proof/Laws/Ops.lean ====
section
/-! SUPPORT. One lemma for each shared operation of Machine/Ops.lean, saying once everything it can do. -/

namespace Sys2Proof.Machine

/-! ### The end of every command -/

/-- A body that completes is committed and counted. -/
theorem issue_ok {i : Instr} {body : State → Except Raised State} {s t : State} (h : body s = .ok t) :
    issue i body s = .next (succeed t) := by
  simp only [issue, h]

/-- A body that raises leaves the state before the command, with the error taken. -/
theorem issue_error {i : Instr} {body : State → Except Raised State} {s : State} {r : Raised} (h : body s = .error r) :
    issue i body s = .next (takeError (encode i) r s) := by
  simp only [issue, h]

/-- Everything the end of a command can do. -/
theorem issue_cases {i : Instr} {body : State → Except Raised State} {s t : State} (h : issue i body s = .next t) :
    (∃ u, body s = .ok u ∧ t = succeed u) ∨ (∃ r, body s = .error r ∧ t = takeError (encode i) r s) := by
  unfold issue at h
  split at h
  · next u hu => exact .inl ⟨u, hu, by simpa using h.symm⟩
  · next r hr => exact .inr ⟨r, hr, by simpa using h.symm⟩

/-- A command that ended without an error completed. -/
theorem issue_err_ok {i : Instr} {body : State → Except Raised State} {s t : State} (h : issue i body s = .next t)
    (ht : t.err = .ok) : ∃ u, body s = .ok u ∧ t = succeed u := by
  rcases issue_cases h with h | ⟨r, -, rfl⟩
  · exact h
  · simp at ht

/-- Raising has sub-status 0. -/
@[simp] theorem raise_eq_error {α : Type} (k : ErrorKind) : (raise k : Except Raised α) = .error ⟨k, 0⟩ := rfl

/-! ### The source -/

/-- The loop of `GetBits` appends the source bits below the value it starts with. -/
theorem getLoop_spec (s : State) (n pos v : Nat) :
    ∃ f, SourceField s pos n f ∧ getLoop s n pos v = v * 2 ^ n + f := by
  induction n generalizing pos v with
  | zero => exact ⟨0, ⟨by simp, fun j hj => absurd hj (by omega)⟩, by simp [getLoop]⟩
  | succ n ih =>
    obtain ⟨f, ⟨hlt, hbits⟩, heq⟩ := ih (pos + 1) (2 * v + (sourceBit s pos).toNat)
    refine ⟨(sourceBit s pos).toNat * 2 ^ n + f, ⟨?_, ?_⟩, ?_⟩
    · have : (sourceBit s pos).toNat ≤ 1 := Bool.toNat_le _
      have : (sourceBit s pos).toNat * 2 ^ n ≤ 1 * 2 ^ n := Nat.mul_le_mul_right _ this
      rw [Nat.pow_succ]
      omega
    · intro j hj
      rw [Nat.mul_comm]
      cases j with
      | zero =>
        simp only [Nat.sub_zero, Nat.add_sub_cancel, Nat.add_zero]
        rw [Nat.testBit_two_pow_mul_add _ hlt]
        rw [if_neg (by omega), Nat.sub_self, Nat.testBit_zero]
        change _ = sourceBit s pos
        cases sourceBit s pos <;> rfl
      | succ j =>
        rw [Nat.testBit_two_pow_mul_add _ hlt, if_pos (by omega)]
        have := hbits j (by omega)
        rw [show pos + 1 + j = pos + (j + 1) by omega] at this
        rw [← this]
        congr 1
        omega
    · rw [getLoop, heq, Nat.pow_succ]
      ring

/-- A field of the source is determined by its bits. -/
theorem SourceField.unique {s : State} {pos n v v' : Nat} (h : SourceField s pos n v) (h' : SourceField s pos n v') :
    v = v' := by
  apply Nat.eq_of_testBit_eq
  intro i
  by_cases hi : i < n
  · have a := h.2 (n - 1 - i) (by omega)
    have b := h'.2 (n - 1 - i) (by omega)
    rw [show n - 1 - (n - 1 - i) = i by omega] at a b
    rw [a, b]
  · rw [Nat.testBit_lt_two_pow (lt_of_lt_of_le h.1 (Nat.pow_le_pow_right (by omega) (by omega))),
      Nat.testBit_lt_two_pow (lt_of_lt_of_le h'.1 (Nat.pow_le_pow_right (by omega) (by omega)))]

/-- A field of the source depends on `IMEM` only. -/
theorem SourceField.congr {s t : State} (h : t.imem = s.imem) {pos n v : Nat} :
    SourceField t pos n v ↔ SourceField s pos n v := by
  simp only [SourceField, imemByte, h]

/-- Two fields that follow each other are one field. -/
theorem SourceField.append {s : State} {pos n m u v : Nat} (hu : SourceField s pos n u)
    (hv : SourceField s (pos + n) m v) : SourceField s pos (n + m) (u * 2 ^ m + v) := by
  refine ⟨?_, ?_⟩
  · have : (u + 1) * 2 ^ m ≤ 2 ^ n * 2 ^ m := Nat.mul_le_mul_right _ hu.1
    rw [Nat.pow_add]
    have := hv.1
    rw [Nat.add_mul] at *
    omega
  · intro j hj
    rw [Nat.mul_comm, Nat.testBit_two_pow_mul_add _ hv.1]
    by_cases hjn : j < n
    · rw [if_neg (by omega), ← hu.2 j hjn]
      congr 1
      omega
    · rw [if_pos (by omega)]
      have := hv.2 (j - n) (by omega)
      rw [show pos + n + (j - n) = pos + j by omega] at this
      rw [← this]
      congr 1
      omega

/-- `GetBits` with enough bits left: the field at the position, and the position moved. -/
theorem getBits_ok {n : Nat} {s : State} (h : s.rbits.toNat + n ≤ 8 * s.srclen.toNat) :
    ∃ v, SourceField s s.rbits.toNat n v ∧
      getBits n s = .ok (v, { s with rbits := s.rbits + BitVec.ofNat 64 n }) := by
  obtain ⟨f, hf, heq⟩ := getLoop_spec s n s.rbits.toNat 0
  refine ⟨f, hf, ?_⟩
  rw [getBits, if_neg (by omega), heq]
  simp

/-- `GetBits` past the end. -/
theorem getBits_error {n : Nat} {s : State} (h : 8 * s.srclen.toNat < s.rbits.toNat + n) :
    getBits n s = .error ⟨.endOfStream, 0⟩ := by
  rw [getBits, if_pos (by omega), raise_eq_error]

/-- Everything `GetBits` can do. -/
theorem getBits_cases (n : Nat) (s : State) :
    (s.rbits.toNat + n ≤ 8 * s.srclen.toNat ∧ ∃ v, SourceField s s.rbits.toNat n v ∧
      getBits n s = .ok (v, { s with rbits := s.rbits + BitVec.ofNat 64 n })) ∨
    (8 * s.srclen.toNat < s.rbits.toNat + n ∧ getBits n s = .error ⟨.endOfStream, 0⟩) := by
  rcases Nat.lt_or_ge (8 * s.srclen.toNat) (s.rbits.toNat + n) with h | h
  · exact .inr ⟨h, getBits_error h⟩
  · exact .inl ⟨h, getBits_ok h⟩

/-! ### The sink -/

/-- Everything `PutBits` can do: the capacity test, then the loop on the writer's buffer. -/
theorem putBits_cases (v n : Nat) (s : State) :
    (s.wbits.toNat + n ≤ 8 * s.snkcap.toNat ∧ putBits v n s = .ok (s.withSink (putLoop v n s.sink))) ∨
    (8 * s.snkcap.toNat < s.wbits.toNat + n ∧ putBits v n s = .error ⟨.ioFailure, 1⟩) := by
  rcases Nat.lt_or_ge (8 * s.snkcap.toNat) (s.wbits.toNat + n) with h | h
  · exact .inr ⟨h, by rw [putBits, if_pos (by omega)]⟩
  · exact .inl ⟨h, by rw [putBits, if_neg (by omega)]⟩

end Sys2Proof.Machine
end

