-- ==== Sys2Proof/Laws/Bitstream.lean ====
section
/-! SUPPORT. `PutBits` as a whole: what the loop of rule R131 leaves in the writer's registers and in `OMEM`. -/

namespace Sys2Proof.Machine

/-- The writer's registers are between two bits of an open stream (rule R42 (f), (g)): the whole bytes are delivered, and
`WACC` is 0 below the data. -/
structure Sink.Open (k : Sink) : Prop where
  bytes : k.wbytes.toNat = k.wbits.toNat / 8
  low : ∀ j < 8 - k.wbits.toNat % 8, k.wacc.getLsbD j = false

/-- Stream bit `n` of a writer's registers and buffer; `writtenBit` of a state is this of its sink. -/
def Sink.bit (k : Sink) (n : Nat) : Bool :=
  if n / 8 < k.wbytes.toNat then ((Memory.read k.omem (n / 8)).getD (Config.omemPowerOn (n / 8))).getLsbD (7 - n % 8)
  else k.wacc.getLsbD (7 - n % 8)

theorem writtenBit_eq (s : State) (n : Nat) : writtenBit s n = s.sink.bit n := rfl

/-- The clause of rule R42 (g) bit by bit. -/
theorem wacc_low_iff (acc : Byte) (r : Nat) :
    acc &&& ((0xFF : Byte) >>> r) = 0 ↔ ∀ j < 8 - r, acc.getLsbD j = false := by
  have hb : ∀ j, ((0xFF : Byte) >>> r).getLsbD j = decide (j < 8 - r) := by
    intro j
    rw [BitVec.getLsbD_ushiftRight]
    by_cases h : r + j < 8
    · rw [show (0xFF : Byte) = BitVec.allOnes 8 from rfl, BitVec.getLsbD_allOnes]
      simp; omega
    · rw [BitVec.getLsbD_of_ge _ _ (by omega)]
      simp; omega
  constructor
  · intro h j hj
    have := congrArg (fun x => BitVec.getLsbD x j) h
    simp only [BitVec.getLsbD_and, hb, hj, decide_true, Bool.and_true] at this
    simpa using this
  · intro h
    apply BitVec.eq_of_getLsbD_eq
    intro j hj
    rw [BitVec.getLsbD_and, hb]
    by_cases hj' : j < 8 - r
    · simp [h j hj']
    · simp [hj']

/-- What appending `n` bits of `v` does to the writer's registers and buffer. -/
structure Sink.Appended (v n : Nat) (k k' : Sink) : Prop where
  isOpen : k'.Open
  wbits : k'.wbits.toNat = k.wbits.toNat + n
  new : ∀ j < n, k'.bit (k.wbits.toNat + j) = v.testBit (n - 1 - j)
  old : ∀ m < k.wbits.toNat, k'.bit m = k.bit m
  frame : ∀ a, a < k.wbytes.toNat ∨ (k.wbits.toNat + n) / 8 ≤ a → Memory.read k'.omem a = Memory.read k.omem a
  filled : ∀ a, k.wbytes.toNat ≤ a → a < (k.wbits.toNat + n) / 8 → (Memory.read k'.omem a).isSome = true
  wf : Memory.wf k.omem = true → Memory.wf k'.omem = true
  mem : ∀ c ∈ k'.omem, c ∈ k.omem ∨ c.1 < (k.wbits.toNat + n) / 8

/-- One bit of the accumulator. -/
theorem getLsbD_putBit (acc : Byte) (b : Bool) (r j : Nat) (hr : r < 8) :
    (acc ||| ((if b then 1 else 0 : Byte) <<< (7 - r))).getLsbD j = (acc.getLsbD j || (decide (j = 7 - r) && b)) := by
  rw [BitVec.getLsbD_or]
  congr 1
  rw [BitVec.getLsbD_shiftLeft]
  cases b
  · simp
  · by_cases h : j = 7 - r
    · subst h
      have : 7 - r < 8 := by omega
      simp [this]
    · have : (1 : Byte).getLsbD (j - (7 - r)) = decide (j - (7 - r) = 0) := by
        rw [show (1 : Byte) = BitVec.ofNat 8 1 from rfl, BitVec.getLsbD_ofNat]
        cases hj : j - (7 - r) <;> simp [Nat.testBit_succ]
      simp only [if_true, this, h, decide_false, Bool.false_and, Bool.and_eq_false_iff]
      by_cases hlt : j < 7 - r
      · exact .inl (by simp [hlt])
      · exact .inr (by simp; omega)

/-- One turn of the loop of `PutBits`. -/
theorem putBit_appended (b : Bool) (k : Sink) (h : k.Open) (hb : k.wbits.toNat + 1 < 2 ^ 64) :
    Sink.Appended b.toNat 1 k (putBit b k) := by
  obtain ⟨hbytes, hlow⟩ := h
  have hw : (k.wbits + 1).toNat = k.wbits.toNat + 1 := by
    rw [BitVec.toNat_add, show (1 : Word64).toNat = 1 from rfl, Nat.mod_eq_of_lt hb]
  have hr : k.wbits.toNat % 8 < 8 := Nat.mod_lt _ (by omega)
  have hlow' := hlow (7 - k.wbits.toNat % 8) (by omega)
  generalize hacc : (k.wacc ||| ((if b then 1 else 0 : Byte) <<< (7 - k.wbits.toNat % 8))) = acc
  have hbit : ∀ j, acc.getLsbD j = (k.wacc.getLsbD j || (decide (j = 7 - k.wbits.toNat % 8) && b)) := by
    intro j
    rw [← hacc, getLsbD_putBit _ _ _ _ hr]
  have htest : b.toNat.testBit 0 = b := by cases b <;> rfl
  have hput : putBit b k = if (k.wbits.toNat + 1) % 8 = 0 then
      Sink.deliver acc { k with wacc := acc, wbits := k.wbits + 1 } else { k with wacc := acc, wbits := k.wbits + 1 } := by
    simp only [putBit, hacc, hw]
  by_cases hfull : (k.wbits.toNat + 1) % 8 = 0
  · -- the byte is full and is delivered
    rw [if_pos hfull] at hput
    have hby : (k.wbytes + 1).toNat = k.wbytes.toNat + 1 := by
      rw [BitVec.toNat_add, show (1 : Word64).toNat = 1 from rfl, Nat.mod_eq_of_lt (by omega)]
    rw [hput]
    simp only [Sink.deliver]
    refine ⟨⟨?_, ?_⟩, hw, ?_, ?_, ?_, ?_, ?_, ?_⟩
    · simp only [hby, hw, hbytes]
      omega
    · simp
    · intro j hj
      obtain rfl : j = 0 := by omega
      simp only [Sink.bit, hby, Nat.add_zero]
      rw [if_pos (by omega), show k.wbits.toNat / 8 = k.wbytes.toNat from hbytes.symm, Memory.read_write_same]
      simp only [Option.getD_some, hbit, hlow']
      simp [htest]
    · intro m hm
      simp only [Sink.bit, hby]
      by_cases hmb : m / 8 < k.wbytes.toNat
      · rw [if_pos (by omega), if_pos hmb, Memory.read_write_other (by omega)]
      · rw [if_pos (by omega), if_neg hmb, show m / 8 = k.wbytes.toNat by omega, Memory.read_write_same]
        simp only [Option.getD_some, hbit]
        rw [show decide (7 - m % 8 = 7 - k.wbits.toNat % 8) = false by simp; omega]
        simp
    · intro a ha
      exact Memory.read_write_other (by omega) _ _
    · intro a ha hlt
      rw [show a = k.wbytes.toNat by omega]
      simp
    · intro hwf
      exact Memory.write_wf _ _ _ hwf
    · intro c hc
      rcases Memory.mem_write hc with rfl | hc
      · exact .inr (by simp only; omega)
      · exact .inl hc
  · -- the byte is not full yet
    rw [if_neg hfull] at hput
    rw [hput]
    refine ⟨⟨?_, ?_⟩, hw, ?_, ?_, ?_, ?_, ?_, ?_⟩
    · simp only [hw, hbytes]
      omega
    · intro j hj
      simp only [hw] at hj
      simp only [hbit, hlow j (by omega)]
      rw [show decide (j = 7 - k.wbits.toNat % 8) = false by simp; omega]
      simp
    · intro j hj
      obtain rfl : j = 0 := by omega
      simp only [Sink.bit, Nat.add_zero]
      rw [if_neg (by omega)]
      simp only [hbit, hlow']
      simp [htest]
    · intro m hm
      simp only [Sink.bit]
      by_cases hmb : m / 8 < k.wbytes.toNat
      · rw [if_pos hmb, if_pos hmb]
      · rw [if_neg hmb, if_neg hmb, hbit]
        rw [show decide (7 - m % 8 = 7 - k.wbits.toNat % 8) = false by simp; omega]
        simp
    · intro a _
      rfl
    · intro a ha hlt
      omega
    · exact id
    · intro c hc
      exact .inl hc

/-- The loop of `PutBits` appends its bits, most significant first (rule R131). -/
theorem putLoop_appended (v n : Nat) (k : Sink) (h : k.Open) (hb : k.wbits.toNat + n < 2 ^ 64) :
    Sink.Appended v n k (putLoop v n k) := by
  induction n generalizing k with
  | zero =>
    refine ⟨h, rfl, fun j hj => absurd hj (by omega), fun _ _ => rfl, fun _ _ => rfl, ?_, id, fun c hc => .inl hc⟩
    intro a ha hlt
    have := h.bytes
    omega
  | succ n ih =>
    have h1 := putBit_appended (v.testBit n) k h (by omega)
    have h2 := ih (putBit (v.testBit n) k) h1.isOpen (by have := h1.wbits; omega)
    have hby := h.bytes
    have hby1 := h1.isOpen.bytes
    have hw1 := h1.wbits
    rw [putLoop]
    generalize hk : putBit (v.testBit n) k = k1 at *
    refine ⟨h2.isOpen, ?_, ?_, ?_, ?_, ?_, fun hwf => h2.wf (h1.wf hwf), ?_⟩
    · have := h2.wbits
      omega
    · intro j hj
      cases j with
      | zero =>
        rw [Nat.add_zero, h2.old _ (by omega)]
        have := h1.new 0 (by omega)
        rw [Nat.add_zero] at this
        rw [this]
        simp only [Nat.add_sub_cancel, Nat.sub_zero]
        cases v.testBit n <;> rfl
      | succ j =>
        have := h2.new j (by omega)
        rw [hw1, show k.wbits.toNat + 1 + j = k.wbits.toNat + (j + 1) by omega] at this
        rw [this]
        congr 1
        omega
    · intro m hm
      rw [h2.old m (by omega), h1.old m hm]
    · intro a ha
      rw [h2.frame a (by omega), h1.frame a (by omega)]
    · intro a ha hlt
      by_cases h' : k1.wbytes.toNat ≤ a
      · exact h2.filled a h' (by omega)
      · rw [h2.frame a (by omega)]
        exact h1.filled a ha (by omega)
    · intro c hc
      rcases h2.mem c hc with hc | hc
      · rcases h1.mem c hc with hc | hc
        · exact .inl hc
        · exact .inr (by omega)
      · exact .inr (by omega)

/-- A writer's open stream has its registers between two bits. -/
theorem State.Inv.sink_open {s : State} (h : s.Inv) (hc : s.closed = false) : s.sink.Open :=
  ⟨h.bytesOpen hc, (wacc_low_iff _ _).1 (h.accLow hc)⟩

/-- The sink's capacity is far below the counters' range. -/
theorem State.Inv.capacity {s : State} (h : s.Inv) : 8 * s.snkcap.toNat < 2 ^ 36 := by
  have := h.writerRoom.2
  have := h.paramsValid.1.2
  omega

/-- `PutBits` on an open stream with room for the bits. -/
theorem putBits_appended {v n : Nat} {s : State} (h : s.Inv) (hc : s.closed = false)
    (hroom : s.wbits.toNat + n ≤ 8 * s.snkcap.toNat) :
    ∃ k, putBits v n s = .ok (s.withSink k) ∧ Sink.Appended v n s.sink k := by
  have hcap := h.capacity
  refine ⟨putLoop v n s.sink, ?_, putLoop_appended v n s.sink (h.sink_open hc) ?_⟩
  · rw [putBits, if_neg (by omega)]
  · change s.wbits.toNat + n < 2 ^ 64
    omega

/-- What was appended to the writer's registers and buffer is what was appended to the stream. -/
theorem Appends.of_sink {v n : Nat} {s t : State} (h : Sink.Appended v n s.sink t.sink) : Appends v n s t := by
  obtain ⟨⟨hby, hlow⟩, hw, hnew, hold, hframe, -, -, -⟩ := h
  have hw' : t.wbits.toNat = s.wbits.toNat + n := hw
  have hby' : t.wbytes.toNat = t.wbits.toNat / 8 := hby
  refine ⟨hw', by rw [hby', hw'], hnew, hold, ?_, hframe⟩
  intro m hm hlt
  apply hlow
  change 7 - m % 8 < 8 - t.wbits.toNat % 8
  omega

end Sys2Proof.Machine
end

