-- ==== Sys2Proof/Laws/Decode.lean ====
section
/-! SUPPORT. What the pieces of the decoder and the encoder do: operation codes, field areas, masks. -/

namespace Sys2Proof

/-- The operation code of a command names the command. -/
@[simp] theorem Opcode.ofBits_bits (op : Opcode) : Opcode.ofBits op.bits = some op := by
  cases op <;> rfl

/-- An operation code that names a command is that command's. -/
theorem Opcode.bits_of_ofBits {b : Byte} {op : Opcode} (h : Opcode.ofBits b = some op) : b = op.bits := by
  revert h
  revert b op
  decide

/-- The operation codes `ofBits` names are those of rule R104. -/
theorem Opcode.ofBits_eq_none_iff (b : Byte) :
    Opcode.ofBits b = none ↔
      (0x08 ≤ b.toNat ∧ b.toNat ≤ 0x0F) ∨ (0x14 ≤ b.toNat ∧ b.toNat ≤ 0x1F) ∨ (0x22 ≤ b.toNat ∧ b.toNat ≤ 0x2F) ∨
        (0x34 ≤ b.toNat ∧ b.toNat ≤ 0x7D) ∨ 0x80 ≤ b.toNat := by
  revert b
  decide

/-- The byte `OPC` as a number. -/
theorem opcOf_toNat (w : Word32) : (opcOf w).toNat = w.toNat / 2 ^ 24 := by
  have := w.isLt
  simp only [opcOf, BitVec.extractLsb'_toNat, Nat.shiftRight_eq_div_pow]
  omega

/-- A word is its `OPC` byte above its field area. -/
theorem word_eq_append (w : Word32) : w = opcOf w ++ w.extractLsb' 0 24 := by
  apply BitVec.eq_of_getLsbD_eq
  intro i hi
  simp only [opcOf, BitVec.getLsbD_append, BitVec.getLsbD_extractLsb']
  by_cases h : i < 24
  · simp [h]
  · have : 24 + (i - 24) = i := by omega
    have h' : i - 24 < 8 := by omega
    simp [h, h', this]

@[simp] theorem opcOf_append (b : Byte) (a : BitVec 24) : opcOf (b ++ a) = b := by
  apply BitVec.eq_of_getLsbD_eq
  intro i hi
  have h : ¬ 24 + i < 24 := by omega
  simp only [opcOf, BitVec.getLsbD_append, BitVec.getLsbD_extractLsb', hi, h]
  simp

/-- The mask of a format inside the field area: the bits no field of the format covers (rule R101). -/
def Format.areaMask : Format → BitVec 24
  | .z => 0xFFFFFF
  | .b => 0xFFFFFE
  | .l => 0xFFFF80
  | .o => 0xFFFFFC
  | .r => 0xFFFFF0
  | .g => 0xFFE000
  | .e => 0xFFFFE0

theorem Format.mask_eq (f : Format) : f.mask = (0xFF : Byte) ++ f.areaMask := by cases f <;> rfl

/-- A masked word is its `OPC` byte above its masked field area. -/
theorem append_and_mask (b : Byte) (a : BitVec 24) (f : Format) :
    (b ++ a) &&& f.mask = b ++ (a &&& f.areaMask) := by
  rw [Format.mask_eq, BitVec.and_append]
  congr 1
  exact BitVec.and_allOnes (x := b)

/-- Two words are equal exactly when their bytes `OPC` and their field areas are. -/
theorem append_inj (b c : Byte) (a d : BitVec 24) : b ++ a = c ++ d ↔ b = c ∧ a = d := by
  constructor
  · intro h
    have h1 := congrArg opcOf h
    have h2 := congrArg (BitVec.extractLsb' 0 24) h
    simp only [opcOf_append] at h1
    refine ⟨h1, ?_⟩
    apply BitVec.eq_of_getLsbD_eq
    intro i hi
    have := congrArg (fun x => BitVec.getLsbD x i) h2
    simp only [BitVec.getLsbD_extractLsb', BitVec.getLsbD_append, hi, Nat.zero_add] at this
    simpa using this
  · rintro ⟨rfl, rfl⟩; rfl

/-- A narrow field at the foot of the field area misses a mask that has no 1 there. -/
theorem setWidth_and_eq_zero {n : Nat} (v : BitVec n) (m : BitVec 24) (h : ∀ j < n, m.getLsbD j = false) :
    v.setWidth 24 &&& m = 0 := by
  apply BitVec.eq_of_getLsbD_eq
  intro j hj
  by_cases hn : j < n
  · simp [h j hn]
  · simp [hj, BitVec.getLsbD_of_ge v j (by omega)]

/-- Reading a field back from the foot of the field area. -/
theorem extract_setWidth {n : Nat} (v : BitVec n) (hn : n ≤ 24) : (v.setWidth 24).extractLsb' 0 n = v := by
  apply BitVec.eq_of_getLsbD_eq
  intro j hj
  have : j < 24 := by omega
  simp [hj, this]

/-- Reading the lower of two fields back. -/
theorem extract_low {n m : Nat} (u : BitVec m) (v : BitVec n) (h : m + n ≤ 24) :
    ((u ++ v).setWidth 24).extractLsb' 0 n = v := by
  apply BitVec.eq_of_getLsbD_eq
  intro j hj
  have : j < 24 := by omega
  simp [hj, this, BitVec.getLsbD_append]

/-- Reading the upper of two fields back. -/
theorem extract_high {n m : Nat} (u : BitVec m) (v : BitVec n) (h : m + n ≤ 24) :
    ((u ++ v).setWidth 24).extractLsb' n m = u := by
  apply BitVec.eq_of_getLsbD_eq
  intro j hj
  have : n + j < 24 := by omega
  simp [hj, this, BitVec.getLsbD_append]

/-- The low bits of a word are those of its field area. -/
theorem extract_append (b : Byte) (a : BitVec 24) (k n : Nat) (h : k + n ≤ 24) :
    (b ++ a : Word32).extractLsb' k n = a.extractLsb' k n := by
  apply BitVec.eq_of_getLsbD_eq
  intro j hj
  have h' : k + j < 24 := by omega
  simp only [BitVec.getLsbD_extractLsb', BitVec.getLsbD_append, h', if_true, hj]

end Sys2Proof
end

