-- ==== Sys2Proof/Laws/EntropyCodec.lean ====
section
/-! SUPPORT. The coder: what prediction, narrowing and the two renormalisation loops do, on natural numbers. -/

namespace Sys2Proof.Machine

/-! ### Prediction -/

theorem predict_plain {s : State} (h : s.ecapm = false) (ctx : Nat) :
    predict ctx s = (BitVec.ofNat 12 (s.ecpred.toNat / 2 ^ 4), s) := by
  simp [predict, h]

theorem predict_refined {s : State} (h : s.ecapm = true) (ctx : Nat) :
    predict ctx s = apmStep s.eclast (BitVec.ofNat 12 (s.ecpred.toNat / 2 ^ 4)) ctx s := by
  simp [predict, h]

/-- Prediction changes the cells and the map's index only (rule R214). -/
theorem predict_frame (ctx : Nat) (s : State) :
    (predict ctx s).2 = { s with cell := (predict ctx s).2.cell, apmidx := (predict ctx s).2.apmidx } := by
  rcases Bool.eq_false_or_eq_true s.ecapm with h | h
  · rw [predict_refined h]
    exact apmStep_frame _ _ _ _
  · rw [predict_plain h]

/-! ### Narrowing -/

/-- The split point on natural numbers, while the low end is not above the high end. -/
theorem splitPoint_eq {pr : Probability} {s : State} (h : s.eclow.toNat ≤ s.echigh.toNat) :
    splitPoint pr s = (midPoint s.eclow.toNat s.echigh.toNat pr.toNat : Nat) := by
  have : (s.echigh.toNat : Int) - (s.eclow.toNat : Int) = ((s.echigh.toNat - s.eclow.toNat : Nat) : Int) := by omega
  rw [splitPoint, midPoint, asr, this]
  push_cast
  rfl

/-- The split point on natural numbers lies in the interval, below its high end. -/
theorem midPoint_range {lo hi pr : Nat} (h : lo < hi) (hp : pr < 4096) :
    lo ≤ midPoint lo hi pr ∧ midPoint lo hi pr < hi := by
  unfold midPoint
  refine ⟨Nat.le_add_right _ _, ?_⟩
  have h1 : (hi - lo) / 4096 * pr ≤ (hi - lo) / 4096 * 4095 := Nat.mul_le_mul_left _ (by omega)
  omega

/-- Narrowing inside the interval, on natural numbers. -/
theorem narrow_ends {bit : Bool} {s : State} {m : Nat} (h : m < s.echigh.toNat) :
    (narrow bit (m : Int) s).eclow.toNat = (if bit then s.eclow.toNat else m + 1) ∧
      (narrow bit (m : Int) s).echigh.toNat = if bit then m else s.echigh.toNat := by
  have hh := s.echigh.isLt
  cases bit
  · refine ⟨?_, rfl⟩
    simp only [narrow, Bool.false_eq_true, if_false]
    rw [BitVec.toNat_ofInt]
    omega
  · refine ⟨rfl, ?_⟩
    simp only [narrow, if_true]
    rw [BitVec.toNat_ofInt]
    omega

/-- Narrowing changes the interval only. -/
theorem narrow_frame (bit : Bool) (m : Int) (s : State) :
    narrow bit m s = { s with eclow := (narrow bit m s).eclow, echigh := (narrow bit m s).echigh } := by
  cases bit <;> rfl

/-! ### Renormalisation -/

/-- The test of the loops on natural numbers. -/
theorem topBytesAgree_iff (s : State) : topBytesAgree s = true ↔ s.eclow.toNat / 2 ^ 24 = s.echigh.toNat / 2 ^ 24 := by
  have hm : ∀ j, j < 32 → (0xFF000000 : Word32).getLsbD j = decide (24 ≤ j) := by decide
  have hz : topBytesAgree s = true ↔ s.eclow >>> 24 = s.echigh >>> 24 := by
    simp only [topBytesAgree, beq_iff_eq]
    constructor
    · intro h
      apply BitVec.eq_of_getLsbD_eq
      intro j hj
      rw [BitVec.getLsbD_ushiftRight, BitVec.getLsbD_ushiftRight]
      by_cases h8 : 24 + j < 32
      · have := congrArg (fun x => BitVec.getLsbD x (24 + j)) h
        simp only [BitVec.getLsbD_and, BitVec.getLsbD_xor, hm _ h8] at this
        simpa using this
      · rw [BitVec.getLsbD_of_ge _ _ (by omega), BitVec.getLsbD_of_ge _ _ (by omega)]
    · intro h
      apply BitVec.eq_of_getLsbD_eq
      intro j hj
      rw [BitVec.getLsbD_and, hm j hj, BitVec.getLsbD_xor]
      by_cases h24 : 24 ≤ j
      · have := congrArg (fun x => BitVec.getLsbD x (j - 24)) h
        simp only [BitVec.getLsbD_ushiftRight, show 24 + (j - 24) = j by omega] at this
        simp [this]
      · simp [h24]
  rw [hz]
  constructor
  · intro h
    have := congrArg BitVec.toNat h
    simpa only [BitVec.toNat_ushiftRight, Nat.shiftRight_eq_div_pow] using this
  · intro h
    apply BitVec.eq_of_toNat_eq
    simpa only [BitVec.toNat_ushiftRight, Nat.shiftRight_eq_div_pow] using h

/-- One byte shifted out of the low end. -/
theorem shiftInterval_low (s : State) : (shiftInterval s).eclow.toNat = s.eclow.toNat * 256 % 2 ^ 32 := by
  simp only [shiftInterval, BitVec.toNat_shiftLeft, Nat.shiftLeft_eq]

/-- A byte below a number whose low byte is empty. -/
theorem or_byte (x : Nat) (v : Nat) (hv : v < 256) : x * 256 % 2 ^ 32 ||| v = x * 256 % 2 ^ 32 + v := by
  have h : x * 256 % 2 ^ 32 = 2 ^ 8 * (x * 256 % 2 ^ 32 / 2 ^ 8) := by omega
  rw [h, ← Nat.two_pow_add_eq_or_of_lt (by omega)]

/-- One byte shifted out of the high end. -/
theorem shiftInterval_high (s : State) : (shiftInterval s).echigh.toNat = s.echigh.toNat * 256 % 2 ^ 32 + 255 := by
  simp only [shiftInterval, BitVec.toNat_or, BitVec.toNat_shiftLeft, Nat.shiftLeft_eq]
  exact or_byte _ 255 (by omega)

theorem shiftInterval_frame (s : State) :
    shiftInterval s = { s with eclow := (shiftInterval s).eclow, echigh := (shiftInterval s).echigh } := rfl

/-- A 32-bit number as four bytes. -/
theorem four_bytes {x : Nat} (h : x < 2 ^ 32) : ∃ a b c d : Nat, a < 256 ∧ b < 256 ∧ c < 256 ∧ d < 256 ∧
    x = a * 2 ^ 24 + b * 2 ^ 16 + c * 2 ^ 8 + d :=
  ⟨x / 2 ^ 24, x / 2 ^ 16 % 256, x / 2 ^ 8 % 256, x % 256, by omega, by omega, by omega, by omega, by omega⟩

theorem top_byte {a b c d : Nat} (_ : a < 256) (_ : b < 256) (_ : c < 256) (_ : d < 256) :
    (a * 2 ^ 24 + b * 2 ^ 16 + c * 2 ^ 8 + d) / 2 ^ 24 = a := by omega

theorem shift_bytes {a b c d : Nat} (_ : a < 256) (_ : b < 256) (_ : c < 256) (_ : d < 256) :
    (a * 2 ^ 24 + b * 2 ^ 16 + c * 2 ^ 8 + d) * 256 % 2 ^ 32 = b * 2 ^ 24 + c * 2 ^ 16 + d * 2 ^ 8 + 0 := by omega

/-- A byte taken in, then `m` more places, is `m + 1` places at once. -/
theorem shift_again (c b m : Nat) (hb : b < 256) (hm : m ≤ 3) :
    (c * 256 % 2 ^ 32 + b) * 2 ^ (8 * m) % 2 ^ 32 = c * 2 ^ (8 * (1 + m)) % 2 ^ 32 + b * 2 ^ (8 * m) := by
  have h : (c * 256 % 2 ^ 32 + b) * 2 ^ (8 * m) % 2 ^ 32 = (c * 256 + b) * 2 ^ (8 * m) % 2 ^ 32 := by
    rw [Nat.mul_mod, Nat.mod_add_mod, ← Nat.mul_mod]
  have h' : (c * 256 + b) * 2 ^ (8 * m) = c * 2 ^ (8 * (1 + m)) + b * 2 ^ (8 * m) := by
    rw [show 8 * (1 + m) = 8 + 8 * m by ring, Nat.pow_add]
    ring
  have hd : b * 2 ^ (8 * m) < 2 ^ (8 * (1 + m)) := by
    rw [show 8 * (1 + m) = 8 + 8 * m by ring, Nat.pow_add]
    exact Nat.mul_lt_mul_of_pos_right hb (Nat.two_pow_pos _)
  have hq : (2 : Nat) ^ 32 = 2 ^ (24 - 8 * m) * 2 ^ (8 * (1 + m)) := by
    rw [← Nat.pow_add]
    congr 1
    omega
  rw [h, h', hq, Nat.mul_mod_mul_right, Nat.add_mod, Nat.mul_mod_mul_right]
  generalize 2 ^ (8 * (1 + m)) = P at *
  have hQ : 0 < 2 ^ (24 - 8 * m) := Nat.two_pow_pos _
  generalize 2 ^ (24 - 8 * m) = Q at *
  have hc : (c % Q + 1) * P ≤ Q * P := Nat.mul_le_mul_right _ (Nat.mod_lt _ hQ)
  have hP : P ≤ Q * P := Nat.le_mul_of_pos_left _ hQ
  rw [Nat.add_mul] at hc
  rw [Nat.mod_eq_of_lt (show b * 2 ^ (8 * m) < Q * P by omega), Nat.mod_eq_of_lt (by omega)]

/-- The bytes the loops shift, one turn at a time, in at most `n` turns. -/
def settledIn : Nat → Nat → Nat → Nat
  | 0, _, _ => 0
  | n + 1, lo, hi =>
    if lo / 2 ^ 24 = hi / 2 ^ 24 then 1 + settledIn n (lo * 256 % 2 ^ 32) (hi * 256 % 2 ^ 32 + 255) else 0

/-- Four turns shift all the leading bytes the two ends share. -/
theorem settledIn_four {lo hi : Nat} (hlo : lo < 2 ^ 32) (hhi : hi < 2 ^ 32) :
    settledIn 4 lo hi = settledBytes lo hi := by
  obtain ⟨a, b, c, d, ha, hb, hc, hd, rfl⟩ := four_bytes hlo
  obtain ⟨a', b', c', d', ha', hb', hc', hd', rfl⟩ := four_bytes hhi
  have e1 := @shift_bytes
  have e2 := @top_byte
  simp only [settledIn, settledBytes]
  rw [e1 ha hb hc hd, e1 ha' hb' hc' hd',
    show b' * 2 ^ 24 + c' * 2 ^ 16 + d' * 2 ^ 8 + 0 + 255 = b' * 2 ^ 24 + c' * 2 ^ 16 + d' * 2 ^ 8 + 255 by omega,
    e1 hb hc hd (by omega), e1 hb' hc' hd' (by omega),
    show c' * 2 ^ 24 + d' * 2 ^ 16 + 255 * 2 ^ 8 + 0 + 255 = c' * 2 ^ 24 + d' * 2 ^ 16 + 255 * 2 ^ 8 + 255 by omega,
    e1 hc hd (by omega) (by omega), e1 hc' hd' (by omega) (by omega),
    show d' * 2 ^ 24 + 255 * 2 ^ 16 + 255 * 2 ^ 8 + 0 + 255 = d' * 2 ^ 24 + 255 * 2 ^ 16 + 255 * 2 ^ 8 + 255 by omega,
    e2 ha hb hc hd, e2 ha' hb' hc' hd', e2 hb hc hd (by omega), e2 hb' hc' hd' (by omega),
    e2 hc hd (by omega) (by omega), e2 hc' hd' (by omega) (by omega),
    e2 hd (by omega) (by omega) (by omega), e2 hd' (by omega) (by omega) (by omega)]
  by_cases h1 : a = a'
  · subst h1
    by_cases h2 : b = b'
    · subst h2
      by_cases h3 : c = c'
      · subst h3
        by_cases h4 : d = d'
        · subst h4
          simp
        · have : ¬ (a * 2 ^ 24 + b * 2 ^ 16 + c * 2 ^ 8 + d = a * 2 ^ 24 + b * 2 ^ 16 + c * 2 ^ 8 + d') := by omega
          have h8 : (a * 2 ^ 24 + b * 2 ^ 16 + c * 2 ^ 8 + d) / 2 ^ 8 =
            (a * 2 ^ 24 + b * 2 ^ 16 + c * 2 ^ 8 + d') / 2 ^ 8 := by omega
          have h16 : (a * 2 ^ 24 + b * 2 ^ 16 + c * 2 ^ 8 + d) / 2 ^ 16 =
            (a * 2 ^ 24 + b * 2 ^ 16 + c * 2 ^ 8 + d') / 2 ^ 16 := by omega
          simp only [h4, this, h8, h16, ne_eq, not_true_eq_false, not_false_eq_true, if_true, if_false]
      · have h8 : ¬ (a * 2 ^ 24 + b * 2 ^ 16 + c * 2 ^ 8 + d) / 2 ^ 8 =
          (a * 2 ^ 24 + b * 2 ^ 16 + c' * 2 ^ 8 + d') / 2 ^ 8 := by omega
        have h16 : (a * 2 ^ 24 + b * 2 ^ 16 + c * 2 ^ 8 + d) / 2 ^ 16 =
          (a * 2 ^ 24 + b * 2 ^ 16 + c' * 2 ^ 8 + d') / 2 ^ 16 := by omega
        simp only [h3, h8, h16, ne_eq, not_true_eq_false, not_false_eq_true, if_true, if_false]
    · have h16 : ¬ (a * 2 ^ 24 + b * 2 ^ 16 + c * 2 ^ 8 + d) / 2 ^ 16 =
        (a * 2 ^ 24 + b' * 2 ^ 16 + c' * 2 ^ 8 + d') / 2 ^ 16 := by omega
      simp only [h2, h16, ne_eq, not_true_eq_false, not_false_eq_true, if_true, if_false]
  · simp only [h1, ne_eq, not_false_eq_true, if_true, if_false]

theorem settledIn_le (n lo hi : Nat) : settledIn n lo hi ≤ n := by
  induction n generalizing lo hi with
  | zero => simp [settledIn]
  | succ n ih =>
    rw [settledIn]
    split
    · have := ih (lo * 256 % 2 ^ 32) (hi * 256 % 2 ^ 32 + 255)
      omega
    · omega

theorem settledBytes_le (lo hi : Nat) : settledBytes lo hi ≤ 4 := by
  unfold settledBytes
  split_ifs <;> omega

/-- What is left of the interval once its settled bytes are out: the low end is still not above the high end, and their top
bytes differ (rule R222 (a), (b)). -/
theorem shifted_interval {lo hi : Nat} (h : lo ≤ hi) (hhi : hi < 2 ^ 32) :
    shiftedLow (settledBytes lo hi) lo ≤ shiftedHigh (settledBytes lo hi) hi ∧
      shiftedLow (settledBytes lo hi) lo / 2 ^ 24 ≠ shiftedHigh (settledBytes lo hi) hi / 2 ^ 24 := by
  unfold settledBytes shiftedLow shiftedHigh
  split_ifs <;> omega

/-- Two runs of appended bits are one. -/
theorem Sink.Appended.trans {u v a b : Nat} {k k' k'' : Sink} (hk : k.Open) (h1 : Sink.Appended u a k k')
    (h2 : Sink.Appended v b k' k'') (hv : v < 2 ^ b) : Sink.Appended (u * 2 ^ b + v) (a + b) k k'' := by
  have hby := hk.bytes
  have hby1 := h1.isOpen.bytes
  have hw1 := h1.wbits
  have hw2 := h2.wbits
  refine ⟨h2.isOpen, by omega, ?_, ?_, ?_, ?_, fun hwf => h2.wf (h1.wf hwf), ?_⟩
  · intro j hj
    rw [Nat.mul_comm, Nat.testBit_two_pow_mul_add _ hv]
    by_cases hja : j < a
    · rw [h2.old _ (by omega), h1.new j hja, if_neg (by omega)]
      congr 1
      omega
    · rw [if_pos (by omega)]
      have := h2.new (j - a) (by omega)
      rw [hw1, show k.wbits.toNat + a + (j - a) = k.wbits.toNat + j by omega] at this
      rw [this]
      congr 1
      omega
  · intro m hm
    rw [h2.old m (by omega), h1.old m hm]
  · intro x hx
    rw [h2.frame x (by omega), h1.frame x (by omega)]
  · intro x hx hlt
    by_cases h' : k'.wbytes.toNat ≤ x
    · exact h2.filled x h' (by omega)
    · rw [h2.frame x (by omega)]
      exact h1.filled x hx (by omega)
  · intro c hc
    rcases h2.mem c hc with hc | hc
    · rcases h1.mem c hc with hc | hc
      · exact .inl hc
      · exact .inr (by omega)
    · exact .inr (by omega)

/-- Appending nothing. -/
theorem Sink.Appended.refl {k : Sink} (hk : k.Open) : Sink.Appended 0 0 k k := by
  refine ⟨hk, rfl, fun j hj => absurd hj (by omega), fun _ _ => rfl, fun _ _ => rfl, ?_, id, fun c hc => .inl hc⟩
  intro a ha hlt
  have := hk.bytes
  omega

/-- `EncShift` with room for the settled bytes: they are appended to the stream and shifted out of the interval. -/
theorem encShift_ok (n : Nat) (hn : n ≤ 4) (s : State) (hk : s.sink.Open) (hcap : 8 * s.snkcap.toNat < 2 ^ 36)
    (hroom : s.wbits.toNat + 8 * settledIn n s.eclow.toNat s.echigh.toNat ≤ 8 * s.snkcap.toNat) :
    ∃ u, encShift n s = .ok u ∧
      Sink.Appended (s.echigh.toNat / 2 ^ (32 - 8 * settledIn n s.eclow.toNat s.echigh.toNat))
        (8 * settledIn n s.eclow.toNat s.echigh.toNat) s.sink u.sink ∧
      u.eclow.toNat = shiftedLow (settledIn n s.eclow.toNat s.echigh.toNat) s.eclow.toNat ∧
      u.echigh.toNat = shiftedHigh (settledIn n s.eclow.toNat s.echigh.toNat) s.echigh.toNat ∧
      u = { s with wbits := u.wbits, wbytes := u.wbytes, wacc := u.wacc, omem := u.omem, eclow := u.eclow,
                   echigh := u.echigh } := by
  induction n generalizing s with
  | zero =>
    have h1 := s.echigh.isLt
    have h2 := s.eclow.isLt
    refine ⟨s, rfl, ?_, ?_, ?_, rfl⟩
    · simp only [settledIn, Nat.mul_zero, Nat.sub_zero]
      rw [Nat.div_eq_of_lt h1]
      exact Sink.Appended.refl hk
    · simp only [settledIn, shiftedLow]; omega
    · simp only [settledIn, shiftedHigh]; omega
  | succ n ih =>
    have h1 := s.echigh.isLt
    have h2 := s.eclow.isLt
    by_cases ht : s.eclow.toNat / 2 ^ 24 = s.echigh.toNat / 2 ^ 24
    · have hs : settledIn (n + 1) s.eclow.toNat s.echigh.toNat =
          1 + settledIn n (s.eclow.toNat * 256 % 2 ^ 32) (s.echigh.toNat * 256 % 2 ^ 32 + 255) := by
        rw [settledIn, if_pos ht]
      rw [hs] at hroom ⊢
      have hput : putBits (s.echigh >>> 24).toNat 8 s =
          .ok (s.withSink (putLoop (s.echigh >>> 24).toNat 8 s.sink)) := by
        rcases putBits_cases (s.echigh >>> 24).toNat 8 s with ⟨-, h⟩ | ⟨h, -⟩
        · exact h
        · omega
      have happ := putLoop_appended (s.echigh >>> 24).toNat 8 s.sink hk (by change s.wbits.toNat + 8 < _; omega)
      generalize putLoop (s.echigh >>> 24).toNat 8 s.sink = k at *
      have hw : k.wbits.toNat = s.wbits.toNat + 8 := happ.wbits
      have hlo := shiftInterval_low (s.withSink k)
      have hhi := shiftInterval_high (s.withSink k)
      simp only [withSink_eclow, withSink_echigh] at hlo hhi
      have ih' := ih (by omega) (shiftInterval (s.withSink k)) happ.isOpen hcap (by
        rw [hlo, hhi]
        change k.wbits.toNat + _ ≤ 8 * s.snkcap.toNat
        omega)
      rw [hlo, hhi] at ih'
      obtain ⟨u, hu, hua, hul, huh, huf⟩ := ih'
      have hle := settledIn_le n (s.eclow.toNat * 256 % 2 ^ 32) (s.echigh.toNat * 256 % 2 ^ 32 + 255)
      generalize settledIn n (s.eclow.toNat * 256 % 2 ^ 32) (s.echigh.toNat * 256 % 2 ^ 32 + 255) = m at *
      refine ⟨u, ?_, ?_, ?_, ?_, ?_⟩
      · rw [encShift, if_pos ((topBytesAgree_iff s).2 ht), hput]
        exact hu
      · have hm : m ≤ 3 := by omega
        have hlast := Sink.Appended.trans hk happ hua (by
          interval_cases m <;> omega)
        rw [show (s.echigh >>> 24).toNat = s.echigh.toNat / 2 ^ 24 by
          rw [BitVec.toNat_ushiftRight, Nat.shiftRight_eq_div_pow]] at hlast
        rw [show 8 * (1 + m) = 8 + 8 * m by ring]
        convert hlast using 1
        interval_cases m <;> omega
      · rw [hul]
        unfold shiftedLow
        have hm : m ≤ 3 := by omega
        interval_cases m <;> omega
      · rw [huh]
        unfold shiftedHigh
        have hm : m ≤ 3 := by omega
        interval_cases m <;> omega
      · rw [huf]
        rfl
    · have hs : settledIn (n + 1) s.eclow.toNat s.echigh.toNat = 0 := by rw [settledIn, if_neg ht]
      rw [hs]
      refine ⟨s, ?_, ?_, ?_, ?_, rfl⟩
      · rw [encShift, if_neg (by rw [topBytesAgree_iff]; exact ht)]
      · simp only [Nat.mul_zero, Nat.sub_zero]
        rw [Nat.div_eq_of_lt h1]
        exact Sink.Appended.refl hk
      · simp only [shiftedLow]; omega
      · simp only [shiftedHigh]; omega

/-- `EncShift` without room for the settled bytes fails as a whole. -/
theorem encShift_error (n : Nat) (s : State) (hcap : 8 * s.snkcap.toNat < 2 ^ 36) (hk : s.sink.Open)
    (hroom : 8 * s.snkcap.toNat < s.wbits.toNat + 8 * settledIn n s.eclow.toNat s.echigh.toNat)
    (hfit : s.wbits.toNat ≤ 8 * s.snkcap.toNat) : encShift n s = .error ⟨.ioFailure, 1⟩ := by
  induction n generalizing s with
  | zero => simp only [settledIn] at hroom; omega
  | succ n ih =>
    rw [settledIn] at hroom
    split at hroom
    · next ht =>
      rw [encShift, if_pos ((topBytesAgree_iff s).2 ht)]
      rcases putBits_cases (s.echigh >>> 24).toNat 8 s with ⟨hle, h⟩ | ⟨-, h⟩
      · rw [h]
        have happ := putLoop_appended (s.echigh >>> 24).toNat 8 s.sink hk (by change s.wbits.toNat + 8 < _; omega)
        generalize putLoop (s.echigh >>> 24).toNat 8 s.sink = k at *
        have hw : k.wbits.toNat = s.wbits.toNat + 8 := happ.wbits
        have hlo := shiftInterval_low (s.withSink k)
        have hhi := shiftInterval_high (s.withSink k)
        simp only [withSink_eclow, withSink_echigh] at hlo hhi
        refine ih (shiftInterval (s.withSink k)) hcap happ.isOpen ?_ ?_
        · rw [hlo, hhi]
          change 8 * s.snkcap.toNat < k.wbits.toNat + _
          omega
        · change k.wbits.toNat ≤ 8 * s.snkcap.toNat
          omega
      · rw [h]
    · omega

/-- One turn of `DecShift`: the byte read goes into `ECCODE`. -/
def decTurn (b : Nat) (s : State) : State :=
  shiftInterval { s with rbits := s.rbits + BitVec.ofNat 64 8, eccode := (s.eccode <<< 8) ||| BitVec.ofNat 32 b }

/-- Everything a turn of `DecShift` can do. -/
theorem decShift_turn (n : Nat) (s : State) (h : s.eclow.toNat / 2 ^ 24 = s.echigh.toNat / 2 ^ 24) :
    (s.rbits.toNat + 8 ≤ 8 * s.srclen.toNat ∧ ∃ b, SourceField s s.rbits.toNat 8 b ∧
      decShift (n + 1) s = decShift n (decTurn b s)) ∨
    (8 * s.srclen.toNat < s.rbits.toNat + 8 ∧ decShift (n + 1) s = .error ⟨.endOfStream, 0⟩) := by
  rw [decShift, if_pos ((topBytesAgree_iff s).2 h)]
  rcases getBits_cases 8 s with ⟨hle, b, hb, hg⟩ | ⟨hle, hg⟩
  · exact .inl ⟨hle, b, hb, by rw [hg]; rfl⟩
  · exact .inr ⟨hle, by rw [hg]⟩

/-- The fields a turn of `DecShift` writes, as numbers. -/
theorem decTurn_fields {b : Nat} {s : State} (hb : b < 256) (h : s.rbits.toNat + 8 < 2 ^ 64) :
    (decTurn b s).rbits.toNat = s.rbits.toNat + 8 ∧
      (decTurn b s).eccode.toNat = s.eccode.toNat * 256 % 2 ^ 32 + b ∧
      (decTurn b s).eclow.toNat = s.eclow.toNat * 256 % 2 ^ 32 ∧
      (decTurn b s).echigh.toNat = s.echigh.toNat * 256 % 2 ^ 32 + 255 := by
  refine ⟨?_, ?_, shiftInterval_low _, shiftInterval_high _⟩
  · change (s.rbits + BitVec.ofNat 64 8).toNat = _
    rw [BitVec.toNat_add, show (BitVec.ofNat 64 8).toNat = 8 from rfl, Nat.mod_eq_of_lt h]
  · change ((s.eccode <<< 8) ||| BitVec.ofNat 32 b).toNat = _
    simp only [BitVec.toNat_or, BitVec.toNat_shiftLeft, Nat.shiftLeft_eq, BitVec.toNat_ofNat]
    rw [Nat.mod_eq_of_lt (show b < 2 ^ 32 by omega)]
    exact or_byte _ b hb

/-- `DecShift` with the settled bytes in the source: they are taken into `ECCODE` and shifted out of the interval. -/
theorem decShift_ok (n : Nat) (hn : n ≤ 4) (s : State) (hcap : 8 * s.srclen.toNat < 2 ^ 36)
    (hroom : s.rbits.toNat + 8 * settledIn n s.eclow.toNat s.echigh.toNat ≤ 8 * s.srclen.toNat) :
    ∃ u v, decShift n s = .ok u ∧ SourceField s s.rbits.toNat (8 * settledIn n s.eclow.toNat s.echigh.toNat) v ∧
      u.eccode.toNat = s.eccode.toNat * 2 ^ (8 * settledIn n s.eclow.toNat s.echigh.toNat) % 2 ^ 32 + v ∧
      u.eclow.toNat = shiftedLow (settledIn n s.eclow.toNat s.echigh.toNat) s.eclow.toNat ∧
      u.echigh.toNat = shiftedHigh (settledIn n s.eclow.toNat s.echigh.toNat) s.echigh.toNat ∧
      u = { s with rbits := s.rbits + BitVec.ofNat 64 (8 * settledIn n s.eclow.toNat s.echigh.toNat),
                   eccode := u.eccode, eclow := u.eclow, echigh := u.echigh } := by
  induction n generalizing s with
  | zero =>
    have h1 := s.echigh.isLt
    have h2 := s.eclow.isLt
    have h3 := s.eccode.isLt
    refine ⟨s, 0, rfl, ⟨by simp [settledIn], fun j hj => by simp [settledIn] at hj⟩, ?_, ?_, ?_, ?_⟩
    · simp only [settledIn]; omega
    · simp only [settledIn, shiftedLow]; omega
    · simp only [settledIn, shiftedHigh]; omega
    · simp [settledIn]
  | succ n ih =>
    have h1 := s.echigh.isLt
    have h2 := s.eclow.isLt
    have h3 := s.eccode.isLt
    by_cases ht : s.eclow.toNat / 2 ^ 24 = s.echigh.toNat / 2 ^ 24
    · have hs : settledIn (n + 1) s.eclow.toNat s.echigh.toNat =
          1 + settledIn n (s.eclow.toNat * 256 % 2 ^ 32) (s.echigh.toNat * 256 % 2 ^ 32 + 255) := by
        rw [settledIn, if_pos ht]
      rw [hs] at hroom ⊢
      obtain ⟨-, b, hb, hturn⟩ | ⟨hle, -⟩ := decShift_turn n s ht
      swap
      · omega
      obtain ⟨hrb1, hcode1, hlo, hhi⟩ := decTurn_fields (s := s) hb.1 (by omega)
      have hlen1 : (decTurn b s).srclen = s.srclen := rfl
      have him1 : (decTurn b s).imem = s.imem := rfl
      have hsum : ∀ m, s.rbits + BitVec.ofNat 64 (8 * (1 + m)) = (decTurn b s).rbits + BitVec.ofNat 64 (8 * m) := by
        intro m
        change _ = s.rbits + BitVec.ofNat 64 8 + BitVec.ofNat 64 (8 * m)
        rw [BitVec.add_assoc, ← BitVec.ofNat_add, show 8 * (1 + m) = 8 + 8 * m by ring]
      have hfr : decTurn b s = { s with
        rbits := (decTurn b s).rbits, eccode := (decTurn b s).eccode, eclow := (decTurn b s).eclow,
        echigh := (decTurn b s).echigh } := rfl
      generalize decTurn b s = s1 at *
      have ih' := ih (by omega) s1 (by rw [hlen1]; exact hcap) (by rw [hlo, hhi, hrb1, hlen1]; omega)
      rw [hlo, hhi] at ih'
      obtain ⟨u, v, hu, hv, huc, hul, huh, huf⟩ := ih'
      have hle := settledIn_le n (s.eclow.toNat * 256 % 2 ^ 32) (s.echigh.toNat * 256 % 2 ^ 32 + 255)
      generalize settledIn n (s.eclow.toNat * 256 % 2 ^ 32) (s.echigh.toNat * 256 % 2 ^ 32 + 255) = m at *
      have hm : m ≤ 3 := by omega
      have hvlt := hv.1
      refine ⟨u, b * 2 ^ (8 * m) + v, ?_, ?_, ?_, ?_, ?_, ?_⟩
      · rw [hturn]
        exact hu
      · rw [show 8 * (1 + m) = 8 + 8 * m by ring]
        refine hb.append ?_
        rw [← hrb1]
        exact (SourceField.congr him1).1 hv
      · rw [huc, hcode1, shift_again _ _ _ hb.1 hm]
        ring
      · rw [hul]
        unfold shiftedLow
        interval_cases m <;> omega
      · rw [huh]
        unfold shiftedHigh
        interval_cases m <;> omega
      · rw [hsum m]
        rw [hfr] at huf
        exact huf
    · have hs : settledIn (n + 1) s.eclow.toNat s.echigh.toNat = 0 := by rw [settledIn, if_neg ht]
      rw [hs]
      refine ⟨s, 0, ?_, ⟨by simp, fun j hj => by simp at hj⟩, ?_, ?_, ?_, ?_⟩
      · rw [decShift, if_neg (by rw [topBytesAgree_iff]; exact ht)]
      · omega
      · simp only [shiftedLow]; omega
      · simp only [shiftedHigh]; omega
      · simp

/-- `DecShift` past the end of the source fails as a whole. -/
theorem decShift_error (n : Nat) (s : State) (hcap : 8 * s.srclen.toNat < 2 ^ 36)
    (hroom : 8 * s.srclen.toNat < s.rbits.toNat + 8 * settledIn n s.eclow.toNat s.echigh.toNat)
    (hfit : s.rbits.toNat ≤ 8 * s.srclen.toNat) : decShift n s = .error ⟨.endOfStream, 0⟩ := by
  induction n generalizing s with
  | zero => simp only [settledIn] at hroom; omega
  | succ n ih =>
    rw [settledIn] at hroom
    split at hroom
    · next ht =>
      rcases decShift_turn n s ht with ⟨hle, b, hb, h⟩ | ⟨-, h⟩
      · obtain ⟨hrb1, -, hlo, hhi⟩ := decTurn_fields (s := s) hb.1 (by omega)
        rw [h]
        refine ih (decTurn b s) hcap ?_ ?_
        · rw [hrb1, hlo, hhi]
          change 8 * s.srclen.toNat < _
          omega
        · rw [hrb1]
          exact hle
      · rw [h]
    · omega

/-- In every state, `EncShift` that completes changes the writer's registers and the interval only, and otherwise raises
`IOFailure` with sub-status 1. -/
theorem encShift_frame (n : Nat) (s : State) :
    (∃ u, encShift n s = .ok u ∧ u = { s with wbits := u.wbits, wbytes := u.wbytes, wacc := u.wacc, omem := u.omem,
                                              eclow := u.eclow, echigh := u.echigh }) ∨
    encShift n s = .error ⟨.ioFailure, 1⟩ := by
  induction n generalizing s with
  | zero => exact .inl ⟨s, rfl, rfl⟩
  | succ n ih =>
    rw [encShift]
    split
    · rcases putBits_cases (s.echigh >>> 24).toNat 8 s with ⟨-, h⟩ | ⟨-, h⟩
      · rw [h]
        generalize putLoop (s.echigh >>> 24).toNat 8 s.sink = k
        rcases ih (shiftInterval (s.withSink k)) with ⟨u, hu, huf⟩ | hu
        · exact .inl ⟨u, hu, huf⟩
        · exact .inr hu
      · rw [h]
        exact .inr rfl
    · exact .inl ⟨s, rfl, rfl⟩

/-- In every state, `DecShift` that completes changes the reader's position, `ECCODE` and the interval only, and otherwise
raises `EndOfStream`. -/
theorem decShift_frame (n : Nat) (s : State) :
    (∃ u, decShift n s = .ok u ∧ u = { s with rbits := u.rbits, eccode := u.eccode, eclow := u.eclow,
                                              echigh := u.echigh }) ∨
    decShift n s = .error ⟨.endOfStream, 0⟩ := by
  induction n generalizing s with
  | zero => exact .inl ⟨s, rfl, rfl⟩
  | succ n ih =>
    by_cases ht : s.eclow.toNat / 2 ^ 24 = s.echigh.toNat / 2 ^ 24
    · rcases decShift_turn n s ht with ⟨-, b, -, h⟩ | ⟨-, h⟩
      · rw [h]
        rcases ih (decTurn b s) with ⟨u, hu, huf⟩ | hu
        · exact .inl ⟨u, hu, huf⟩
        · exact .inr hu
      · exact .inr h
    · exact .inl ⟨s, by rw [decShift, if_neg (by rw [topBytesAgree_iff]; exact ht)], rfl⟩

/-! ### The predictor -/

/-- The predictor stays in its range (rule R216). -/
theorem predUpdate_range {bit : Bool} {s : State} (h : 63 ≤ s.ecpred.toNat ∧ s.ecpred.toNat ≤ 65473) :
    (predUpdate bit s).ecpred.toNat = updatedPredictor bit s.ecpred.toNat ∧
      63 ≤ (predUpdate bit s).ecpred.toNat ∧ (predUpdate bit s).ecpred.toNat ≤ 65473 := by
  cases bit
  · have : (predUpdate false s).ecpred.toNat = s.ecpred.toNat - s.ecpred.toNat / 64 := by
      simp only [predUpdate, Bool.false_eq_true, if_false, BitVec.toNat_ofNat]
      exact Nat.mod_eq_of_lt (by omega)
    rw [this]
    exact ⟨rfl, by omega, by omega⟩
  · have : (predUpdate true s).ecpred.toNat = s.ecpred.toNat + (65536 - s.ecpred.toNat) / 64 := by
      simp only [predUpdate, if_true, BitVec.toNat_ofNat]
      exact Nat.mod_eq_of_lt (by omega)
    rw [this]
    exact ⟨rfl, by omega, by omega⟩

end Sys2Proof.Machine
end

