-- ==== Sys2Proof/Laws/Commands.lean ====
section
/-! SUPPORT. One inversion lemma per command: what a command that ended in `t` has done. Either it took an error of a
well-formed kind and sub-status, or it completed in the state given, under the conditions given. -/

namespace Sys2Proof.Machine

/-- `t` is `s` with an error taken by the command `i`; the sub-status is 1 for `IOFailure` and 0 otherwise (rule R264). -/
def Failed (i : Instr) (s t : State) : Prop :=
  ∃ k, t = takeError (encode i) ⟨k, if k = .ioFailure then 1 else 0⟩ s

theorem Failed.raise {i : Instr} {s : State} (k : ErrorKind) (hk : k ≠ .ioFailure) :
    Failed i s (takeError (encode i) ⟨k, 0⟩ s) := ⟨k, by rw [if_neg hk]⟩

theorem Failed.full {i : Instr} {s : State} : Failed i s (takeError (encode i) ⟨.ioFailure, 1⟩ s) := ⟨.ioFailure, rfl⟩

/-- What a body gives that starts with a check: the check's error, or what comes after it. -/
theorem check_cases {p : Prop} [Decidable p] {k : ErrorKind} {rest : Except Raised State} {r : Except Raised State}
    (h : (if p then raise k else rest) = r) : (p ∧ r = .error ⟨k, 0⟩) ∨ (¬ p ∧ rest = r) := by
  split at h
  · next hp => exact .inl ⟨hp, h.symm⟩
  · next hp => exact .inr ⟨hp, h⟩

/-- What a body gives: an error whose sub-status is that of its kind, or the completed state, of which `P` holds. -/
def Ends (P : State → Prop) (r : Except Raised State) : Prop :=
  (∃ k, r = .error ⟨k, if k = .ioFailure then 1 else 0⟩) ∨ ∃ u, r = .ok u ∧ P u

theorem Ends.check {p : Prop} [Decidable p] {k : ErrorKind} (hk : k ≠ .ioFailure) {rest : Except Raised State}
    {P : State → Prop} (h : ¬ p → Ends P rest) : Ends P (if p then Machine.raise k else rest) := by
  by_cases hp : p
  · rw [if_pos hp]
    exact .inl ⟨k, by rw [if_neg hk]; rfl⟩
  · rw [if_neg hp]
    exact h hp

theorem Ends.raise {k : ErrorKind} (hk : k ≠ .ioFailure) {P : State → Prop} : Ends P (Machine.raise k) :=
  .inl ⟨k, by rw [if_neg hk]; rfl⟩

theorem Ends.ok {P : State → Prop} {u : State} (h : P u) : Ends P (.ok u) := .inr ⟨u, rfl, h⟩

/-- A command whose body ends so. -/
theorem Ends.issue {i : Instr} {body : State → Except Raised State} {s : State} {P : State → Prop}
    (h : Ends P (body s)) : ∃ t, Machine.issue i body s = .next t ∧ (Failed i s t ∨ ∃ u, t = succeed u ∧ P u) := by
  rcases h with ⟨k, h⟩ | ⟨u, h, hp⟩
  · exact ⟨_, issue_error h, .inl ⟨k, rfl⟩⟩
  · exact ⟨_, issue_ok h, .inr ⟨u, rfl, hp⟩⟩

/-- The outcome of every command but `SRESET`, with the body's result `u` before the end of every command. -/
def Outcome (i : Instr) (s : State) (P : State → Prop) : Prop :=
  ∃ t, exec i s = .next t ∧ (Failed i s t ∨ ∃ u, t = succeed u ∧ P u)

theorem nop_outcome (s : State) : Outcome .nop s (fun u => u = s) :=
  Ends.issue (body := fun s => .ok s) (P := fun u => u = s) (Ends.ok rfl)

theorem clrerr_outcome (s : State) :
    Outcome .clrerr s (fun u => u = { s with firsterr := .ok, iostat := 0, errcmd := 0, errarg := 0 }) :=
  Ends.issue (body := fun s => .ok { s with firsterr := .ok, iostat := 0, errcmd := 0, errarg := 0 })
    (P := fun u => u = { s with firsterr := .ok, iostat := 0, errcmd := 0, errarg := 0 }) (Ends.ok rfl)

/-- The two field values that name a role. -/
theorem roleOfField_iff (role : BitVec 2) :
    (roleOfField role = .writer ↔ role = 1) ∧ (roleOfField role = .reader ↔ role = 2) := by
  revert role
  decide

theorem openRole_outcome (role : BitVec 2) (s : State) :
    Outcome (.openRole role) s (fun u => s.role = .none ∧
      ((role = 1 ∧ s.arg.toNat ≤ s.params.omemSize ∧ u = { s with snkcap := s.arg, role := .writer }) ∨
       (role = 2 ∧ s.arg.toNat ≤ s.params.imemSize ∧ u = { s with srclen := s.arg, role := .reader }))) := by
  refine Ends.issue (body := fun s => match roleOfField role with
    | .none => raise .illegalCommand
    | .writer =>
      if s.role ≠ .none then raise .illegalCommand
      else if argUnsigned s > s.params.omemSize then raise .invalidArgument
      else .ok { s with snkcap := s.arg, role := .writer }
    | .reader =>
      if s.role ≠ .none then raise .illegalCommand
      else if argUnsigned s > s.params.imemSize then raise .invalidArgument
      else .ok { s with srclen := s.arg, role := .reader }) ?_
  split
  · exact Ends.raise (by decide)
  · next hr =>
    refine Ends.check (by decide) fun h1 => Ends.check (by decide) fun h2 =>
      Ends.ok ⟨by simpa using h1, .inl ⟨(roleOfField_iff role).1.1 hr, ?_, rfl⟩⟩
    simpa [argUnsigned] using h2
  · next hr =>
    refine Ends.check (by decide) fun h1 => Ends.check (by decide) fun h2 =>
      Ends.ok ⟨by simpa using h1, .inr ⟨(roleOfField_iff role).2.1 hr, ?_, rfl⟩⟩
    simpa [argUnsigned] using h2

/-- `PutBits` at the end of a body. -/
theorem Ends.putBits {v n : Nat} {s : State} {f : State → State} {P : State → Prop}
    (h : s.wbits.toNat + n ≤ 8 * s.snkcap.toNat → P (f (s.withSink (putLoop v n s.sink)))) :
    Ends P (match Machine.putBits v n s with | .error r => .error r | .ok t => .ok (f t)) := by
  rcases putBits_cases v n s with ⟨hle, he⟩ | ⟨-, he⟩
  · rw [he]; exact Ends.ok (h hle)
  · rw [he]; exact .inl ⟨.ioFailure, rfl⟩

/-- `GetBits` at the end of a body. -/
theorem Ends.getBits {n : Nat} {s : State} {f : Nat → State → State} {P : State → Prop}
    (h : s.rbits.toNat + n ≤ 8 * s.srclen.toNat → ∀ v, SourceField s s.rbits.toNat n v →
      P (f v { s with rbits := s.rbits + BitVec.ofNat 64 n })) :
    Ends P (match Machine.getBits n s with | .error r => .error r | .ok (v, t) => .ok (f v t)) := by
  rcases getBits_cases n s with ⟨hle, v, hv, he⟩ | ⟨-, he⟩
  · rw [he]; exact Ends.ok (h hle v hv)
  · rw [he]; exact .inl ⟨.endOfStream, rfl⟩

/-- What a command that puts `n` bits of `v` leaves before its end. -/
def PutDone (v n : Nat) (s u : State) : Prop :=
  s.role = .writer ∧ s.closed = false ∧ s.ecact = false ∧ s.wbits.toNat + n ≤ 8 * s.snkcap.toNat ∧
    u = s.withSink (putLoop v n s.sink)

theorem wrbit_outcome (bit : BitVec 1) (s : State) : Outcome (.wrbit bit) s (PutDone bit.toNat 1 s) := by
  refine Ends.issue (body := fun s =>
    if s.role ≠ .writer then raise .illegalCommand
    else if s.closed then raise .streamClosed
    else if s.ecact then raise .illegalCommand
    else putBits bit.toNat 1 s) ?_
  refine Ends.check (by decide) fun h1 => Ends.check (by decide) fun h2 => Ends.check (by decide) fun h3 => ?_
  have := Ends.putBits (v := bit.toNat) (n := 1) (s := s) (f := id) (P := PutDone bit.toNat 1 s)
    fun h => ⟨by simpa using h1, by simpa using h2, by simpa using h3, h, rfl⟩
  rcases putBits_cases bit.toNat 1 s with ⟨-, he⟩ | ⟨-, he⟩ <;> (rw [he] at this ⊢; exact this)

theorem wrbits_outcome (len : BitVec 7) (s : State) :
    Outcome (.wrbits len) s (fun u => 1 ≤ len.toNat ∧ len.toNat ≤ 64 ∧
      PutDone (s.arg.toNat % 2 ^ len.toNat) len.toNat s u) := by
  refine Ends.issue (body := fun s =>
    if s.role ≠ .writer then raise .illegalCommand
    else if s.closed then raise .streamClosed
    else if s.ecact then raise .illegalCommand
    else if len.toNat = 0 ∨ len.toNat > 64 then raise .invalidArgument
    else putBits (argLow len.toNat s) len.toNat s) ?_
  refine Ends.check (by decide) fun h1 => Ends.check (by decide) fun h2 => Ends.check (by decide) fun h3 =>
    Ends.check (by decide) fun h4 => ?_
  have := Ends.putBits (v := argLow len.toNat s) (n := len.toNat) (s := s) (f := id)
    (P := fun u => 1 ≤ len.toNat ∧ len.toNat ≤ 64 ∧ PutDone (s.arg.toNat % 2 ^ len.toNat) len.toNat s u)
    fun h => ⟨by omega, by omega, by simpa using h1, by simpa using h2, by simpa using h3, h, rfl⟩
  rcases putBits_cases (argLow len.toNat s) len.toNat s with ⟨-, he⟩ | ⟨-, he⟩ <;> (rw [he] at this ⊢; exact this)

/-- What a command that gets `n` bits leaves before its end. -/
def GetDone (n : Nat) (s u : State) : Prop :=
  s.role = .reader ∧ s.closed = false ∧ s.ecact = false ∧ s.rbits.toNat + n ≤ 8 * s.srclen.toNat ∧
    ∃ v, SourceField s s.rbits.toNat n v ∧
      u = setRes (BitVec.ofNat 64 v) { s with rbits := s.rbits + BitVec.ofNat 64 n }

theorem rdbit_outcome (s : State) : Outcome .rdbit s (GetDone 1 s) := by
  refine Ends.issue (body := fun s =>
    if s.role ≠ .reader then raise .illegalCommand
    else if s.closed then raise .streamClosed
    else if s.ecact then raise .illegalCommand
    else match getBits 1 s with
      | .error r => .error r
      | .ok (v, t) => .ok (setRes (zext64 v) t)) ?_
  refine Ends.check (by decide) fun h1 => Ends.check (by decide) fun h2 => Ends.check (by decide) fun h3 => ?_
  exact Ends.getBits (f := fun v t => setRes (zext64 v) t)
    fun h v hv => ⟨by simpa using h1, by simpa using h2, by simpa using h3, h, v, hv, rfl⟩

theorem rdbits_outcome (len : BitVec 7) (s : State) :
    Outcome (.rdbits len) s (fun u => 1 ≤ len.toNat ∧ len.toNat ≤ 64 ∧ GetDone len.toNat s u) := by
  refine Ends.issue (body := fun s =>
    if s.role ≠ .reader then raise .illegalCommand
    else if s.closed then raise .streamClosed
    else if s.ecact then raise .illegalCommand
    else if len.toNat = 0 ∨ len.toNat > 64 then raise .invalidArgument
    else match getBits len.toNat s with
      | .error r => .error r
      | .ok (v, t) => .ok (setRes (zext64 v) t)) ?_
  refine Ends.check (by decide) fun h1 => Ends.check (by decide) fun h2 => Ends.check (by decide) fun h3 =>
    Ends.check (by decide) fun h4 => ?_
  exact Ends.getBits (f := fun v t => setRes (zext64 v) t)
    fun h v hv => ⟨by omega, by omega, by simpa using h1, by simpa using h2, by simpa using h3, h, v, hv, rfl⟩

theorem hasmore_outcome (s : State) :
    Outcome .hasmore s (fun u => s.role = .reader ∧ s.closed = false ∧
      u = setRes (if s.rbits.toNat < 8 * s.srclen.toNat then 1 else 0) s) := by
  refine Ends.issue (body := fun s =>
    if s.role ≠ .reader then raise .illegalCommand
    else if s.closed then raise .streamClosed
    else .ok (setRes (if s.rbits.toNat < 8 * s.srclen.toNat then 1 else 0) s)) ?_
  exact Ends.check (by decide) fun h1 => Ends.check (by decide) fun h2 =>
    Ends.ok ⟨by simpa using h1, by simpa using h2, rfl⟩

theorem close_outcome (s : State) :
    Outcome .close s (fun u => s.role ≠ .none ∧
      ((s.closed = true ∧ u = s) ∨
       (s.closed = false ∧ s.ecact = false ∧ s.role = .writer ∧ s.wbits.toNat % 8 ≠ 0 ∧
          u = { s.withSink (s.sink.deliver s.wacc) with closed := true }) ∨
       (s.closed = false ∧ s.ecact = false ∧ (s.role = .reader ∨ s.wbits.toNat % 8 = 0) ∧ u = { s with closed := true }))) := by
  refine Ends.issue (body := fun s =>
    if s.role = .none then raise .illegalCommand
    else if s.closed then .ok s
    else if s.ecact then raise .illegalCommand
    else if s.role = .writer ∧ s.wbits.toNat % 8 ≠ 0 then
      .ok { s.withSink (s.sink.deliver s.wacc) with closed := true }
    else .ok { s with closed := true }) ?_
  refine Ends.check (by decide) fun h1 => ?_
  split
  · next h2 => exact Ends.ok ⟨h1, .inl ⟨h2, rfl⟩⟩
  · next h2 =>
    refine Ends.check (by decide) fun h3 => ?_
    split
    · next h4 => exact Ends.ok ⟨h1, .inr (.inl ⟨by simpa using h2, by simpa using h3, h4.1, h4.2, rfl⟩)⟩
    · next h4 =>
      refine Ends.ok ⟨h1, .inr (.inr ⟨by simpa using h2, by simpa using h3, ?_, rfl⟩)⟩
      rcases hr : s.role with _ | _ | _
      · exact absurd hr h1
      · exact .inr (by by_contra h; exact h4 ⟨hr, h⟩)
      · exact .inl rfl

theorem squash_outcome (s : State) :
    Outcome .squash s (fun u => u = setRes (BitVec.ofNat 64 (squash s.params.invExp s.arg.toInt)) s) :=
  Ends.issue (body := fun s => .ok (setRes (zext64 (squash s.params.invExp (argSigned s))) s)) (Ends.ok rfl)

theorem stretch_outcome (s : State) :
    Outcome .stretch s (fun u => s.arg.toNat ≤ 4095 ∧
      u = setRes (BitVec.ofInt 64 (stretch s.params.invExp s.arg.toNat)) s) := by
  refine Ends.issue (body := fun s =>
    if argUnsigned s > 4095 then raise .invalidArgument
    else .ok (setRes (sext64 (stretch s.params.invExp (argUnsigned s))) s)) ?_
  exact Ends.check (by decide) fun h => Ends.ok ⟨by simpa [argUnsigned] using h, rfl⟩

theorem log2_outcome (s : State) :
    Outcome .log2 s (fun u => s.arg.toNat ≠ 0 ∧ s.arg.toNat < 2 ^ 32 ∧
      u = setRes (BitVec.ofNat 64 (log2Floor s.arg.toNat)) s) := by
  refine Ends.issue (body := fun s =>
    if argUnsigned s = 0 ∨ argUnsigned s > 2 ^ 32 - 1 then raise .invalidArgument
    else .ok (setRes (zext64 (log2Floor (argUnsigned s))) s)) ?_
  refine Ends.check (by decide) fun h => Ends.ok ⟨?_, ?_, rfl⟩ <;> simp only [argUnsigned] at h <;> omega

theorem log2k_outcome (s : State) :
    Outcome .log2k s (fun u => s.arg.toNat ≠ 0 ∧ s.arg.toNat < 2 ^ 32 ∧
      u = setRes (BitVec.ofNat 64 (log2Scaled s.arg.toNat)) s) := by
  refine Ends.issue (body := fun s =>
    if argUnsigned s = 0 ∨ argUnsigned s > 2 ^ 32 - 1 then raise .invalidArgument
    else .ok (setRes (zext64 (log2Scaled (argUnsigned s))) s)) ?_
  refine Ends.check (by decide) fun h => Ends.ok ⟨?_, ?_, rfl⟩ <;> simp only [argUnsigned] at h <;> omega

theorem apmnew_outcome (rate : BitVec 4) (s : State) :
    Outcome (.apmnew rate) s (fun u => ¬ (s.ecact = true ∧ s.ecapm = true) ∧ 1 ≤ s.arg.toNat ∧
      s.arg.toNat ≤ s.params.apmMaxCtx ∧
      u = { s with
        apmn := BitVec.ofNat 32 s.arg.toNat, apmrate := rate, apmidx := 0, apmvld := true,
        cell := Memory.fill (33 * s.arg.toNat) (fun i => apmSeed s.params.invExp (i % 33)) s.cell }) := by
  refine Ends.issue (body := fun s =>
    if s.ecact ∧ s.ecapm then raise .illegalCommand
    else if argUnsigned s = 0 ∨ argUnsigned s > s.params.apmMaxCtx then raise .invalidArgument
    else .ok { s with
      apmn := BitVec.ofNat 32 (argUnsigned s), apmrate := rate, apmidx := 0, apmvld := true,
      cell := Memory.fill (33 * argUnsigned s) (fun i => apmSeed s.params.invExp (i % 33)) s.cell }) ?_
  refine Ends.check (by decide) fun h1 => Ends.check (by decide) fun h2 => Ends.ok ⟨h1, ?_, ?_, rfl⟩ <;>
    simp only [argUnsigned] at h2 <;> omega

theorem apmget_outcome (bit : BitVec 1) (pr : Probability) (s : State) :
    Outcome (.apmget bit pr) s (fun u => s.apmvld = true ∧ ¬ (s.ecact = true ∧ s.ecapm = true) ∧
      s.arg.toNat < s.apmn.toNat ∧
      u = setRes (BitVec.ofNat 64 (apmStep bit pr s.arg.toNat s).1.toNat) (apmStep bit pr s.arg.toNat s).2) := by
  refine Ends.issue (body := fun s =>
    if ¬ s.apmvld then raise .illegalCommand
    else if s.ecact ∧ s.ecapm then raise .illegalCommand
    else if argUnsigned s ≥ s.apmn.toNat then raise .invalidArgument
    else .ok (setRes (zext64 (apmStep bit pr (argUnsigned s) s).1.toNat) (apmStep bit pr (argUnsigned s) s).2)) ?_
  refine Ends.check (by decide) fun h1 => Ends.check (by decide) fun h2 => Ends.check (by decide) fun h3 =>
    Ends.ok ⟨by simpa using h1, h2, ?_, rfl⟩
  simp only [argUnsigned] at h3
  omega

/-- The coder as `ECINIT codec=FPAQ` leaves it (rule R213). -/
def started (apmen : BitVec 1) (code : Word32) (s : State) : State :=
  { s with
    eccode := code, eclow := 0, echigh := 0xFFFFFFFF, ecpred := 32768, ecpr := 2048, eclast := 0,
    ecapm := flagOf apmen, eccodec := 1, ecact := true }

theorem ecinit_outcome (codec : BitVec 4) (apmen : BitVec 1) (s : State) :
    Outcome (.ecinit codec apmen) s (fun u => s.role ≠ .none ∧ s.closed = false ∧ s.ecact = false ∧
      (flagOf apmen = true → s.apmvld = true) ∧
      ((codec.toNat = 0 ∧ u = s) ∨
       (codec.toNat = 1 ∧ s.role = .writer ∧ u = started apmen 0 s) ∨
       (codec.toNat = 1 ∧ s.role = .reader ∧ s.rbits.toNat + 32 ≤ 8 * s.srclen.toNat ∧
          ∃ v, SourceField s s.rbits.toNat 32 v ∧
            u = started apmen (BitVec.ofNat 32 v) { s with rbits := s.rbits + BitVec.ofNat 64 32 }))) := by
  refine Ends.issue (body := fun s =>
    if s.role = .none then raise .illegalCommand
    else if s.closed then raise .streamClosed
    else if s.ecact then raise .illegalCommand
    else if flagOf apmen ∧ ¬ s.apmvld then raise .illegalCommand
    else if codec.toNat ≥ 2 then
      if s.role = .reader then raise .unsupportedCodec else raise .invalidArgument
    else if codec.toNat = 0 then
      if flagOf apmen then raise .invalidArgument else .ok s
    else
      if s.role = .reader then
        match getBits 32 s with
        | .error r => .error r
        | .ok (v, t) => .ok (started apmen (BitVec.ofNat 32 v) t)
      else .ok (started apmen 0 s)) ?_
  refine Ends.check (by decide) fun h1 => Ends.check (by decide) fun h2 => Ends.check (by decide) fun h3 =>
    Ends.check (by decide) fun h4 => ?_
  have h4' : flagOf apmen = true → s.apmvld = true := fun h => by
    by_contra h'
    exact h4 ⟨h, h'⟩
  split
  · split <;> exact Ends.raise (by decide)
  · next h5 =>
    split
    · next h6 =>
      exact Ends.check (by decide) fun _ => Ends.ok ⟨h1, by simpa using h2, by simpa using h3, h4', .inl ⟨h6, rfl⟩⟩
    · next h6 =>
      have h7 : codec.toNat = 1 := by omega
      split
      · next h8 =>
        exact Ends.getBits (f := fun v t => started apmen (BitVec.ofNat 32 v) t) fun h v hv =>
          ⟨h1, by simpa using h2, by simpa using h3, h4', .inr (.inr ⟨h7, h8, h, v, hv, rfl⟩)⟩
      · next h8 =>
        refine Ends.ok ⟨h1, by simpa using h2, by simpa using h3, h4', .inr (.inl ⟨h7, ?_, rfl⟩)⟩
        rcases hr : s.role with _ | _ | _
        · exact absurd hr h1
        · rfl
        · exact absurd hr h8

/-- What the two coding commands check before they code. -/
def Coding (role : Role) (s : State) : Prop :=
  s.role = role ∧ s.closed = false ∧ s.ecact = true ∧ (s.ecapm = true → s.arg.toNat < s.apmn.toNat)

theorem ecenc_outcome (bit : BitVec 1) (s : State) :
    Outcome (.ecenc bit) s (fun u => Coding .writer s ∧
      ∃ v, encShift maxShifts (narrow (flagOf bit) (splitPoint (predict s.arg.toNat s).1 (predict s.arg.toNat s).2)
          (predict s.arg.toNat s).2) = .ok v ∧
        u = { predUpdate (flagOf bit) v with ecpr := (predict s.arg.toNat s).1 }) := by
  refine Ends.issue (body := fun s =>
    if s.role ≠ .writer then raise .illegalCommand
    else if s.closed then raise .streamClosed
    else if ¬ s.ecact then raise .illegalCommand
    else if s.ecapm ∧ argUnsigned s ≥ s.apmn.toNat then raise .invalidArgument
    else
      match encShift maxShifts (narrow (flagOf bit) (splitPoint (predict (argUnsigned s) s).1
          (predict (argUnsigned s) s).2) (predict (argUnsigned s) s).2) with
      | .error r => .error r
      | .ok u => .ok { predUpdate (flagOf bit) u with ecpr := (predict (argUnsigned s) s).1 }) ?_
  refine Ends.check (by decide) fun h1 => Ends.check (by decide) fun h2 => Ends.check (by decide) fun h3 =>
    Ends.check (by decide) fun h4 => ?_
  have hc : Coding .writer s := ⟨by simpa using h1, by simpa using h2, by simpa using h3, fun h => by
    by_contra h'
    exact h4 ⟨h, by simp only [argUnsigned]; omega⟩⟩
  change Ends _ (match encShift maxShifts (narrow (flagOf bit) (splitPoint (predict s.arg.toNat s).1
    (predict s.arg.toNat s).2) (predict s.arg.toNat s).2) with
      | .error r => .error r
      | .ok u => .ok { predUpdate (flagOf bit) u with ecpr := (predict s.arg.toNat s).1 })
  rcases encShift_frame maxShifts (narrow (flagOf bit) (splitPoint (predict s.arg.toNat s).1
    (predict s.arg.toNat s).2) (predict s.arg.toNat s).2) with ⟨v, hv, -⟩ | hv
  · rw [hv]
    exact Ends.ok ⟨hc, v, rfl, rfl⟩
  · rw [hv]
    exact .inl ⟨.ioFailure, rfl⟩

/-- The bit `ECDEC` decodes (rule R220). -/
def decodedBit (s : State) : Bool :=
  decide (((predict s.arg.toNat s).2.eccode.toNat : Int) ≤
    splitPoint (predict s.arg.toNat s).1 (predict s.arg.toNat s).2)

theorem ecdec_outcome (s : State) :
    Outcome .ecdec s (fun u => Coding .reader s ∧
      ∃ v, decShift maxShifts (narrow (decodedBit s) (splitPoint (predict s.arg.toNat s).1 (predict s.arg.toNat s).2)
          (predict s.arg.toNat s).2) = .ok v ∧
        u = { predUpdate (decodedBit s) v with
          ecpr := (predict s.arg.toNat s).1, res := BitVec.ofNat 64 (decodedBit s).toNat }) := by
  refine Ends.issue (body := fun s =>
    if s.role ≠ .reader then raise .illegalCommand
    else if s.closed then raise .streamClosed
    else if ¬ s.ecact then raise .illegalCommand
    else if s.ecapm ∧ argUnsigned s ≥ s.apmn.toNat then raise .invalidArgument
    else
      match decShift maxShifts (narrow (decodedBit s) (splitPoint (predict (argUnsigned s) s).1
          (predict (argUnsigned s) s).2) (predict (argUnsigned s) s).2) with
      | .error r => .error r
      | .ok u => .ok { predUpdate (decodedBit s) u with
          ecpr := (predict (argUnsigned s) s).1, res := zext64 (decodedBit s).toNat }) ?_
  refine Ends.check (by decide) fun h1 => Ends.check (by decide) fun h2 => Ends.check (by decide) fun h3 =>
    Ends.check (by decide) fun h4 => ?_
  have hc : Coding .reader s := ⟨by simpa using h1, by simpa using h2, by simpa using h3, fun h => by
    by_contra h'
    exact h4 ⟨h, by simp only [argUnsigned]; omega⟩⟩
  change Ends _ (match decShift maxShifts (narrow (decodedBit s) (splitPoint (predict s.arg.toNat s).1
    (predict s.arg.toNat s).2) (predict s.arg.toNat s).2) with
      | .error r => .error r
      | .ok u => .ok { predUpdate (decodedBit s) u with
          ecpr := (predict s.arg.toNat s).1, res := zext64 (decodedBit s).toNat })
  rcases decShift_frame maxShifts (narrow (decodedBit s) (splitPoint (predict s.arg.toNat s).1
    (predict s.arg.toNat s).2) (predict s.arg.toNat s).2) with ⟨v, hv, -⟩ | hv
  · rw [hv]
    exact Ends.ok ⟨hc, v, rfl, rfl⟩
  · rw [hv]
    exact .inl ⟨.endOfStream, rfl⟩

/-- The coder as `ECFIN` leaves it (rule R221). -/
def stopped (s : State) : State := { s with ecact := false, ecapm := false, eccodec := 0 }

theorem ecfin_outcome (s : State) :
    Outcome .ecfin s (fun u => s.role ≠ .none ∧ s.closed = false ∧ s.ecact = true ∧
      ((s.role = .writer ∧ s.wbits.toNat + 32 ≤ 8 * s.snkcap.toNat ∧
          u = stopped (s.withSink (putLoop s.eclow.toNat 32 s.sink))) ∨
       (s.role = .reader ∧ u = stopped s))) := by
  refine Ends.issue (body := fun s =>
    if s.role = .none then raise .illegalCommand
    else if s.closed then raise .streamClosed
    else if ¬ s.ecact then raise .illegalCommand
    else
      if s.role = .writer then
        match putBits s.eclow.toNat 32 s with
        | .error r => .error r
        | .ok t => .ok (stopped t)
      else .ok (stopped s)) ?_
  refine Ends.check (by decide) fun h1 => Ends.check (by decide) fun h2 => Ends.check (by decide) fun h3 => ?_
  split
  · next h4 =>
    exact Ends.putBits (f := stopped) fun h =>
      ⟨h1, by simpa using h2, by simpa using h3, .inl ⟨h4, h, rfl⟩⟩
  · next h4 =>
    refine Ends.ok ⟨h1, by simpa using h2, by simpa using h3, .inr ⟨?_, rfl⟩⟩
    rcases hr : s.role with _ | _ | _
    · exact absurd hr h1
    · exact absurd hr h4
    · rfl

theorem sreset_outcome (s : State) : exec .sreset s = .next (resetRegisters s) := rfl

/-- Inverting an outcome. -/
theorem Outcome.cases {i : Instr} {s t : State} {P : State → Prop} (h : Outcome i s P) (ht : exec i s = .next t) :
    Failed i s t ∨ ∃ u, t = succeed u ∧ P u := by
  obtain ⟨t', ht', hc⟩ := h
  obtain rfl : t' = t := by
    rw [ht'] at ht
    simpa using ht
  exact hc

end Sys2Proof.Machine
end

