-- ==== Sys2Proof/Laws/Frames.lean ====
section
/-! SUPPORT. What no command that completes writes before its end, but for `CLRERR` and `SRESET`. -/

namespace Sys2Proof.Machine

/-- The fields that the body of no command writes, the error record aside. -/
structure SameInputs (s u : State) : Prop where
  arg : u.arg = s.arg
  cmdcnt : u.cmdcnt = s.cmdcnt
  imem : u.imem = s.imem
  params : u.params = s.params
  hostIn : u.hostIn = s.hostIn
  hostOut : u.hostOut = s.hostOut
  freeReads : u.freeReads = s.freeReads

/-- The error record. -/
structure SameRecord (s u : State) : Prop where
  firsterr : u.firsterr = s.firsterr
  iostat : u.iostat = s.iostat
  errcmd : u.errcmd = s.errcmd
  errarg : u.errarg = s.errarg

/-- The result of an outcome may be weakened. -/
theorem Outcome.mono {i : Instr} {s : State} {P Q : State → Prop} (h : Outcome i s P) (hpq : ∀ u, P u → Q u) :
    Outcome i s Q := by
  obtain ⟨t, ht, hc⟩ := h
  exact ⟨t, ht, hc.imp id fun ⟨u, hu, hp⟩ => ⟨u, hu, hpq u hp⟩⟩

/-- What `ECENC` has changed when its shifts are done: the sink, the interval and the map (rules R214, R215, R217). -/
theorem ecenc_frame {bit : Bool} {m : Int} {ctx : Nat} {s v : State}
    (h : encShift maxShifts (narrow bit m (predict ctx s).2) = .ok v) :
    v = { s with wbits := v.wbits, wbytes := v.wbytes, wacc := v.wacc, omem := v.omem, eclow := v.eclow,
                 echigh := v.echigh, cell := (predict ctx s).2.cell, apmidx := (predict ctx s).2.apmidx } := by
  have hp := predict_frame ctx s
  generalize (predict ctx s).2 = p at *
  have hn := narrow_frame bit m p
  generalize narrow bit m p = n at *
  rcases encShift_frame maxShifts n with ⟨v', hv', hf⟩ | he
  · rw [h] at hv'
    obtain rfl : v = v' := by simpa using hv'
    refine hf.trans ?_
    rw [hn, hp]
  · rw [h] at he
    simp at he

/-- What `ECDEC` has changed when its shifts are done: the position, `ECCODE`, the interval and the map (rules R214, R215,
R218). -/
theorem ecdec_frame {bit : Bool} {m : Int} {ctx : Nat} {s v : State}
    (h : decShift maxShifts (narrow bit m (predict ctx s).2) = .ok v) :
    v = { s with rbits := v.rbits, eccode := v.eccode, eclow := v.eclow, echigh := v.echigh,
                 cell := (predict ctx s).2.cell, apmidx := (predict ctx s).2.apmidx } := by
  have hp := predict_frame ctx s
  generalize (predict ctx s).2 = p at *
  have hn := narrow_frame bit m p
  generalize narrow bit m p = n at *
  rcases decShift_frame maxShifts n with ⟨v', hv', hf⟩ | he
  · rw [h] at hv'
    obtain rfl : v = v' := by simpa using hv'
    refine hf.trans ?_
    rw [hn, hp]
  · rw [h] at he
    simp at he

/-- What a command that completes has not changed before its end. -/
def Kept (i : Instr) (s u : State) : Prop :=
  SameInputs s u ∧ (i ≠ .clrerr → SameRecord s u) ∧ (s.role ≠ .none → u.role = s.role) ∧
    (s.closed = true → u.closed = true ∧ u.wbytes = s.wbytes ∧ u.omem = s.omem) ∧
    ((∀ role, i ≠ .openRole role) → u.role = s.role ∧ u.srclen = s.srclen)

theorem Kept.of {i : Instr} {s u : State} (h1 : SameInputs s u) (h2 : SameRecord s u) (h3 : u.role = s.role)
    (h4 : s.closed = true → u.closed = true ∧ u.wbytes = s.wbytes ∧ u.omem = s.omem)
    (h5 : u.srclen = s.srclen := by rfl) : Kept i s u :=
  ⟨h1, fun _ => h2, fun _ => h3, h4, fun _ => ⟨h3, h5⟩⟩

/-- Every command but `SRESET` completes and keeps the host's side, or takes an error. -/
theorem kept_outcome (i : Instr) (s : State) (hi : i ≠ .sreset) : Outcome i s (Kept i s) := by
  cases i with
  | nop =>
    refine (nop_outcome s).mono ?_
    rintro u rfl
    exact .of ⟨rfl, rfl, rfl, rfl, rfl, rfl, rfl⟩ ⟨rfl, rfl, rfl, rfl⟩ rfl fun h => ⟨h, rfl, rfl⟩
  | openRole role =>
    refine (openRole_outcome role s).mono ?_
    rintro u ⟨h0, ⟨_, _, rfl⟩ | ⟨_, _, rfl⟩⟩ <;>
      exact ⟨⟨rfl, rfl, rfl, rfl, rfl, rfl, rfl⟩, fun _ => ⟨rfl, rfl, rfl, rfl⟩, fun h => absurd h0 h,
        fun h => ⟨h, rfl, rfl⟩, fun h => absurd rfl (h role)⟩
  | wrbit bit =>
    refine (wrbit_outcome bit s).mono ?_
    rintro u ⟨_, h1, _, _, rfl⟩
    exact .of ⟨rfl, rfl, rfl, rfl, rfl, rfl, rfl⟩ ⟨rfl, rfl, rfl, rfl⟩ rfl fun h => by simp [h] at h1
  | wrbits len =>
    refine (wrbits_outcome len s).mono ?_
    rintro u ⟨_, _, _, h1, _, _, rfl⟩
    exact .of ⟨rfl, rfl, rfl, rfl, rfl, rfl, rfl⟩ ⟨rfl, rfl, rfl, rfl⟩ rfl fun h => by simp [h] at h1
  | rdbit =>
    refine (rdbit_outcome s).mono ?_
    rintro u ⟨_, h1, _, _, v, _, rfl⟩
    exact .of ⟨rfl, rfl, rfl, rfl, rfl, rfl, rfl⟩ ⟨rfl, rfl, rfl, rfl⟩ rfl fun h => by simp [h] at h1
  | rdbits len =>
    refine (rdbits_outcome len s).mono ?_
    rintro u ⟨_, _, _, h1, _, _, v, _, rfl⟩
    exact .of ⟨rfl, rfl, rfl, rfl, rfl, rfl, rfl⟩ ⟨rfl, rfl, rfl, rfl⟩ rfl fun h => by simp [h] at h1
  | hasmore =>
    refine (hasmore_outcome s).mono ?_
    rintro u ⟨_, h1, rfl⟩
    exact .of ⟨rfl, rfl, rfl, rfl, rfl, rfl, rfl⟩ ⟨rfl, rfl, rfl, rfl⟩ rfl fun h => by simp [h] at h1
  | close =>
    refine (close_outcome s).mono ?_
    rintro u ⟨_, ⟨_, rfl⟩ | ⟨h1, _, _, _, rfl⟩ | ⟨h1, _, _, rfl⟩⟩
    · exact .of ⟨rfl, rfl, rfl, rfl, rfl, rfl, rfl⟩ ⟨rfl, rfl, rfl, rfl⟩ rfl fun h => ⟨h, rfl, rfl⟩
    · exact .of ⟨rfl, rfl, rfl, rfl, rfl, rfl, rfl⟩ ⟨rfl, rfl, rfl, rfl⟩ rfl fun h => by simp [h] at h1
    · exact .of ⟨rfl, rfl, rfl, rfl, rfl, rfl, rfl⟩ ⟨rfl, rfl, rfl, rfl⟩ rfl fun h => by simp [h] at h1
  | squash =>
    refine (squash_outcome s).mono ?_
    rintro u rfl
    exact .of ⟨rfl, rfl, rfl, rfl, rfl, rfl, rfl⟩ ⟨rfl, rfl, rfl, rfl⟩ rfl fun h => ⟨h, rfl, rfl⟩
  | stretch =>
    refine (stretch_outcome s).mono ?_
    rintro u ⟨_, rfl⟩
    exact .of ⟨rfl, rfl, rfl, rfl, rfl, rfl, rfl⟩ ⟨rfl, rfl, rfl, rfl⟩ rfl fun h => ⟨h, rfl, rfl⟩
  | log2 =>
    refine (log2_outcome s).mono ?_
    rintro u ⟨_, _, rfl⟩
    exact .of ⟨rfl, rfl, rfl, rfl, rfl, rfl, rfl⟩ ⟨rfl, rfl, rfl, rfl⟩ rfl fun h => ⟨h, rfl, rfl⟩
  | log2k =>
    refine (log2k_outcome s).mono ?_
    rintro u ⟨_, _, rfl⟩
    exact .of ⟨rfl, rfl, rfl, rfl, rfl, rfl, rfl⟩ ⟨rfl, rfl, rfl, rfl⟩ rfl fun h => ⟨h, rfl, rfl⟩
  | apmnew rate =>
    refine (apmnew_outcome rate s).mono ?_
    rintro u ⟨_, _, _, rfl⟩
    exact .of ⟨rfl, rfl, rfl, rfl, rfl, rfl, rfl⟩ ⟨rfl, rfl, rfl, rfl⟩ rfl fun h => ⟨h, rfl, rfl⟩
  | apmget bit pr =>
    refine (apmget_outcome bit pr s).mono ?_
    rintro u ⟨_, _, _, rfl⟩
    exact .of ⟨rfl, rfl, rfl, rfl, rfl, rfl, rfl⟩ ⟨rfl, rfl, rfl, rfl⟩ rfl fun h => ⟨h, rfl, rfl⟩
  | ecinit codec apmen =>
    refine (ecinit_outcome codec apmen s).mono ?_
    rintro u ⟨_, h1, _, _, ⟨_, rfl⟩ | ⟨_, _, rfl⟩ | ⟨_, _, _, v, _, rfl⟩⟩ <;>
      exact .of ⟨rfl, rfl, rfl, rfl, rfl, rfl, rfl⟩ ⟨rfl, rfl, rfl, rfl⟩ rfl fun h => by simp [h] at h1
  | ecenc bit =>
    refine (ecenc_outcome bit s).mono ?_
    rintro u ⟨⟨_, h1, _⟩, v, hv, rfl⟩
    rw [ecenc_frame hv]
    exact .of ⟨rfl, rfl, rfl, rfl, rfl, rfl, rfl⟩ ⟨rfl, rfl, rfl, rfl⟩ rfl fun h => by simp [h] at h1
  | ecdec =>
    refine (ecdec_outcome s).mono ?_
    rintro u ⟨⟨_, h1, _⟩, v, hv, rfl⟩
    rw [ecdec_frame hv]
    exact .of ⟨rfl, rfl, rfl, rfl, rfl, rfl, rfl⟩ ⟨rfl, rfl, rfl, rfl⟩ rfl fun h => by simp [h] at h1
  | ecfin =>
    refine (ecfin_outcome s).mono ?_
    rintro u ⟨_, h1, _, ⟨_, _, rfl⟩ | ⟨_, rfl⟩⟩
    · generalize putLoop s.eclow.toNat 32 s.sink = k
      exact .of ⟨rfl, rfl, rfl, rfl, rfl, rfl, rfl⟩ ⟨rfl, rfl, rfl, rfl⟩ rfl fun h => by simp [h] at h1
    · exact .of ⟨rfl, rfl, rfl, rfl, rfl, rfl, rfl⟩ ⟨rfl, rfl, rfl, rfl⟩ rfl fun h => by simp [h] at h1
  | clrerr =>
    refine (clrerr_outcome s).mono ?_
    rintro u rfl
    exact ⟨⟨rfl, rfl, rfl, rfl, rfl, rfl, rfl⟩, fun h => absurd rfl h, fun _ => rfl, fun h => ⟨h, rfl, rfl⟩, fun _ => ⟨rfl, rfl⟩⟩
  | sreset =>
    exact absurd rfl hi

end Sys2Proof.Machine
end

