-- ==== Sys2Proof/Laws/Invariant.lean ====
section
/-! SUPPORT. The pieces of the invariant: each single update a command is made of keeps it. -/

namespace Sys2Proof.Machine

/-- A new result. -/
theorem State.Inv.setRes {s : State} (v) (h : s.Inv) : (Machine.setRes v s).Inv := by
  obtain ⟨h1, h2, h3, h4, h5, h6, h7, h8, h9, h10, h11, h12, h13, h14, h15, h16, h17, h18, h19, h20, h21, h22, h23,
      h24, h25, h26⟩ := h
  exact ⟨h1, h2, h3, h4, h5, h6, h7, h8, h9, h10, h11, h12, h13, h14, h15, h16, h17, h18, h19, h20, h21, h22, h23,
      h24, h25, h26⟩

/-- The end of a command that completed. -/
theorem State.Inv.succeed {s : State} (h : s.Inv) : (Machine.succeed s).Inv := by
  obtain ⟨h1, h2, h3, h4, h5, h6, h7, h8, h9, h10, h11, h12, h13, h14, h15, h16, h17, h18, h19, h20, h21, h22, h23,
      h24, h25, h26⟩ := h
  exact ⟨h1, h2, h3, h4, h5, h6, h7, h8, h9, h10, h11, h12, h13, h14, h15, h16, h17, h18, h19, h20, h21, h22, h23,
      fun h => absurd rfl h, h25, h26⟩

/-- Taking an error. -/
theorem State.Inv.takeError {s : State} (w r) (h : s.Inv) : (Machine.takeError w r s).Inv := by
  obtain ⟨h1, h2, h3, h4, h5, h6, h7, h8, h9, h10, h11, h12, h13, h14, h15, h16, h17, h18, h19, h20, h21, h22, h23,
      h24, h25, h26⟩ := h
  by_cases hs : s.firsterr = .ok
  · rw [takeError_first hs]
    exact ⟨h1, h2, h3, h4, h5, h6, h7, h8, h9, h10, h11, h12, h13, h14, h15, h16, h17, h18, h19, h20, h21, h22,
        (fun h => by simp at h), (fun _ => by simp), h25, h26⟩
  · rw [takeError_later hs]
    exact ⟨h1, h2, h3, h4, h5, h6, h7, h8, h9, h10, h11, h12, h13, h14, h15, h16, h17, h18, h19, h20, h21, h22,
        h23, (fun _ => hs), h25, h26⟩

/-- Bits appended to an open writer's stream, within its capacity. -/
theorem State.Inv.withSink {s : State} {v n : Nat} {k : Sink} (hr : s.role = .writer) (hc : s.closed = false)
    (h : s.Inv) (ha : Sink.Appended v n s.sink k) (hroom : s.wbits.toNat + n ≤ 8 * s.snkcap.toNat) :
    (State.withSink s k).Inv := by
  have hop := ha.isOpen
  have hw : k.wbits.toNat = s.wbits.toNat + n := ha.wbits
  obtain ⟨h1, h2, h3, h4, h5, h6, h7, h8, h9, h10, h11, h12, h13, h14, h15, h16, h17, h18, h19, h20, h21, h22, h23,
      h24, h25, h26⟩ := h
  refine ⟨h1, ha.wf h2, ?_, h4, h5, h6, h7, ?_, ?_, h10, ⟨?_, h11.2⟩, h12, ?_, ?_, ?_, ?_, h17, h18, h19, h20, h21,
      h22, h23, h24, h25, h26⟩
  · intro c hcm
    rcases ha.mem c hcm with hm | hm
    · exact h3 c hm
    · have : s.sink.wbits = s.wbits := rfl
      rw [this] at hm
      have := h11.2
      change c.1 < s.params.omemSize
      omega
  · intro hx; simp [hr] at hx
  · intro hx; exact absurd hr hx
  · change k.wbits.toNat ≤ 8 * s.snkcap.toNat; omega
  · intro _; exact hop.bytes
  · intro hx; simp [hc] at hx
  · intro _; exact (wacc_low_iff _ _).2 hop.low
  · intro a hlt
    change (Memory.read k.omem a).isSome = true
    have hlt' : a < k.wbytes.toNat := hlt
    have hb := hop.bytes
    by_cases hs : s.wbytes.toNat ≤ a
    · exact ha.filled a hs (by have : s.sink.wbits = s.wbits := rfl
                               rw [this]; omega)
    · rw [ha.frame a (Or.inl (by have : s.sink.wbytes = s.wbytes := rfl
                                 rw [this]; omega))]
      exact h16 a (by omega)

/-- Bits consumed by a reader, within its length. -/
theorem State.Inv.consume {s : State} {n : Nat} (h : s.Inv) (hr : s.role = .reader)
    (hroom : s.rbits.toNat + n ≤ 8 * s.srclen.toNat) :
    ({ s with rbits := s.rbits + BitVec.ofNat 64 n } : State).Inv := by
  obtain ⟨h1, h2, h3, h4, h5, h6, h7, h8, h9, h10, h11, h12, h13, h14, h15, h16, h17, h18, h19, h20, h21, h22, h23,
      h24, h25, h26⟩ := h
  have := h12.2
  have := h1.2.1.2
  have e : (s.rbits + BitVec.ofNat 64 n).toNat = s.rbits.toNat + n := by rw [BitVec.toNat_add, BitVec.toNat_ofNat,
      Nat.mod_eq_of_lt (a := n) (by omega), Nat.mod_eq_of_lt (by omega)]
  refine ⟨h1, h2, h3, h4, h5, h6, h7, ?_, h9, ?_, h11, ⟨?_, h12.2⟩, h13, h14, h15, h16, h17, h18, h19, h20, h21,
      h22, h23, h24, h25, h26⟩
  · intro hx; simp [hr] at hx
  · intro hx; exact absurd hr hx
  · change (s.rbits + BitVec.ofNat 64 n).toNat ≤ 8 * s.srclen.toNat; omega

/-- A step of the APM for a context of its map. -/
theorem State.Inv.apmStep {s : State} (bit pr) {ctx : Nat} (h : s.Inv) (hv : s.apmvld = true)
    (hctx : ctx < s.apmn.toNat) : (Machine.apmStep bit pr ctx s).2.Inv := by
  have hctx24 : ctx < 2^24 := by have := (h.mapSize hv).2; have := h.paramsValid.2.2.1.2; omega
  have hix := apmStep_index bit pr ctx s hctx24
  have hfr := apmStep_frame bit pr ctx s
  have hcell := apmStep_cell bit pr ctx s
  obtain ⟨h1, h2, h3, h4, h5, h6, h7, h8, h9, h10, h11, h12, h13, h14, h15, h16, h17, h18, h19, h20, h21, h22, h23,
      h24, h25, h26⟩ := h
  have hlwf := apmLearn_wf bit s h6
  generalize Machine.apmStep bit pr ctx s = r at *
  obtain ⟨p, t⟩ := r
  dsimp only at *
  rw [hfr]
  have hmax := (h20 hv).2
  have hn1 := (h20 hv).1
  refine ⟨h1, h2, h3, h4, h5, by rw [hcell]; exact hlwf, ?_, h8, h9, h10, h11, h12, h13, h14, h15, h16, h17, h18,
      h19, h20, ?_, ?_, h23, h24, h25, h26⟩
  · intro c hc
    change c ∈ t.cell at hc
    rw [hcell] at hc
    have := h21 hv
    change c.1 < 33 * s.params.apmMaxCtx
    rcases apmLearn_mem bit s hc with hc | hc | hc
    · omega
    · omega
    · exact h7 c hc
  · intro _
    change t.apmidx.toNat ≤ 33 * s.apmn.toNat - 2 ∧ t.apmidx.toNat % 33 ≤ 31
    refine ⟨by omega, hix.2.1⟩
  · intro _ i hi
    change (Memory.read t.cell i).isSome = true
    rw [hcell]
    exact apmLearn_isSome bit s i (h22 hv i hi)

/-- A prediction, for a context of the map if it refines. -/
theorem State.Inv.predict {s : State} {ctx : Nat} (h : s.Inv) (hctx : s.ecapm = true → ctx < s.apmn.toNat) :
    (Machine.predict ctx s).2.Inv := by
  rcases Bool.eq_false_or_eq_true s.ecapm with h' | h'
  · rw [predict_refined h']; exact State.Inv.apmStep _ _ h (h.refining h') (hctx h')
  · rw [predict_plain h']; exact h

/-- A new interval whose top bytes differ. -/
theorem State.Inv.interval' {s : State} {lo hi : Word32} (h : s.Inv) (hl : lo.toNat ≤ hi.toNat)
    (hne : lo.toNat / 2^24 ≠ hi.toNat / 2^24) : ({ s with eclow := lo, echigh := hi } : State).Inv := by
  obtain ⟨h1, h2, h3, h4, h5, h6, h7, h8, h9, h10, h11, h12, h13, h14, h15, h16, h17, h18, h19, h20, h21, h22, h23,
      h24, h25, h26⟩ := h
  exact ⟨h1, h2, h3, h4, h5, h6, h7, h8, h9, h10, h11, h12, h13, h14, h15, h16, h17, h18, h19, h20, h21, h22, h23,
      h24, fun _ => ⟨hl, hne⟩, h26⟩

/-- A new predictor in its range. -/
theorem State.Inv.predictor' {s : State} {p} {l} {r} (h : s.Inv) (hp : 63 ≤ p.toNat ∧ p.toNat ≤ 65473) :
    ({ s with ecpred := p, eclast := l, ecpr := r } : State).Inv := by
  obtain ⟨h1, h2, h3, h4, h5, h6, h7, h8, h9, h10, h11, h12, h13, h14, h15, h16, h17, h18, h19, h20, h21, h22, h23,
      h24, h25, h26⟩ := h
  exact ⟨h1, h2, h3, h4, h5, h6, h7, h8, h9, h10, h11, h12, h13, h14, h15, h16, h17, h18, h19, h20, h21, h22, h23,
      h24, h25, fun _ => hp⟩

/-- A new code window in a reader. -/
theorem State.Inv.eccode {s : State} {c} (h : s.Inv) (hr : s.role = .reader) : ({ s with eccode :=
    c } : State).Inv := by
  obtain ⟨h1, h2, h3, h4, h5, h6, h7, h8, h9, h10, h11, h12, h13, h14, h15, h16, h17, h18, h19, h20, h21, h22, h23,
      h24, h25, h26⟩ := h
  exact ⟨h1, h2, h3, h4, h5, h6, h7, h8, h9, fun hx => absurd hr hx, h11, h12, h13, h14, h15, h16, h17, h18, h19,
      h20, h21, h22, h23, h24, h25, h26⟩

/-- What the host has read. -/
theorem State.Inv.hostOut {s : State} (v : Word64) (n : Nat) (h : s.Inv) : ({ s with hostOut := v, freeReads :=
    n } : State).Inv := by
  obtain ⟨h1, h2, h3, h4, h5, h6, h7, h8, h9, h10, h11, h12, h13, h14, h15, h16, h17, h18, h19, h20, h21, h22, h23,
      h24, h25, h26⟩ := h
  exact ⟨h1, h2, h3, h4, h5, h6, h7, h8, h9, h10, h11, h12, h13, h14, h15, h16, h17, h18, h19, h20, h21, h22, h23,
      h24, h25, h26⟩

/-- The inputs that wait. -/
theorem State.Inv.hostIn {s : State} (v) (h : s.Inv) : ({ s with hostIn := v } : State).Inv := by
  obtain ⟨h1, h2, h3, h4, h5, h6, h7, h8, h9, h10, h11, h12, h13, h14, h15, h16, h17, h18, h19, h20, h21, h22, h23,
      h24, h25, h26⟩ := h
  exact ⟨h1, h2, h3, h4, h5, h6, h7, h8, h9, h10, h11, h12, h13, h14, h15, h16, h17, h18, h19, h20, h21, h22, h23,
      h24, h25, h26⟩

/-- A new operand. -/
theorem State.Inv.arg {s : State} (v) (h : s.Inv) : ({ s with arg := v } : State).Inv := by
  obtain ⟨h1, h2, h3, h4, h5, h6, h7, h8, h9, h10, h11, h12, h13, h14, h15, h16, h17, h18, h19, h20, h21, h22, h23,
      h24, h25, h26⟩ := h
  exact ⟨h1, h2, h3, h4, h5, h6, h7, h8, h9, h10, h11, h12, h13, h14, h15, h16, h17, h18, h19, h20, h21, h22, h23,
      h24, h25, h26⟩

end Sys2Proof.Machine
end

