-- ==== Sys2Proof/Laws/Host.lean ====
section
/-! SUPPORT. What a move of the host, a bus access and a step can do when they answer a next state. -/

namespace Sys2Proof.Machine

/-- What a `CMD` write is refused for: an `OPEN` of a reader that would succeed, with a gap in the bytes below `ARG`. -/
theorem opensUnwritten_iff {i : Instr} {s : State} :
    opensUnwritten i s = true ↔ i = .openRole 2 ∧ s.role = .none ∧ s.arg.toNat ≤ s.params.imemSize ∧
      Memory.firstUnlisted 0 s.imem < s.arg.toNat := by
  simp only [opensUnwritten, Bool.and_eq_true, decide_eq_true_eq, and_assoc]
  rfl

/-- A reader that a `CMD` write may open has every byte of its source written. -/
theorem written_of_not_opensUnwritten {s : State} (h : ¬ opensUnwritten (.openRole 2) s = true) (hr : s.role = .none)
    (ha : s.arg.toNat ≤ s.params.imemSize) : ∀ a < s.arg.toNat, (Memory.read s.imem a).isSome = true := by
  intro a hlt
  have hgap : ¬ Memory.firstUnlisted 0 s.imem < s.arg.toNat := fun hg => h (opensUnwritten_iff.2 ⟨rfl, hr, ha, hg⟩)
  exact Memory.isSome_of_lt_firstUnlisted (Nat.zero_le a) (by omega)

/-- A `CMD` write that is refused is one whose source has a byte never written, in the canonical form. -/
theorem unwritten_of_opensUnwritten {i : Instr} {s : State} (h : opensUnwritten i s = true) (hm : Memory.wf s.imem = true) :
    ∃ a < s.arg.toNat, Memory.read s.imem a = none :=
  (Memory.firstUnlisted_lt_iff hm).1 (opensUnwritten_iff.1 h).2.2.2

/-- A written command word: the decoded command's outcome, or the decode error taken. -/
theorem issueWord_cases {w : Word32} {s t : State} (h : issueWord w s = .next t) :
    (∃ i, decode w = .ok i ∧ ¬ opensUnwritten i s = true ∧ exec i s = .next t) ∨
      (∃ e, decode w = .error e ∧ t = takeError w ⟨.illegalCommand, 0⟩ s) := by
  unfold issueWord at h
  split at h
  · next i hi =>
    split at h
    · cases h
    · next hu => exact .inl ⟨i, hi, hu, h⟩
  · next e he => exact .inr ⟨e, he, by simpa using h.symm⟩

/-- A host read of `OMEM` changes the host's side only. -/
theorem readOmem_frame (a : Nat) (s : State) :
    readOmem a s = { s with hostOut := (readOmem a s).hostOut, freeReads := (readOmem a s).freeReads } := by
  unfold readOmem
  split <;> rfl

/-- A host read of the `CELL` window changes the host's side only. -/
theorem readCell_frame (i : Nat) (s : State) :
    readCell i s = { s with hostOut := (readCell i s).hostOut, freeReads := (readCell i s).freeReads } := by
  unfold readCell
  split <;> rfl

/-- Everything a move of the host does when it answers a next state. -/
theorem hostMove_cases {m : HostMove} {s t : State} (h : hostMove m s = .next t) :
    (∃ v, m = .writeArg v ∧ t = { s with arg := v }) ∨
    (∃ w, m = .writeCmd w ∧ issueWord w s = .next t) ∨
    (∃ a v, m = .writeImem a v ∧ s.role ≠ .reader ∧ a < s.params.imemSize ∧
      t = { s with imem := Memory.write a v s.imem }) ∨
    (t = { s with hostOut := t.hostOut, freeReads := t.freeReads }) ∨
    (m = .hardwareReset ∧ t = resetRegisters s) := by
  cases m with
  | writeArg v => exact .inl ⟨v, rfl, by simpa [hostMove] using h.symm⟩
  | writeCmd w => exact .inr (.inl ⟨w, rfl, h⟩)
  | readReg r =>
    obtain rfl : answer (readReg r s) s = t := by simpa [hostMove] using h
    exact .inr (.inr (.inr (.inl rfl)))
  | writeImem a v =>
    simp only [hostMove] at h
    split at h
    · cases h
    · next hr =>
      split at h
      · next ha => exact .inr (.inr (.inl ⟨a, v, rfl, hr, ha, by simpa using h.symm⟩))
      · cases h
  | readImem a =>
    simp only [hostMove] at h
    split at h
    · obtain rfl : answer ((imemByte s a).setWidth 64) s = t := by simpa using h
      exact .inr (.inr (.inr (.inl rfl)))
    · cases h
  | readOmem a =>
    simp only [hostMove] at h
    split at h
    · obtain rfl : readOmem a s = t := by simpa using h
      exact .inr (.inr (.inr (.inl (readOmem_frame a s))))
    · cases h
  | readCell i =>
    simp only [hostMove] at h
    split at h
    · obtain rfl : readCell i s = t := by simpa using h
      exact .inr (.inr (.inr (.inl (readCell_frame i s))))
    · cases h
  | hardwareReset => exact .inr (.inr (.inr (.inr ⟨rfl, by simpa [hostMove] using h.symm⟩)))

/-- A bus read that answers is a read of the host, or reads 0 at a reserved offset. -/
theorem busRead_cases {a n : Nat} {s t : State} (h : busRead a n s = .next t) :
    (∃ m, hostMove m s = .next t) ∨ t = answer 0 s := by
  unfold busRead at h
  split at h
  · cases h
  · split at h
    · split at h
      · exact .inl ⟨_, h⟩
      · cases h
    · cases h
    · exact .inr (by simpa using h.symm)
    · split at h
      · exact .inl ⟨_, h⟩
      · cases h
    · split at h
      · exact .inl ⟨_, h⟩
      · cases h
    · split at h
      · exact .inl ⟨_, h⟩
      · cases h
    · cases h

/-- A bus write that answers is a write of the host, or is ignored. -/
theorem busWrite_cases {a n : Nat} {v : Word64} {s t : State} (h : busWrite a n v s = .next t) :
    (∃ m, hostMove m s = .next t) ∨ t = s := by
  unfold busWrite at h
  split at h
  · cases h
  · split at h <;> try split at h
    all_goals first
      | cases h; done
      | exact .inl ⟨_, h⟩
      | exact .inr (by simpa using h.symm)

/-- Everything a step does when it answers a next state: nothing, a move of the host on the state with the input taken, or a
bus access without effect there. -/
theorem step_cases {s t : State} (h : step s = .next t) :
    (s.hostIn = [] ∧ t = s) ∨
    ∃ x rest, s.hostIn = x :: rest ∧
      ((∃ m, hostMove m { s with hostIn := rest } = .next t) ∨ t = answer 0 { s with hostIn := rest } ∨
        t = { s with hostIn := rest }) := by
  simp only [step, stepInput] at h
  split at h
  · next hs => exact .inl ⟨hs, by simpa using h.symm⟩
  · next x rest hs =>
    refine .inr ⟨x, rest, hs, ?_⟩
    cases x with
    | move m => exact .inl ⟨m, h⟩
    | bus b =>
      cases b with
      | read a n => exact (busRead_cases h).imp id .inl
      | write a n v => exact (busWrite_cases h).imp id .inr

end Sys2Proof.Machine
end

