-- ==== Sys2Proof/Laws/PerInstr.lean ====
section
/-! SUPPORT. Statements about every command, made once per constructor: where the fields of its word lie. -/

namespace Sys2Proof.Laws

/-- Rules R101, R104: the word of a command has the command's operation code, and no 1 in a bit that its format does not
name. -/
def WordForm.Statement (i : Instr) : Prop :=
  opcOf (encode i) = i.opcode.bits ∧ encode i &&& i.opcode.format.mask = i.opcode.bits ++ (0 : BitVec 24)

/-- The field area of a command is inside its format. -/
theorem wordForm_of_area (i : Instr) (h : i.fieldArea &&& i.opcode.format.areaMask = 0) : WordForm.Statement i := by
  refine ⟨opcOf_append _ _, ?_⟩
  rw [encode, append_and_mask, h]

theorem WordForm.nop : WordForm.Statement .nop :=
  wordForm_of_area _ (by decide)

theorem WordForm.openRole (role : BitVec 2) : WordForm.Statement (.openRole role) :=
  wordForm_of_area _ (setWidth_and_eq_zero _ (Format.areaMask .o) (by decide))

theorem WordForm.wrbit (bit : BitVec 1) : WordForm.Statement (.wrbit bit) :=
  wordForm_of_area _ (setWidth_and_eq_zero _ (Format.areaMask .b) (by decide))

theorem WordForm.wrbits (len : BitVec 7) : WordForm.Statement (.wrbits len) :=
  wordForm_of_area _ (setWidth_and_eq_zero _ (Format.areaMask .l) (by decide))

theorem WordForm.rdbit : WordForm.Statement .rdbit :=
  wordForm_of_area _ (by decide)

theorem WordForm.rdbits (len : BitVec 7) : WordForm.Statement (.rdbits len) :=
  wordForm_of_area _ (setWidth_and_eq_zero _ (Format.areaMask .l) (by decide))

theorem WordForm.hasmore : WordForm.Statement .hasmore :=
  wordForm_of_area _ (by decide)

theorem WordForm.close : WordForm.Statement .close :=
  wordForm_of_area _ (by decide)

theorem WordForm.squash : WordForm.Statement .squash :=
  wordForm_of_area _ (by decide)

theorem WordForm.stretch : WordForm.Statement .stretch :=
  wordForm_of_area _ (by decide)

theorem WordForm.log2 : WordForm.Statement .log2 :=
  wordForm_of_area _ (by decide)

theorem WordForm.log2k : WordForm.Statement .log2k :=
  wordForm_of_area _ (by decide)

theorem WordForm.apmnew (rate : BitVec 4) : WordForm.Statement (.apmnew rate) :=
  wordForm_of_area _ (setWidth_and_eq_zero _ (Format.areaMask .r) (by decide))

theorem WordForm.apmget (bit : BitVec 1) (pr : Probability) : WordForm.Statement (.apmget bit pr) :=
  wordForm_of_area _ (setWidth_and_eq_zero _ (Format.areaMask .g) (by decide))

theorem WordForm.ecinit (codec : BitVec 4) (apmen : BitVec 1) : WordForm.Statement (.ecinit codec apmen) :=
  wordForm_of_area _ (setWidth_and_eq_zero _ (Format.areaMask .e) (by decide))

theorem WordForm.ecenc (bit : BitVec 1) : WordForm.Statement (.ecenc bit) :=
  wordForm_of_area _ (setWidth_and_eq_zero _ (Format.areaMask .b) (by decide))

theorem WordForm.ecdec : WordForm.Statement .ecdec :=
  wordForm_of_area _ (by decide)

theorem WordForm.ecfin : WordForm.Statement .ecfin :=
  wordForm_of_area _ (by decide)

theorem WordForm.clrerr : WordForm.Statement .clrerr :=
  wordForm_of_area _ (by decide)

theorem WordForm.sreset : WordForm.Statement .sreset :=
  wordForm_of_area _ (by decide)

end Sys2Proof.Laws
end

