-- ==== Sys2Proof/Machine/Assembler.lean ====
section
/-! DEFINITION. What the host writes around commands (spec/30_encoding.md rules R118, R119): the assembly text of a command
and the expansion of the pseudo-commands. The block never sees either; `step` does not use this file. -/

namespace Sys2Proof.Machine

/-- The spelling of a codec id (rule R118). -/
def codecText (codec : BitVec 4) : String :=
  match codec.toNat with
  | 0 => "NONE"
  | 1 => "FPAQ"
  | n => toString n

/-- The spelling of a role (rule R118); a reserved value is spelled as its number. -/
def roleText (role : BitVec 2) : String :=
  match role.toNat with
  | 1 => "WRITER"
  | 2 => "READER"
  | n => toString n

/-- `MNEMONIC field=value, ...` (rule R118). -/
def asmText : Instr → String
  | .nop => "NOP"
  | .openRole role => "OPEN role=" ++ roleText role
  | .wrbit bit => "WRBIT bit=" ++ toString bit.toNat
  | .wrbits len => "WRBITS len=" ++ toString len.toNat
  | .rdbit => "RDBIT"
  | .rdbits len => "RDBITS len=" ++ toString len.toNat
  | .hasmore => "HASMORE"
  | .close => "CLOSE"
  | .squash => "SQUASH"
  | .stretch => "STRETCH"
  | .log2 => "LOG2"
  | .log2k => "LOG2K"
  | .apmnew rate => "APMNEW rate=" ++ toString rate.toNat
  | .apmget bit pr => "APMGET bit=" ++ toString bit.toNat ++ ", pr=" ++ toString pr.toNat
  | .ecinit codec apmen =>
    "ECINIT codec=" ++ codecText codec ++ (if apmen = 1 then ", apmen=1" else "")
  | .ecenc bit => "ECENC bit=" ++ toString bit.toNat
  | .ecdec => "ECDEC"
  | .ecfin => "ECFIN"
  | .clrerr => "CLRERR"
  | .sreset => "SRESET"

/-- A command with its `ARG` as host inputs: write `ARG`, then write `CMD` (rules R100, R118). -/
def withArg (i : Instr) (arg : Word64) : List HostInput := [.move (.writeArg arg), .move (.writeCmd (encode i))]

/-- `WRBYTE v` (rule R119). -/
def pseudoWrbyte (v : Byte) : List HostInput := withArg (.wrbits 8) (v.setWidth 64)

/-- `RDBYTE` (rule R119). -/
def pseudoRdbyte : List HostInput := [.move (.writeCmd (encode (.rdbits 8)))]

/-- `OPENW n` (rule R119). -/
def pseudoOpenw (n : Word64) : List HostInput := withArg (.openRole 1) n

/-- `OPENR n` (rule R119). -/
def pseudoOpenr (n : Word64) : List HostInput := withArg (.openRole 2) n

/-- The bits `i - 1 .. 0` of a byte as `ECENC` commands, `c` being the context so far (rule R119). -/
def encodeBits (v : Byte) : Nat → Nat → List HostInput
  | 0, _ => []
  | i + 1, c =>
    withArg (.ecenc (if v.getLsbD i then 1 else 0)) (BitVec.ofNat 64 c) ++
      encodeBits v i (2 * c + (v.getLsbD i).toNat)

/-- `ECENCB v` (rule R119): one byte symbol, most significant bit first, from context 1. -/
def pseudoEcencb (v : Byte) : List HostInput := encodeBits v 8 1

/-- `n` turns of `ECDECB` (rule R119): the context `c` is `ARG`, and grows by the bit the host reads from `RES`. -/
def decodeBits : Nat → Nat → State → Option (Nat × State)
  | 0, c, s => some (c, s)
  | n + 1, c, s =>
    match exec .ecdec { s with arg := BitVec.ofNat 64 c } with
    | .next t => decodeBits n (2 * c + t.res.toNat) t
    | .fault _ => none
    | .refused _ => none

/-- `ECDECB` (rule R119): eight turns from context 1; the symbol is `c - 256`. -/
def pseudoEcdecb (s : State) : Option (Nat × State) := (decodeBits 8 1 s).map (fun r => (r.1 - 256, r.2))

end Sys2Proof.Machine
end

