-- ==== Sys2Proof/Tests/Slice0.lean ====
section
/-! SUPPORT. Tests. The expected values are those of spec/95_test_vectors.md (vectors D, B, L, A, E) and of the worked
examples of the rules, never the model's own answers; each test names its source. The last part shows, for every statement that
has hypotheses, a state and operands that meet them, clause by clause and at the ends of the ranges. -/

namespace Sys2Proof.Tests

set_option Elab.async false

open Sys2Proof.Machine

/-! ### Helpers -/

/-- The next state of an outcome, if it is one. -/
def ran (o : Host.Outcome State Fault Refusal) : Option State :=
  match o with
  | .next t => some t
  | .fault _ => none
  | .refused _ => none

theorem next_of_ran {o : Host.Outcome State Fault Refusal} {p : State → Prop} [DecidablePred p]
    (h : (ran o).any (fun t => decide (p t)) = true) : ∃ t, o = .next t ∧ p t := by
  cases o with
  | next t => exact ⟨t, rfl, by simpa [ran] using h⟩
  | fault r => simp [ran] at h
  | refused r => simp [ran] at h

/-- The command a word decodes to, if it does. -/
def decoded (w : Word32) : Option Instr := decodeTableWord 32 w.toNat

/-- One command on a state, read through `f`. -/
def after {α : Type} (i : Instr) (s : State) (f : State → α) : Option α := (ran (exec i s)).map f

/-- `ARG` set on a state. -/
def arg (v : Word64) (s : State) : State := { s with arg := v }

/-- A writer with a sink of four bytes, nothing written. -/
def w0 : State := { State.reset with role := .writer, snkcap := 4 }

/-- The writer of vector B3a: three bits `101` written. -/
def w3 : State := { w0 with wbits := 3, wacc := 0xA0 }

/-- The writer of vector B1 after row 4. -/
def w16 : State := { w0 with wbits := 16, wbytes := 2, omem := [(0, 0xD5), (1, 0xE5)] }

/-- A writer one bit before its sink is full. -/
def w31 : State := { w0 with wbits := 31, wbytes := 3, wacc := 0x34, omem := [(0, 0xD5), (1, 0xE5), (2, 0x12)] }

/-- The writer of vector B1 after row 6: its sink is full. -/
def w32 : State := { w0 with wbits := 32, wbytes := 4, omem := [(0, 0xD5), (1, 0xE5), (2, 0x12), (3, 0x34)] }

/-- The writer of vector B1 after row 8: closed. -/
def wc : State := { w32 with closed := true }

/-- A reader over the four bytes of vector B2. -/
def r0 : State :=
  { State.reset with role := .reader, srclen := 4, imem := [(0, 0xD5), (1, 0xE6), (2, 0x12), (3, 0x34)] }

/-- The reader of vector B2 after row 5. -/
def r16 : State := { r0 with rbits := 16 }

/-- A reader one bit before the end. -/
def r31 : State := { r0 with rbits := 31 }

/-- A reader at the end. -/
def r32 : State := { r0 with rbits := 32 }

/-- A closed reader. -/
def rc : State := { r32 with closed := true }

/-- A map of one context at rate 7, as `APMNEW` seeds it (vector A1), on a state. -/
def withMap (s : State) : State :=
  { s with apmvld := true, apmn := 1, apmrate := 7, cell := Memory.fill 33 (fun i => apmSeed defaultInvExp i) [] }

/-- The coder just started, on a state. -/
def coding (s : State) : State :=
  { s with ecact := true, eccodec := 1, echigh := 0xFFFFFFFF, ecpred := 32768, ecpr := 2048 }

/-- The coder of a state at the narrowest interval there is: whichever bit comes, all four bytes are settled. -/
def narrowest (s : State) : State := { coding s with eclow := 0x7FFFFFFF, echigh := 0x80000000 }

/-- The coder using the map. -/
def refined (s : State) : State := { withMap s with ecapm := true }

/-! ### Well-formedness: the one check refuses -/

theorem test_role_zero_refused : (Instr.openRole 0).wf = false := by decide

theorem test_role_three_refused : (Instr.openRole 3).wf = false := by decide

theorem test_operand_errors_are_wf :
    (Instr.wrbits 0).wf = true ∧ (Instr.wrbits 127).wf = true ∧ (Instr.ecinit 7 1).wf = true := by decide

/-! ### Decoding: words written out from the encodings of rule R104 (vectors D) -/

theorem test_decode_control :
    [decoded 0x00000000, decoded 0x7E000000, decoded 0x7F000000] = [some .nop, some .clrerr, some .sreset] := by decide

theorem test_decode_bitstream :
    [decoded 0x01000001, decoded 0x01000002, decoded 0x02000000, decoded 0x02000001, decoded 0x0300000C, decoded 0x0300007F,
      decoded 0x04000000, decoded 0x05000040, decoded 0x06000000, decoded 0x07000000] =
    [some (.openRole 1), some (.openRole 2), some (.wrbit 0), some (.wrbit 1), some (.wrbits 12), some (.wrbits 127),
      some .rdbit, some (.rdbits 64), some .hasmore, some .close] := by decide

theorem test_decode_logistic :
    [decoded 0x10000000, decoded 0x11000000, decoded 0x12000000, decoded 0x13000000] =
    [some .squash, some .stretch, some .log2, some .log2k] := by decide

theorem test_decode_apm :
    [decoded 0x20000007, decoded 0x2000000F, decoded 0x21001771, decoded 0x21001FFF, decoded 0x210000C8] =
    [some (.apmnew 7), some (.apmnew 15), some (.apmget 1 3000), some (.apmget 1 4095), some (.apmget 0 100)] := by decide

theorem test_decode_coder :
    [decoded 0x30000001, decoded 0x30000010, decoded 0x30000011, decoded 0x3000000F, decoded 0x31000000, decoded 0x31000001,
      decoded 0x32000000, decoded 0x33000000] =
    [some (.ecinit 1 0), some (.ecinit 0 1), some (.ecinit 1 1), some (.ecinit 15 0), some (.ecenc 0), some (.ecenc 1),
      some .ecdec, some .ecfin] := by decide

theorem test_decode_refuses_opcodes :
    ([0x08000000, 0x0F000000, 0x14000000, 0x22000000, 0x34000000, 0x7D000000, 0x80000000, 0xFFFFFFFF] : List Word32).map
      decoded = List.replicate 8 none := by decide

theorem test_decode_refuses_bits :
    ([0x00000001, 0x01000005, 0x02000002, 0x03000080, 0x04000001, 0x20000010, 0x21002000, 0x30000020, 0x32000001, 0x7F000001]
      : List Word32).map decoded = List.replicate 10 none := by decide

theorem test_decode_refuses_roles : [decoded 0x01000000, decoded 0x01000003] = [none, none] := by decide

/-! ### The tables (the checks of spec/45_table_listings.md) -/

theorem test_log2_4096_sum : log2_4096.length = 256 ∧ log2_4096.sum = 6864894 := by decide +kernel

theorem test_log2_4096_weighted : ((List.range 256).map (fun i => (i + 1) * log2_4096.getD i 0)).sum = 979600031 := by
  decide +kernel

theorem test_log2_8_sum : ((List.range 256).map log2_8).sum = 1538 := by decide +kernel

theorem test_formula_anchors : formulaInvExp.length = 33 ∧ formulaInvExp.sum = 1081344 := by decide

/-! ### Control -/

theorem test_nop : after .nop State.reset (fun t => (t.cmdcnt, statusWord t)) = some (1, 0) := by decide +kernel

/-- `CLRERR` after vector B3d. -/
theorem test_clrerr :
    after .clrerr (takeError 0x02000001 ⟨.illegalCommand, 0⟩ (arg 5 State.reset))
      (fun t => (statusWord t, t.errcmd, t.errarg, t.cmdcnt)) = some (0, 0, 0, 2) := by decide +kernel

/-- Rule R242: `CMDCNT` is left 0 and the buffers are kept. -/
theorem test_sreset :
    after .sreset w31 (fun t => (t.cmdcnt, t.wbits, statusWord t, t.omem)) = some (0, 0, 0, w31.omem) := by
  decide +kernel

/-! ### The bitstream (vectors B1, B2, B3) -/

theorem test_open_writer :
    after (.openRole 1) (arg 4 State.reset) (fun t => (t.snkcap, t.srclen, statusWord t)) = some (4, 0, 1) := by
  decide +kernel

theorem test_open_reader :
    after (.openRole 2) (arg 4 State.reset) (fun t => (t.snkcap, t.srclen, statusWord t)) = some (0, 4, 2) := by
  decide +kernel

theorem test_wrbit : after (.wrbit 1) w0 (fun t => (t.wbits, t.wbytes, t.wacc)) = some (1, 0, 0x80) := by decide +kernel

/-- Vector B1 row 7: the sink is full. -/
theorem test_wrbit_full :
    after (.wrbit 0) w32 (fun t => (statusWord t, t.wbits, t.errcmd)) = some (0x00104401, 32, 0x02000000) := by
  decide +kernel

/-- Vector B1 row 3. -/
theorem test_wrbits :
    after (.wrbits 12) (arg 0xABC { w0 with wbits := 1, wacc := 0x80 })
      (fun t => (t.wbits, t.wbytes, t.wacc, t.omem)) = some (13, 1, 0xE0, [(0, 0xD5)]) := by decide +kernel

/-- Vector B3b: a 64-bit field over nine bytes. -/
theorem test_wrbits_wide :
    after (.wrbits 64) (arg 0x0123456789ABCDEF { w0 with snkcap := 16, wbits := 1, wacc := 0x80 })
      (fun t => (t.wbits, t.wbytes, t.wacc, t.omem)) =
    some (65, 8, 0x80, [(0, 0x80), (1, 0x91), (2, 0xA2), (3, 0xB3), (4, 0xC4), (5, 0xD5), (6, 0xE6), (7, 0xF7)]) := by
  decide +kernel

theorem test_rdbit : after .rdbit r0 (fun t => (t.res, t.rbits, rbytes t)) = some (1, 1, 1) := by decide +kernel

/-- Vector B2 row 4. -/
theorem test_rdbits : after (.rdbits 12) { r0 with rbits := 1 } (fun t => (t.res, t.rbits, rbytes t)) = some (0xABC, 13, 2) := by
  decide +kernel

/-- Vector B2 row 6: nothing consumed, `RES` kept. -/
theorem test_rdbits_past_end :
    after (.rdbits 17) { r16 with res := 6 } (fun t => (statusWord t, t.rbits, t.res, t.errcmd)) =
      some (0x00002202, 16, 6, 0x05000011) := by decide +kernel

theorem test_hasmore : (after .hasmore r31 State.res, after .hasmore r32 State.res) = (some 1, some 0) := by decide +kernel

/-- Vector B3i: role before closed. -/
theorem test_hasmore_order :
    (after .hasmore wc State.err, after .hasmore rc State.err) =
      (some (.err .illegalCommand), some (.err .streamClosed)) := by decide +kernel

/-- Vector B3a. -/
theorem test_close :
    after .close w3 (fun t => (t.omem, t.wbytes, t.wbits, t.wacc, statusWord t)) = some ([(0, 0xA0)], 1, 3, 0, 5) := by
  decide +kernel

/-- Vector B1 row 10. -/
theorem test_close_again : after .close wc (fun t => (t.omem, t.wbytes, t.err)) = some (wc.omem, 4, .ok) := by decide +kernel

/-! ### The logistic engine (vectors L1, L2, L3) -/

theorem test_squash :
    ([-2047, -1963, -1962, -1024, -129, -1, 0, 1, 63, 128, 1962, 1963, 2047, 2048].map (squash defaultInvExp)) =
      [0, 0, 1, 59, 1555, 2044, 2048, 2051, 2288, 2536, 4094, 4095, 4095, 4095] := by decide +kernel

theorem test_squash_signed :
    (after .squash (arg 0xFFFFFFFFFFFFFFFF State.reset) State.res, after .squash (arg 0x8000000000000000 State.reset) State.res)
      = (some 2044, some 0) := by decide +kernel

theorem test_stretch :
    ([0, 1, 2, 3, 4, 5, 4095].map (stretch defaultInvExp)) = [-2047, -1962, -1859, -1761, -1690, -1637, 2047] := by decide +kernel

theorem test_stretch_sign_extends :
    after .stretch (arg 1 State.reset) State.res = some 0xFFFFFFFFFFFFF856 := by decide +kernel

theorem test_log2 :
    ([1, 3, 16, 255, 256, 65535, 65536, 2147483648, 4294967295].map log2Floor) = [0, 1, 4, 7, 8, 15, 16, 31, 31] := by
  decide +kernel

theorem test_log2_zero :
    after .log2 State.reset (fun t => (t.err, t.res)) = some (.err .invalidArgument, 0) := by decide +kernel

theorem test_log2k :
    ([1, 3, 7, 100, 255, 256, 257, 258, 511, 1000, 1031, 1032, 65535, 74752, 1000000, 2147483649, 4294967295].map log2Scaled) =
      [0, 1623, 2875, 6803, 8186, 8192, 8192, 8204, 9210, 10205, 10240, 10252, 16378, 16579, 20409, 31744, 32762] := by
  decide +kernel

theorem test_log2k_result : after .log2k (arg 0xFFFFFFFF State.reset) State.res = some 32762 := by decide +kernel

/-! ### The adaptive probability map (vectors A1, A3) -/

/-- Vector A1, the last context. -/
theorem test_apmnew :
    after (.apmnew 7) (arg 3 State.reset)
      (fun t => (statusWord t, t.apmn, t.apmrate, [66, 70, 82, 98, 99].map (Memory.read t.cell))) =
    some (0x10, 3, 7, [some 0, some 112, some 32768, some 65520, none]) := by decide +kernel

/-- Row 4 of the sequence of rule R197 (vector A2), from the two cells of the bracket as row 3 leaves them. -/
theorem test_apmget :
    after (.apmget 0 0)
      { arg 1 (withMap State.reset) with
        apmn := 2, apmidx := 50,
        cell := Memory.write 50 40771 (Memory.write 51 48391 (Memory.fill 66 (fun i => apmSeed defaultInvExp (i % 33)) [])) }
      (fun t => (t.res, t.apmidx, [49, 50, 51].map (Memory.read t.cell))) =
    some (0, 33, [some 32768, some 40452, some 48012]) := by decide +kernel

/-- Row 5 of the same sequence. -/
theorem test_apmget_top :
    after (.apmget 1 4095)
      { arg 1 (withMap State.reset) with
        apmn := 2, apmidx := 33, cell := Memory.fill 66 (fun i => apmSeed defaultInvExp (i % 33)) [] }
      (fun t => (t.res, t.apmidx, [33, 34].map (Memory.read t.cell))) = some (4094, 64, [some 512, some 528]) := by
  decide +kernel

/-! ### The entropy coder (vectors E1, E2, E3) -/

theorem test_ecinit_writer :
    after (.ecinit 1 0) w0 (fun t => (statusWord t, t.echigh, t.ecpred, t.ecpr)) = some (0x00010009, 0xFFFFFFFF, 32768, 2048) := by
  decide +kernel

/-- Vector E3 row 1, over the bytes of vector B2. -/
theorem test_ecinit_reader :
    after (.ecinit 1 0) r0 (fun t => (statusWord t, t.eccode, t.rbits)) = some (0x0001000A, 0xD5E61234, 32) := by decide +kernel

/-- Vector E2 row 2. -/
theorem test_ecenc :
    after (.ecenc 1) { coding w0 with eclow := 0x7FFFF801, ecpred := 32256 }
      (fun t => (t.eclow, t.echigh, t.ecpred, t.ecpr, t.eclast)) = some (0x7FFFF801, 0xBEFFF801, 32776, 2016, 1) := by
  decide +kernel

/-- Rules R215 and R217 by hand: the split of [0x7FFFFFFF, 0x80000000] is its low end, and bit 0 settles all four bytes. -/
theorem test_ecenc_shifts :
    after (.ecenc 0) (narrowest w0) (fun t => (t.omem, t.wbits, t.eclow, t.echigh)) =
      some ([(0, 0x80), (1, 0), (2, 0), (3, 0)], 32, 0, 0xFFFFFFFF) := by decide +kernel

/-- Vector E3 row 3. -/
theorem test_ecdec :
    after .ecdec { coding r32 with eccode := 0x9D7813F6, eclow := 0x7FFFF801, ecpred := 32256 }
      (fun t => (t.res, t.eclow, t.echigh, t.ecpred, t.rbits)) = some (1, 0x7FFFF801, 0xBEFFF801, 32776, 32) := by
  decide +kernel

/-- Vector E3 row 10: the step needs a shift and the source is used up. -/
theorem test_ecdec_past_end :
    after .ecdec { coding r32 with eccode := 0x9D7813F6, eclow := 0x9D7813F6, echigh := 0x9E6FF534, ecpred := 31791, res := 1 }
      (fun t => (t.err, t.res, t.eclow, t.echigh, t.ecpred)) =
    some (.err .endOfStream, 1, 0x9D7813F6, 0x9E6FF534, 31791) := by decide +kernel

/-- Vector E2 row 9. -/
theorem test_ecfin :
    after .ecfin { coding w0 with eclow := 0x9D7813F6 } (fun t => (t.omem, t.wbits, t.wbytes, statusWord t)) =
      some ([(0, 0x9D), (1, 0x78), (2, 0x13), (3, 0xF6)], 32, 4, 1) := by decide +kernel

/-- Vector E3 row 11: a reader's `ECFIN` reads nothing. -/
theorem test_ecfin_reader : after .ecfin (coding r32) (fun t => (t.rbits, statusWord t)) = some (32, 2) := by decide +kernel

/-! ### The host's side -/

/-- `withFetchWord` makes the word the next input, and the step runs it (log 4). -/
theorem test_step_runs_word :
    (ran (step (State.reset.withFetchWord 32 0x7E000000))).map (fun t => (t.cmdcnt, t.hostIn)) = some (1, []) := by decide +kernel

/-- Rule R305: the `CMD` write that would open a reader over four bytes of which the last was never written is refused; with that
byte written it opens. -/
theorem test_open_unwritten :
    (ran (issueWord 0x01000002 (arg 4 { State.reset with imem := [(0, 0xD5), (1, 0xE6), (2, 0x12)] })) = none) ∧
      (ran (issueWord 0x01000002 (arg 4 { State.reset with imem := r0.imem }))).map State.srclen = some 4 := by decide +kernel

/-- Rule R78 on the bus: a delivered byte of `OMEM`. -/
theorem test_bus_reads_omem :
    (ran (busRead (2 ^ 32 + 3) 8 w32)).map State.hostOut = some 0x34 := by decide +kernel

/-- Rule R119: eight `ECENC` commands, the contexts being the bits so far below a leading 1. -/
theorem test_pseudo_ecencb :
    (pseudoEcencb 0x61).take 6 =
      [.move (.writeArg 1), .move (.writeCmd 0x31000000), .move (.writeArg 2), .move (.writeCmd 0x31000001),
        .move (.writeArg 5), .move (.writeCmd 0x31000001)] := by decide +kernel

/-! ### Witnesses: states that meet the invariant -/

theorem w0_inv : w0.Inv := by constructor <;> decide +kernel

theorem w16_inv : w16.Inv := by constructor <;> decide +kernel

theorem w31_inv : w31.Inv := by constructor <;> decide +kernel

theorem w32_inv : w32.Inv := by constructor <;> decide +kernel

theorem wc_inv : wc.Inv := by constructor <;> decide +kernel

theorem r16_inv : r16.Inv := by constructor <;> decide +kernel

/-- An encoder that uses the map, at the narrowest interval and the smallest predictor, with room for exactly the four bytes. -/
def encoder : State := { refined (narrowest w0) with ecpred := 63 }

theorem encoder_inv : encoder.Inv := by constructor <;> decide +kernel

/-- The same with room for three bytes only. -/
def encoderShort : State := { encoder with snkcap := 3 }

theorem encoderShort_inv : encoderShort.Inv := by constructor <;> decide +kernel

/-- A decoder that uses the map, at the narrowest interval, with exactly four bytes left. -/
def decoder : State := { refined (narrowest r0) with ecpred := 63, eccode := 0x80000000 }

theorem decoder_inv : decoder.Inv := by constructor <;> decide +kernel

/-- The same at the end of its source. -/
def decoderShort : State := { decoder with rbits := 32 }

theorem decoderShort_inv : decoderShort.Inv := by constructor <;> decide +kernel

/-! ### Witnesses: the hypotheses of each statement, clause by clause, can be met -/

theorem witness_DecodeOfEncode :
    (Instr.openRole 1).wf = true ∧ (Instr.wrbits 127).wf = true ∧ (Instr.apmget 1 4095).wf = true ∧
      (Instr.ecinit 15 1).wf = true := by decide

theorem witness_EncodeOfDecode : decode 0x21001FFF = .ok (.apmget 1 4095) ∧ decode 0x01000002 = .ok (.openRole 2) := ⟨rfl, rfl⟩

/-- The ends of all five reserved ranges, with every field bit 0 and with every field bit 1. -/
theorem witness_ReservedOpcodeRaises :
    ∀ opc ∈ [0x08, 0x0F, 0x14, 0x1F, 0x22, 0x2F, 0x34, 0x7D, 0x80, 0xFF],
      ((0x08 ≤ opc ∧ opc ≤ 0x0F) ∨ (0x14 ≤ opc ∧ opc ≤ 0x1F) ∨ (0x22 ≤ opc ∧ opc ≤ 0x2F) ∨ (0x34 ≤ opc ∧ opc ≤ 0x7D) ∨
        (0x80 ≤ opc ∧ opc ≤ 0xFF)) ∧
      (BitVec.ofNat 32 (opc * 2 ^ 24)).toNat / 2 ^ 24 = opc ∧
      (BitVec.ofNat 32 (opc * 2 ^ 24 + (2 ^ 24 - 1))).toNat / 2 ^ 24 = opc := by decide

/-- For each operation code and its number of field bits: the lowest reserved bit alone, and all bits. -/
theorem witness_ReservedBitsRaise :
    ∀ c ∈ [(0x00, 0), (0x01, 2), (0x02, 1), (0x03, 7), (0x04, 0), (0x05, 7), (0x06, 0), (0x07, 0), (0x10, 0), (0x11, 0),
        (0x12, 0), (0x13, 0), (0x20, 4), (0x21, 13), (0x30, 5), (0x31, 1), (0x32, 0), (0x33, 0), (0x7E, 0), (0x7F, 0)],
      ∀ field ∈ [2 ^ c.2, 2 ^ 24 - 1],
        (BitVec.ofNat 32 (c.1 * 2 ^ 24 + field)).toNat / 2 ^ 24 = c.1 ∧
        2 ^ c.2 ≤ (BitVec.ofNat 32 (c.1 * 2 ^ 24 + field)).toNat % 2 ^ 24 := by decide

theorem witness_StepRunsIssuedCommand :
    (w0.withFetchWord 32 0x02000001).hostIn = .move (.writeCmd 0x02000001) :: [] ∧ decode 0x02000001 = .ok (.wrbit 1) ∧
      (w0.withFetchWord 32 0x08000000).hostIn = .move (.writeCmd 0x08000000) :: [] ∧
      decode 0x08000000 = .error .reservedOpcode := ⟨rfl, rfl, rfl, rfl⟩

/-- An `OPEN` of a reader: over its four bytes all written, over no byte, and over four bytes of which the last is missing. -/
theorem witness_StepRunsIssuedCommand_open :
    decode 0x01000002 = .ok (.openRole 2) ∧
      (Memory.wf r0.imem = true ∧ ∀ a < (arg 4 r0).arg.toNat, (Memory.read r0.imem a).isSome = true) ∧
      (Memory.wf State.reset.imem = true ∧ State.reset.arg.toNat = 0) ∧
      (arg 1 State.reset).role = .none ∧ (arg 1 State.reset).arg.toNat ≤ (arg 1 State.reset).params.imemSize ∧
      ∃ a < (arg 1 State.reset).arg.toNat, Memory.read (arg 1 State.reset).imem a = none :=
  ⟨rfl, by decide +kernel, by decide, rfl, by decide, 0, by decide, rfl⟩

theorem witness_IdleStepChangesNothing : w0.hostIn = [] := rfl

theorem witness_HostWritesTakeEffect :
    (w0.role ≠ .reader ∧ 65535 < w0.params.imemSize) ∧ (State.reset.role ≠ .reader ∧ 0 < State.reset.params.imemSize) ∧
      r0.role = .reader := by decide

theorem witness_HostReadsAnswer :
    65535 < w31.params.imemSize ∧ (2 < w31.wbytes.toNat ∧ 2 < w31.params.omemSize) ∧
      (encoder.apmvld = true ∧ 32 < 33 * encoder.apmn.toNat ∧ 32 < 33 * encoder.params.apmMaxCtx) := by decide

theorem witness_RegisterPageOnBus : defaultParams.Valid := by decide +kernel

/-- Parameters with the `CELL` window moved out of the region. -/
def movedParams : Params := { defaultParams with apmMaxCtx := 7944 }

/-- The first and the last reserved offset, the ends of the gap below and above the `CELL` window, and a moved window. -/
theorem witness_RegisterPageOnBus_reserved :
    (∀ c ∈ [(0xB8, 64), (0xFF, 8), (0x100, 32), (0xFFFFF, 8), (0x100000 + 132 * 1024, 32), (2 ^ 24 - 1, 8)],
      c.2 ∈ [8, 16, 32, 64] ∧ c.1 % (c.2 / 8) = 0 ∧ 0xB8 ≤ c.1 ∧ c.1 < 2 ^ 24 ∧
        (c.1 < 0x100000 ∨ 0x100000 + 132 * defaultParams.apmMaxCtx ≤ c.1)) ∧
      defaultParams.apmMaxCtx ≤ 7943 ∧ movedParams.Valid ∧ 7943 < movedParams.apmMaxCtx ∧
      Apart movedParams.base (2 ^ 24) movedParams.cellBase (132 * movedParams.apmMaxCtx) := by decide +kernel

theorem witness_WindowsOnBus :
    (defaultParams.Valid ∧ defaultParams.WindowsApart ∧ defaultParams.apmMaxCtx ≤ 7943) ∧
      movedParams.Valid ∧ movedParams.WindowsApart ∧ 7943 < movedParams.apmMaxCtx :=
  ⟨⟨by decide +kernel, by unfold Params.WindowsApart; decide +kernel, by decide⟩,
    by decide +kernel, by unfold Params.WindowsApart; decide +kernel, by decide⟩

theorem witness_TakingAnError : w0.firsterr = .ok ∧ (takeError 0 ⟨.illegalCommand, 0⟩ w0).firsterr ≠ .ok := by decide

theorem witness_FailureChangesOnlyReport : ∃ t, exec (.wrbit 0) w32 = .next t ∧ t.err ≠ .ok :=
  next_of_ran (by decide +kernel)

/-- A first failure and a later one. -/
theorem witness_ErrcmdIsIssuedWord :
    (∃ t, hostMove (.writeCmd 0x02000000) w32 = .next t ∧ t.err ≠ .ok ∧ w32.firsterr = .ok) ∧
      ∃ t, hostMove (.writeCmd 0xFFFFFFFF) (takeError 0 ⟨.illegalCommand, 0⟩ w32) = .next t ∧ t.err ≠ .ok ∧
        (takeError 0 ⟨.illegalCommand, 0⟩ w32).firsterr ≠ .ok :=
  ⟨next_of_ran (by decide +kernel), next_of_ran (by decide +kernel)⟩

/-- The smallest and the largest capacity and length. -/
theorem witness_OpenBindsBuffer :
    State.reset.role = .none ∧ (State.reset.arg.toNat ≤ 65536 ∧ (arg 65536 State.reset).arg.toNat ≤ 65536) ∧
      State.reset.params.omemSize = 65536 ∧ State.reset.params.imemSize = 65536 := by decide

/-- The last bit of the sink by either command, and a field of 64 bits that fills a sink of eight bytes. -/
theorem witness_WritesAppendBits :
    (w31.Inv ∧ w31.role = .writer ∧ w31.closed = false ∧ w31.ecact = false ∧ w31.wbits.toNat + 1 ≤ 8 * w31.snkcap.toNat) ∧
      ({ w0 with snkcap := 8 } : State).Inv ∧ w0.role = .writer ∧ w0.closed = false ∧ w0.ecact = false ∧
      1 ≤ (64 : BitVec 7).toNat ∧ (64 : BitVec 7).toNat ≤ 64 ∧ w0.wbits.toNat + (64 : BitVec 7).toNat ≤ 8 * (8 : Word64).toNat :=
  ⟨⟨w31_inv, by decide⟩, by constructor <;> decide +kernel, by decide⟩

/-- The last bit of the source by either command, and a field of 64 bits that empties a source of eight bytes. -/
theorem witness_ReadsConsumeBits :
    (r31.role = .reader ∧ r31.closed = false ∧ r31.ecact = false ∧ r31.rbits.toNat + 1 ≤ 8 * r31.srclen.toNat) ∧
      r0.role = .reader ∧ r0.closed = false ∧ r0.ecact = false ∧ 1 ≤ (64 : BitVec 7).toNat ∧ (64 : BitVec 7).toNat ≤ 64 ∧
      r0.rbits.toNat + (64 : BitVec 7).toNat ≤ 8 * ({ r0 with srclen := 8 } : State).srclen.toNat := by decide

theorem witness_HasmoreAnswers :
    (r31.role = .reader ∧ r31.closed = false ∧ r31.rbits.toNat < 8 * r31.srclen.toNat) ∧
      r32.role = .reader ∧ r32.closed = false ∧ 8 * r32.srclen.toNat ≤ r32.rbits.toNat := by decide

theorem witness_CloseEndsStream :
    (wc.role ≠ .none ∧ wc.closed = true) ∧ (rc.role ≠ .none ∧ rc.closed = true) ∧
      (r31.role ≠ .none ∧ r31.closed = false ∧ r31.ecact = false ∧ r31.role = .reader) ∧
      (w32.role ≠ .none ∧ w32.closed = false ∧ w32.ecact = false ∧ w32.wbits.toNat % 8 = 0) ∧
      (w31.role = .writer ∧ w31.closed = false ∧ w31.ecact = false ∧ w31.wbits.toNat % 8 ≠ 0) := by decide

/-- Both ends, and the first and the last logit between them with their anchors. -/
theorem witness_SquashInterpolates :
    2048 ≤ (arg 2048 w0).arg.toInt ∧ (arg (-2048) w0).arg.toInt ≤ -2048 ∧
      (-2047 ≤ (arg (-2047) w0).arg.toInt ∧ (arg (-2047) w0).arg.toInt = 128 * (((0 : Nat) : Int) - 16) + ((1 : Nat) : Int)) ∧
      ((arg 2047 w0).arg.toInt ≤ 2047 ∧
        (arg 2047 w0).arg.toInt = 128 * (((31 : Nat) : Int) - 16) + ((127 : Nat) : Int)) := by decide

/-- Level 4095; a level that is reached; a level no logit reaches, for anchors that are all 0. -/
theorem witness_StretchInverts :
    (arg 4095 w0).arg.toNat ≤ 4095 ∧
      ((arg 4094 w0).arg.toNat ≤ 4095 ∧ (arg 4094 w0).arg.toNat ≠ 4095 ∧
        (arg 4094 w0).arg.toNat ≤ squash (arg 4094 w0).params.invExp 2047) ∧
      ∀ e, -2047 ≤ e → e ≤ 2047 → squash (List.replicate 33 0) e < (arg 1 w0).arg.toNat := by
  refine ⟨by decide, by decide +kernel, fun e h₁ h₂ => ?_⟩
  have h0 : ∀ n j, anchor (List.replicate n 0) j = 0 := fun n j => by
    simp only [anchor, List.getD_eq_getElem?_getD, List.getElem?_replicate]; split <;> rfl
  have : squash (List.replicate 33 0) e = 0 := by
    unfold squash squashEntry
    rw [if_neg (by omega), if_neg (by omega)]
    simp only [h0, Nat.zero_mul, Nat.add_zero, Nat.zero_div]
  rw [this]; decide

theorem witness_Log2IsFloor :
    ((arg 1 w0).arg.toNat ≠ 0 ∧ (arg 1 w0).arg.toNat < 2 ^ 32) ∧
      (arg 0xFFFFFFFF w0).arg.toNat ≠ 0 ∧ (arg 0xFFFFFFFF w0).arg.toNat < 2 ^ 32 := by decide

/-- The ends of the three ranges, which exclude each other. -/
theorem witness_Log2kByTable :
    (1 < 256 ∧ 255 < 256) ∧ (256 = 2 ^ 8 ∧ 8 ≤ 8) ∧ (2 ^ 31 < 2 ^ 32 ∧ 8 ≤ 31) ∧ (2 ^ 8 < 257 ∧ 257 < 2 ^ (8 + 1)) ∧
      (2 ^ 31 < (arg 0xFFFFFFFF w0).arg.toNat ∧ (arg 0xFFFFFFFF w0).arg.toNat < 2 ^ (31 + 1)) := by decide

theorem witness_SquashMonotoneBounded : defaultParams.Valid ∧ ((-2100 : Int) ≤ 2100) := ⟨witness_RegisterPageOnBus, by decide⟩

theorem witness_StretchIsSweptTable : 0 ≤ 4095 ∧ 4095 ≤ 4095 := by decide

theorem witness_StretchAfterSquash :
    defaultParams.Valid ∧ squash defaultParams.invExp (-2047) ≠ 4095 ∧ squash defaultParams.invExp 1962 ≠ 4095 :=
  ⟨witness_RegisterPageOnBus, by decide +kernel⟩

/-- One context and as many as the cell memory holds. -/
theorem witness_ApmnewSeeds :
    w0.params.Valid ∧ ¬ (w0.ecact = true ∧ w0.ecapm = true) ∧ 1 ≤ (arg 1 w0).arg.toNat ∧
      1 ≤ (arg 1024 w0).arg.toNat ∧ (arg 1024 w0).arg.toNat ≤ w0.params.apmMaxCtx := ⟨witness_RegisterPageOnBus, by decide⟩

theorem witness_ApmgetSteps :
    (withMap w16).Inv ∧ (withMap w16).apmvld = true ∧ ¬ ((withMap w16).ecact = true ∧ (withMap w16).ecapm = true) ∧
      (withMap w16).arg.toNat < (withMap w16).apmn.toNat := ⟨by constructor <;> decide +kernel, by decide⟩

theorem witness_EcinitStartsWriter :
    (w0.role ≠ .none ∧ w0.closed = false ∧ w0.ecact = false ∧ w0.role = .writer) ∧
      (withMap w0).role = .writer ∧ (withMap w0).closed = false ∧ (withMap w0).ecact = false ∧ (withMap w0).apmvld = true := by
  decide

theorem witness_EcinitPrimesReader :
    ∀ s ∈ [withMap r0], s.role = .reader ∧ s.closed = false ∧ s.ecact = false ∧ s.apmvld = true ∧
      s.rbits.toNat + 32 ≤ 8 * s.srclen.toNat := by decide

theorem witness_PredictRefines :
    (w0.Inv ∧ w0.ecapm = false) ∧ encoder.Inv ∧ encoder.ecapm = true ∧ 0 < encoder.apmn.toNat :=
  ⟨⟨w0_inv, rfl⟩, encoder_inv, by decide⟩

/-- Four settled bytes into exactly four bytes of room, for either bit. -/
theorem witness_EcencCodesBit :
    encoder.Inv ∧ encoder.role = .writer ∧ encoder.closed = false ∧ encoder.ecact = true ∧ encoder.ecapm = true ∧
      encoder.arg.toNat < encoder.apmn.toNat ∧
      ∀ bit : BitVec 1, encoder.wbits.toNat +
        8 * settledBytes
          (narrowedLow (bit == 1) encoder.eclow.toNat encoder.echigh.toNat (predict encoder.arg.toNat encoder).1.toNat)
          (narrowedHigh (bit == 1) encoder.eclow.toNat encoder.echigh.toNat (predict encoder.arg.toNat encoder).1.toNat) =
        8 * encoder.snkcap.toNat := ⟨encoder_inv, by decide +kernel⟩

/-- The same for a decoder; its bit is 0. -/
theorem witness_EcdecDecodesBit :
    decoder.Inv ∧ decoder.role = .reader ∧ decoder.closed = false ∧ decoder.ecact = true ∧ decoder.ecapm = true ∧
      decoder.arg.toNat < decoder.apmn.toNat ∧
      decide (decoder.eccode.toNat ≤
        midPoint decoder.eclow.toNat decoder.echigh.toNat (predict decoder.arg.toNat decoder).1.toNat) = false ∧
      decoder.rbits.toNat +
        8 * settledBytes
          (narrowedLow false decoder.eclow.toNat decoder.echigh.toNat (predict decoder.arg.toNat decoder).1.toNat)
          (narrowedHigh false decoder.eclow.toNat decoder.echigh.toNat (predict decoder.arg.toNat decoder).1.toNat) =
        8 * decoder.srclen.toNat := ⟨decoder_inv, by decide +kernel⟩

theorem witness_EcfinStopsCoder :
    (encoder.Inv ∧ encoder.role = .writer ∧ encoder.ecact = true ∧ encoder.wbits.toNat + 32 ≤ 8 * encoder.snkcap.toNat) ∧
      decoderShort.role = .reader ∧ decoderShort.closed = false ∧ decoderShort.ecact = true := ⟨⟨encoder_inv, by decide⟩, by decide⟩

theorem witness_SplitInsideInterval : (narrowest w0).eclow.toNat < (narrowest w0).echigh.toNat := by decide

/-- The encoder codes 0 and writes four bytes; the decoder over `80 00 00 00` decodes 0 and reads four. -/
theorem witness_LockstepOfOneBit :
    SameCoder encoder decoder ∧ encoder.arg = decoder.arg ∧
      (∃ e', exec (.ecenc 0) encoder = .next e' ∧ e'.err = .ok) ∧
      ∃ d', exec .ecdec decoder = .next d' ∧ d'.err = .ok ∧ d'.res = (0 : BitVec 1).setWidth 64 :=
  ⟨by unfold SameCoder; decide +kernel, rfl, next_of_ran (by decide +kernel), next_of_ran (by decide +kernel)⟩

theorem witness_WrongRoleIsIllegal :
    State.reset.role ≠ .writer ∧ State.reset.role ≠ .reader ∧ State.reset.role = .none ∧ r0.role ≠ .writer ∧
      w0.role ≠ .reader := by decide

theorem witness_ClosedStreamIsClosed :
    (wc.closed = true ∧ wc.role = .writer ∧ wc.role ≠ .none) ∧ rc.closed = true ∧ rc.role = .reader ∧ rc.role ≠ .none := by decide

theorem witness_CoderStateExcludes :
    (encoder.closed = false ∧ encoder.ecact = true ∧ encoder.role = .writer ∧ encoder.ecapm = true) ∧
      (decoder.closed = false ∧ decoder.ecact = true ∧ decoder.role = .reader) ∧
      (w0.closed = false ∧ w0.ecact = false ∧ w0.role = .writer) ∧ r0.closed = false ∧ r0.ecact = false ∧ r0.role = .reader := by
  decide

theorem witness_IllegalLengthRaises :
    (w0.closed = false ∧ w0.ecact = false ∧ w0.role = .writer) ∧ (r0.closed = false ∧ r0.ecact = false ∧ r0.role = .reader) ∧
      (0 : BitVec 7).toNat = 0 ∧ 65 ≤ (65 : BitVec 7).toNat ∧ 65 ≤ (127 : BitVec 7).toNat := by decide

/-- One bit too many for each command. -/
theorem witness_FullSinkRaises :
    (w32.role = .writer ∧ w32.closed = false ∧ w32.ecact = false ∧ 8 * w32.snkcap.toNat < w32.wbits.toNat + 1) ∧
      (w31.role = .writer ∧ w31.closed = false ∧ w31.ecact = false ∧
        8 * w31.snkcap.toNat < w31.wbits.toNat + (2 : BitVec 7).toNat) ∧
      (encoderShort.role = .writer ∧ encoderShort.closed = false ∧ encoderShort.ecact = true ∧
        8 * encoderShort.snkcap.toNat < encoderShort.wbits.toNat + 32) := by decide

theorem witness_PastEndRaises :
    (r32.role = .reader ∧ r32.closed = false ∧ r32.ecact = false ∧ 8 * r32.srclen.toNat < r32.rbits.toNat + 1) ∧
      (r31.role = .reader ∧ r31.closed = false ∧ r31.ecact = false ∧
        8 * r31.srclen.toNat < r31.rbits.toNat + (2 : BitVec 7).toNat) ∧
      (withMap { r0 with rbits := 1 }).apmvld = true ∧
      8 * (withMap { r0 with rbits := 1 }).srclen.toNat < (withMap { r0 with rbits := 1 }).rbits.toNat + 32 := by decide

/-- One byte too few for the four settled ones, in each role. -/
theorem witness_CodingWithoutRoomRaises :
    (encoderShort.Inv ∧ encoderShort.closed = false ∧ encoderShort.ecact = true ∧ encoderShort.role = .writer ∧
      encoderShort.arg.toNat < encoderShort.apmn.toNat ∧
      ∀ bit : BitVec 1, 8 * encoderShort.snkcap.toNat < encoderShort.wbits.toNat +
        8 * settledBytes
          (narrowedLow (bit == 1) encoderShort.eclow.toNat encoderShort.echigh.toNat
            (predict encoderShort.arg.toNat encoderShort).1.toNat)
          (narrowedHigh (bit == 1) encoderShort.eclow.toNat encoderShort.echigh.toNat
            (predict encoderShort.arg.toNat encoderShort).1.toNat)) ∧
      decoderShort.Inv ∧ decoderShort.closed = false ∧ decoderShort.ecact = true ∧ decoderShort.role = .reader ∧
      decoderShort.arg.toNat < decoderShort.apmn.toNat ∧
      decide (decoderShort.eccode.toNat ≤ midPoint decoderShort.eclow.toNat decoderShort.echigh.toNat
        (predict decoderShort.arg.toNat decoderShort).1.toNat) = false ∧
      8 * decoderShort.srclen.toNat < decoderShort.rbits.toNat +
        8 * settledBytes
          (narrowedLow false decoderShort.eclow.toNat decoderShort.echigh.toNat
            (predict decoderShort.arg.toNat decoderShort).1.toNat)
          (narrowedHigh false decoderShort.eclow.toNat decoderShort.echigh.toNat
            (predict decoderShort.arg.toNat decoderShort).1.toNat) :=
  ⟨⟨encoderShort_inv, by decide +kernel⟩, decoderShort_inv, by decide +kernel⟩

theorem witness_OpenRaises :
    w0.role ≠ .none ∧ (arg 65537 State.reset).role = .none ∧
      (arg 65537 State.reset).params.omemSize < (arg 65537 State.reset).arg.toNat ∧
      (arg 65537 State.reset).params.imemSize < (arg 65537 State.reset).arg.toNat := by decide

theorem witness_LogisticOperandRaises :
    4096 ≤ (arg 4096 w0).arg.toNat ∧ (arg 0 w0).arg.toNat = 0 ∧ 2 ^ 32 ≤ (arg (2 ^ 32) w0).arg.toNat := by decide

theorem witness_MapOperandRaises :
    (¬ (w0.ecact = true ∧ w0.ecapm = true) ∧ (arg 0 w0).arg.toNat = 0 ∧
        (arg 1025 w0).params.apmMaxCtx < (arg 1025 w0).arg.toNat) ∧
      w0.apmvld = false ∧
      ((withMap w0).apmvld = true ∧ ¬ ((withMap w0).ecact = true ∧ (withMap w0).ecapm = true) ∧
        (withMap (arg 1 w0)).apmn.toNat ≤ (withMap (arg 1 w0)).arg.toNat) ∧
      (encoder.closed = false ∧ encoder.ecact = true ∧ encoder.ecapm = true ∧ encoder.role = .writer ∧
        (arg 1 encoder).apmn.toNat ≤ (arg 1 encoder).arg.toNat) ∧
      decoder.closed = false ∧ decoder.ecact = true ∧ decoder.ecapm = true ∧ decoder.role = .reader ∧
        (arg 1 decoder).apmn.toNat ≤ (arg 1 decoder).arg.toNat := by decide

theorem witness_EcinitRaises :
    (w0.closed = false ∧ w0.ecact = false ∧ w0.role ≠ .none ∧ w0.apmvld = false) ∧
      (2 ≤ (2 : BitVec 4).toNat ∧ 2 ≤ (15 : BitVec 4).toNat) ∧
      ((withMap r0).closed = false ∧ (withMap r0).ecact = false ∧ (withMap r0).apmvld = true ∧ (withMap r0).role = .reader) ∧
      (withMap w0).closed = false ∧ (withMap w0).ecact = false ∧ (withMap w0).apmvld = true ∧ (withMap w0).role = .writer ∧
        (withMap w0).role ≠ .none := by decide

theorem witness_ResetState : (Instr.openRole 1).wf = true ∧ (Instr.openRole 2).wf = true ∧ (Instr.apmnew 0).wf = true := by
  decide

/-- The reserved bits of `SRESET`, the lowest alone and all of them. -/
theorem witness_SresetClearsRegisters :
    (0x7F000001 : Word32).toNat / 2 ^ 24 = 0x7F ∧ (0x7F000001 : Word32).toNat % 2 ^ 24 ≠ 0 ∧
      (0x7FFFFFFF : Word32).toNat / 2 ^ 24 = 0x7F ∧ (0x7FFFFFFF : Word32).toNat % 2 ^ 24 ≠ 0 := by decide

theorem witness_StepKeepsInvariant :
    ({ w31 with hostIn := [.move (.writeCmd 0x02000001)] } : State).Inv ∧
      ∃ t, step { w31 with hostIn := [.move (.writeCmd 0x02000001)] } = .next t ∧ t.wbytes = 4 :=
  ⟨by constructor <;> decide +kernel, next_of_ran (by decide +kernel)⟩

/-- A reader over written bytes, and the step that opens one. -/
theorem witness_StepKeepsInvariant_source :
    r0.SourceWritten ∧
      ∃ t, step { arg 4 State.reset with imem := r0.imem, hostIn := [.move (.writeCmd 0x01000002)] } = .next t ∧
        t.role = .reader :=
  ⟨by unfold State.SourceWritten; decide +kernel, next_of_ran (by decide +kernel)⟩

theorem witness_CountersNeverFall :
    (w31.Inv ∧ ∃ t, exec (.wrbit 1) w31 = .next t ∧ t.wbits = 32) ∧
      r16.Inv ∧ ∃ t, exec (.rdbits 16) r16 = .next t ∧ t.rbits = 32 :=
  ⟨⟨w31_inv, next_of_ran (by decide +kernel)⟩, r16_inv, next_of_ran (by decide +kernel)⟩

theorem witness_RoleIsKept : w0.role ≠ .none ∧ ∃ t, exec .close w0 = .next t ∧ t.closed = true :=
  ⟨by decide, next_of_ran (by decide +kernel)⟩

theorem witness_CommandsLeaveInputs : ∃ t, exec (.wrbits 8) (arg 0x61 w16) = .next t ∧ t.err = .ok :=
  next_of_ran (by decide +kernel)

theorem witness_ClosedStreamStays :
    wc.Inv ∧ wc.closed = true ∧ (∃ t, exec .close wc = .next t ∧ t.err = .ok) ∧
      ∃ t, exec .sreset wc = .next t ∧ t.closed = false :=
  ⟨wc_inv, rfl, next_of_ran (by decide +kernel), next_of_ran (by decide +kernel)⟩

end Sys2Proof.Tests
end

/-! # The machine invariant

Each update a command is made of keeps `State.Inv`; the pieces not yet in `Laws/Invariant` come first, then the coder's
renormalisation, then one command, one move of the host, and one step. -/

namespace Sys2Proof.Machine

section Invariant

variable {s t u v n : State}

/-! ### Updates of the bitstream unit -/

/-- `OPEN` as a writer (rule R134). -/
theorem State.Inv.openWriter (h : s.Inv) (hr : s.role = .none) (hcap : s.arg.toNat ≤ s.params.omemSize) :
    ({ s with snkcap := s.arg, role := .writer } : State).Inv := by
  obtain ⟨-, -, hwbits, -, -⟩ := h.unopened hr
  exact { h with
    unopened := fun hx => by cases hx
    notWriter := fun hx => absurd rfl hx
    notReader := fun _ => h.notReader (by simp [hr])
    writerRoom := ⟨by simp [hwbits], hcap⟩
    coderOn := fun he => absurd hr (h.coderOn he).1 }

/-- `OPEN` as a reader (rule R134). -/
theorem State.Inv.openReader (h : s.Inv) (hr : s.role = .none) (hlen : s.arg.toNat ≤ s.params.imemSize) :
    ({ s with srclen := s.arg, role := .reader } : State).Inv := by
  obtain ⟨-, -, -, -, hrbits⟩ := h.unopened hr
  exact { h with
    unopened := fun hx => by cases hx
    notWriter := fun _ => h.notWriter (by simp [hr])
    notReader := fun hx => absurd rfl hx
    readerRoom := ⟨by simp [hrbits], hlen⟩
    coderOn := fun he => absurd hr (h.coderOn he).1 }

/-- `CLOSE` with no partial byte waiting (rule R140). -/
theorem State.Inv.closeWhole (h : s.Inv) (hr : s.role ≠ .none) (hc : s.closed = false) (he : s.ecact = false)
    (hw : s.wbits.toNat % 8 = 0) : ({ s with closed := true } : State).Inv := by
  have hbytes := h.bytesOpen hc
  have hacc : s.wacc = 0 := by
    have := h.accLow hc
    rwa [hw, show (0xFF : Byte) >>> 0 = BitVec.allOnes 8 from rfl, BitVec.and_allOnes] at this
  exact { h with
    unopened := fun hx => absurd hx hr
    bytesOpen := fun hx => by cases hx
    bytesClosed := fun _ => ⟨by change s.wbytes.toNat = (s.wbits.toNat + 7) / 8; omega, hacc⟩
    accLow := fun hx => by cases hx
    coderOn := fun hx => by simp [he] at hx }

/-- `CLOSE` of a writer that delivers its partial byte (rule R140). -/
theorem State.Inv.closePartial (h : s.Inv) (hr : s.role = .writer) (hc : s.closed = false) (he : s.ecact = false)
    (hw : s.wbits.toNat % 8 ≠ 0) : ({ s.withSink (s.sink.deliver s.wacc) with closed := true } : State).Inv := by
  have hbytes := h.bytesOpen hc
  obtain ⟨hroom, hcap⟩ := h.writerRoom
  have hnext : (s.wbytes + 1).toNat = s.wbytes.toNat + 1 := by
    have := s.wbits.isLt
    rw [BitVec.toNat_add, show (1 : Word64).toNat = 1 from rfl, Nat.mod_eq_of_lt (by omega)]
  exact { h with
    omemWf := Memory.write_wf _ _ _ h.omemWf
    omemBound := fun c hmem => by
      rcases Memory.mem_write hmem with rfl | hmem
      · change s.wbytes.toNat < s.params.omemSize; omega
      · exact h.omemBound c hmem
    unopened := fun hx => by cases hr.symm.trans hx
    notWriter := fun hx => absurd hr hx
    bytesOpen := fun hx => by cases hx
    bytesClosed := fun _ => ⟨by change (s.wbytes + 1).toNat = (s.wbits.toNat + 7) / 8; omega, rfl⟩
    accLow := fun hx => by cases hx
    delivered := fun a hlt => by
      change a < (s.wbytes + 1).toNat at hlt
      change (Memory.read (Memory.write s.wbytes.toNat s.wacc s.omem) a).isSome = true
      by_cases ha : a = s.wbytes.toNat
      · simp [ha]
      · rw [Memory.read_write_other ha]
        exact h.delivered a (by omega)
    coderOn := fun hx => by cases he.symm.trans hx }

/-- Bits put by a command into an open writer with room for them (rule R131). -/
theorem State.Inv.putDone {val k : Nat} (h : s.Inv) (hr : s.role = .writer) (hc : s.closed = false)
    (hroom : s.wbits.toNat + k ≤ 8 * s.snkcap.toNat) : (s.withSink (putLoop val k s.sink)).Inv := by
  have hcap := h.capacity
  exact h.withSink hr hc (putLoop_appended val k s.sink (h.sink_open hc) (by rw [sink_wbits]; omega)) hroom

/-! ### Updates of the map and of the coder -/

/-- `APMNEW` (rule R196): the map has `ARG` contexts, each cell of them seeded. -/
theorem State.Inv.newMap (rate : BitVec 4) (f : Nat → Cell16) (h : s.Inv) (hpos : 1 ≤ s.arg.toNat)
    (hmax : s.arg.toNat ≤ s.params.apmMaxCtx) :
    ({ s with
        apmn := BitVec.ofNat 32 s.arg.toNat, apmrate := rate, apmidx := 0, apmvld := true,
        cell := Memory.fill (33 * s.arg.toNat) f s.cell } : State).Inv := by
  have hlimit := h.paramsValid.2.2.1.2
  have hn : (BitVec.ofNat 32 s.arg.toNat).toNat = s.arg.toNat := by
    rw [BitVec.toNat_ofNat, Nat.mod_eq_of_lt (by omega)]
  exact { h with
    cellWf := Memory.fill_wf _ _ _ h.cellWf
    cellBound := fun c hmem => by
      rcases Memory.mem_fill hmem with hlt | hmem
      · change c.1 < 33 * s.params.apmMaxCtx; omega
      · exact h.cellBound c hmem
    refining := fun _ => rfl
    mapSize := fun _ => by simpa only [hn] using ⟨hpos, hmax⟩
    mapIndex := fun _ => by simp
    mapSeeded := fun _ i hi => by
      rw [hn] at hi
      rw [Memory.read_fill, if_pos hi]
      rfl }

/-- `ECINIT codec=FPAQ` (rule R213): a coder that has just started. -/
theorem State.Inv.started {apmen : BitVec 1} {code : Word32} (h : s.Inv) (hr : s.role ≠ .none) (hc : s.closed = false)
    (hmap : flagOf apmen = true → s.apmvld = true) (hcode : s.role ≠ .reader → code = 0) :
    (Machine.started apmen code s).Inv :=
  { h with
    unopened := fun hx => absurd hx hr
    notReader := fun hx => ⟨(h.notReader hx).1, (h.notReader hx).2.1, hcode hx⟩
    coderOn := fun _ => ⟨hr, hc, rfl⟩
    coderOff := fun hx => by cases hx
    refining := hmap
    interval := fun _ => by simp [Machine.started]
    predictor := fun _ => by simp [Machine.started] }

/-- `ECFIN` (rule R221): a coder that has stopped. -/
theorem State.Inv.stopped (h : s.Inv) : (Machine.stopped s).Inv :=
  { h with
    unopened := fun hx => ⟨(h.unopened hx).1, rfl, (h.unopened hx).2.2⟩
    coderOn := fun hx => by cases hx
    coderOff := fun _ => ⟨rfl, rfl⟩
    refining := fun hx => by cases hx
    interval := fun hx => by cases hx
    predictor := fun hx => by cases hx }

/-- The coded bit's predictor (rule R216). -/
theorem State.Inv.observed (bit : Bool) (pr : Probability) (h : s.Inv) (he : s.ecact = true) :
    ({ predUpdate bit s with ecpr := pr } : State).Inv :=
  h.predictor' (predUpdate_range (h.predictor he)).2

/-- Narrowing by a bit at the predicted split keeps the low end at or below the high end (rules R214, R215). -/
theorem State.Inv.narrow_le {p : State} (bit : Bool) (pr : Probability) (h : p.Inv) (he : p.ecact = true) :
    (narrow bit (splitPoint pr p) p).eclow.toNat ≤ (narrow bit (splitPoint pr p) p).echigh.toNat := by
  obtain ⟨hle, htop⟩ := h.interval he
  have hlt : p.eclow.toNat < p.echigh.toNat := lt_of_le_of_ne hle fun heq => htop (by rw [heq])
  obtain ⟨hlow, hhigh⟩ := midPoint_range (pr := pr.toNat) hlt pr.isLt
  obtain ⟨hl, hh⟩ := narrow_ends (bit := bit) hhigh
  rw [splitPoint_eq hle, hl, hh]
  cases bit
  · simpa using hhigh
  · simpa using hlow

/-- `EncShift` on a narrowed interval of an open writer (rule R217): what it leaves meets the invariant again, with the
settled bytes in the stream. -/
theorem State.Inv.encShift (h : s.Inv) (hr : s.role = .writer) (hc : s.closed = false)
    (hn : n = { s with eclow := n.eclow, echigh := n.echigh }) (hle : n.eclow.toNat ≤ n.echigh.toNat)
    (hv : Machine.encShift maxShifts n = .ok v) : v.Inv := by
  have hsink : n.sink = s.sink := by rw [hn]; rfl
  have hwbits : n.wbits = s.wbits := by rw [hn]
  have hsnkcap : n.snkcap = s.snkcap := by rw [hn]
  have hopen : n.sink.Open := hsink ▸ h.sink_open hc
  have hcap : 8 * n.snkcap.toNat < 2 ^ 36 := hsnkcap ▸ h.capacity
  rcases Nat.lt_or_ge (8 * n.snkcap.toNat) (n.wbits.toNat + 8 * settledIn 4 n.eclow.toNat n.echigh.toNat) with
    hfull | hroom
  · rw [maxShifts, encShift_error 4 n hcap hopen hfull (by rw [hwbits, hsnkcap]; exact h.writerRoom.1)] at hv
    cases hv
  · obtain ⟨u, hu, happ, hlo, hhi, hframe⟩ := encShift_ok 4 (le_refl 4) n hopen hcap hroom
    obtain rfl : u = v := by simpa [maxShifts, hu] using hv
    rw [settledIn_four n.eclow.isLt n.echigh.isLt] at hlo hhi
    obtain ⟨hle', htop⟩ := shifted_interval hle n.echigh.isLt
    rw [hsink] at happ
    rw [hwbits, hsnkcap] at hroom
    have hu' : u = { s.withSink u.sink with eclow := u.eclow, echigh := u.echigh } := by
      refine hframe.trans ?_
      rw [hn]
      rfl
    rw [hu']
    exact (h.withSink hr hc happ hroom).interval' (by rw [hlo, hhi]; exact hle') (by rw [hlo, hhi]; exact htop)

/-- `DecShift` on a narrowed interval of a reader (rule R218): what it leaves meets the invariant again, with the settled
bytes consumed from the source. -/
theorem State.Inv.decShift (h : s.Inv) (hr : s.role = .reader)
    (hn : n = { s with eclow := n.eclow, echigh := n.echigh }) (hle : n.eclow.toNat ≤ n.echigh.toNat)
    (hv : Machine.decShift maxShifts n = .ok v) : v.Inv := by
  have hrbits : n.rbits = s.rbits := by rw [hn]
  have hsrclen : n.srclen = s.srclen := by rw [hn]
  obtain ⟨hfit, hlen⟩ := h.readerRoom
  have hcap : 8 * n.srclen.toNat < 2 ^ 36 := by
    have := h.paramsValid.2.1.2
    rw [hsrclen]
    omega
  rcases Nat.lt_or_ge (8 * n.srclen.toNat) (n.rbits.toNat + 8 * settledIn 4 n.eclow.toNat n.echigh.toNat) with
    hend | hroom
  · rw [maxShifts, decShift_error 4 n hcap hend (by rw [hrbits, hsrclen]; exact hfit)] at hv
    cases hv
  · obtain ⟨u, -, hu, -, -, hlo, hhi, hframe⟩ := decShift_ok 4 (le_refl 4) n hcap hroom
    obtain rfl : u = v := by simpa [maxShifts, hu] using hv
    rw [settledIn_four n.eclow.isLt n.echigh.isLt] at hlo hhi
    obtain ⟨hle', htop⟩ := shifted_interval hle n.echigh.isLt
    rw [hrbits, hsrclen] at hroom
    have hu' : u = { s with
        rbits := s.rbits + BitVec.ofNat 64 (8 * settledIn 4 n.eclow.toNat n.echigh.toNat)
        eccode := u.eccode, eclow := u.eclow, echigh := u.echigh } := by
      refine hframe.trans ?_
      generalize settledIn 4 n.eclow.toNat n.echigh.toNat = k
      rw [hn]
    rw [hu']
    exact ((h.consume hr hroom).eccode hr).interval' (by rw [hlo, hhi]; exact hle') (by rw [hlo, hhi]; exact htop)

/-! ### Commands -/

/-- `CLRERR` (rule R241): the record is empty, and the command ends without an error. -/
theorem State.Inv.clearRecord (h : s.Inv) :
    (Machine.succeed { s with firsterr := .ok, iostat := 0, errcmd := 0, errarg := 0 }).Inv :=
  { h with
    noError := fun _ => ⟨rfl, rfl, rfl⟩
    lastError := fun hx => absurd rfl hx }

/-- Every register at its reset value, the memories as they are (rules R242, R301, R302). -/
theorem State.Inv.resetRegisters (h : s.Inv) : (Machine.resetRegisters s).Inv :=
  { h with
    unopened := fun _ => ⟨rfl, rfl, rfl, rfl, rfl⟩
    notWriter := fun _ => ⟨rfl, rfl, rfl, rfl⟩
    notReader := fun _ => ⟨rfl, rfl, rfl⟩
    writerRoom := ⟨Nat.zero_le _, Nat.zero_le _⟩
    readerRoom := ⟨Nat.zero_le _, Nat.zero_le _⟩
    bytesOpen := fun _ => by simp
    bytesClosed := fun hx => by cases hx
    accLow := fun _ => by simp
    delivered := fun a hlt => absurd hlt (Nat.not_lt_zero a)
    coderOn := fun hx => by cases hx
    coderOff := fun _ => ⟨rfl, rfl⟩
    refining := fun hx => by cases hx
    mapSize := fun hx => by cases hx
    mapIndex := fun hx => by cases hx
    mapSeeded := fun hx => by cases hx
    noError := fun _ => ⟨rfl, rfl, rfl⟩
    lastError := fun hx => absurd rfl hx
    interval := fun hx => by cases hx
    predictor := fun hx => by cases hx }

/-- A command keeps the invariant when what it completes with does; an error it takes keeps it anyway. -/
theorem Outcome.inv {i : Instr} {P : State → Prop} (ho : Outcome i s P) (h : s.Inv)
    (hP : ∀ u, P u → (succeed u).Inv) (ht : exec i s = .next t) : t.Inv := by
  rcases ho.cases ht with ⟨k, rfl⟩ | ⟨u, rfl, hu⟩
  · exact h.takeError _ _
  · exact hP u hu

theorem openRole_keeps_inv (role : BitVec 2) (h : s.Inv) (ht : exec (.openRole role) s = .next t) : t.Inv := by
  refine (openRole_outcome role s).inv h ?_ ht
  rintro u ⟨hr, ⟨-, hcap, rfl⟩ | ⟨-, hlen, rfl⟩⟩
  · exact (h.openWriter hr hcap).succeed
  · exact (h.openReader hr hlen).succeed

theorem PutDone.inv {val k : Nat} (hd : PutDone val k s u) (h : s.Inv) : (succeed u).Inv := by
  obtain ⟨hr, hc, -, hroom, rfl⟩ := hd
  exact (h.putDone hr hc hroom).succeed

theorem GetDone.inv {k : Nat} (hd : GetDone k s u) (h : s.Inv) : (succeed u).Inv := by
  obtain ⟨hr, -, -, hroom, _, -, rfl⟩ := hd
  exact ((h.consume hr hroom).setRes _).succeed

theorem close_keeps_inv (h : s.Inv) (ht : exec .close s = .next t) : t.Inv := by
  refine (close_outcome s).inv h ?_ ht
  rintro u ⟨hr, ⟨-, rfl⟩ | ⟨hc, he, hw, hpart, rfl⟩ | ⟨hc, he, hwhole, rfl⟩⟩
  · exact h.succeed
  · exact (h.closePartial hw hc he hpart).succeed
  · refine (h.closeWhole hr hc he ?_).succeed
    rcases hwhole with hreader | hw
    · simp [(h.notWriter (by simp [hreader])).1]
    · exact hw

theorem ecinit_keeps_inv (codec : BitVec 4) (apmen : BitVec 1) (h : s.Inv)
    (ht : exec (.ecinit codec apmen) s = .next t) : t.Inv := by
  refine (ecinit_outcome codec apmen s).inv h ?_ ht
  rintro u ⟨hr, hc, -, hmap, ⟨-, rfl⟩ | ⟨-, -, rfl⟩ | ⟨-, hreader, hroom, _, -, rfl⟩⟩
  · exact h.succeed
  · exact (h.started hr hc hmap fun _ => rfl).succeed
  · exact ((h.consume hreader hroom).started hr hc hmap fun hx => absurd hreader hx).succeed

theorem ecenc_keeps_inv (bit : BitVec 1) (h : s.Inv) (ht : exec (.ecenc bit) s = .next t) : t.Inv := by
  refine (ecenc_outcome bit s).inv h ?_ ht
  rintro u ⟨⟨hr, hc, he, hctx⟩, v, hv, rfl⟩
  have hp := h.predict hctx
  have hi := hp.encShift (by simpa using hr) (by simpa using hc) (narrow_frame _ _ _)
    (hp.narrow_le _ _ (by simpa using he)) hv
  have hev : v.ecact = true := by rw [ecenc_frame hv]; exact he
  exact (hi.observed _ _ hev).succeed

theorem ecdec_keeps_inv (h : s.Inv) (ht : exec .ecdec s = .next t) : t.Inv := by
  refine (ecdec_outcome s).inv h ?_ ht
  rintro u ⟨⟨hr, -, he, hctx⟩, v, hv, rfl⟩
  have hp := h.predict hctx
  have hi := hp.decShift (by simpa using hr) (narrow_frame _ _ _) (hp.narrow_le _ _ (by simpa using he)) hv
  have hev : v.ecact = true := by rw [ecdec_frame hv]; exact he
  exact ((hi.observed (decodedBit s) (predict s.arg.toNat s).1 hev).setRes (BitVec.ofNat 64 (decodedBit s).toNat)).succeed

theorem ecfin_keeps_inv (h : s.Inv) (ht : exec .ecfin s = .next t) : t.Inv := by
  refine (ecfin_outcome s).inv h ?_ ht
  rintro u ⟨-, hc, -, ⟨hr, hroom, rfl⟩ | ⟨-, rfl⟩⟩
  · exact (h.putDone hr hc hroom).stopped.succeed
  · exact h.stopped.succeed

/-- Every command keeps the invariant. -/
theorem exec_keeps_inv {i : Instr} (h : s.Inv) (ht : exec i s = .next t) : t.Inv := by
  cases i with
  | nop => exact (nop_outcome s).inv h (fun u hu => hu ▸ h.succeed) ht
  | openRole role => exact openRole_keeps_inv role h ht
  | wrbit bit => exact (wrbit_outcome bit s).inv h (fun u hu => hu.inv h) ht
  | wrbits len => exact (wrbits_outcome len s).inv h (fun u ⟨_, _, hu⟩ => hu.inv h) ht
  | rdbit => exact (rdbit_outcome s).inv h (fun u hu => hu.inv h) ht
  | rdbits len => exact (rdbits_outcome len s).inv h (fun u ⟨_, _, hu⟩ => hu.inv h) ht
  | hasmore => exact (hasmore_outcome s).inv h (fun u ⟨_, _, hu⟩ => hu ▸ (h.setRes _).succeed) ht
  | close => exact close_keeps_inv h ht
  | squash => exact (squash_outcome s).inv h (fun u hu => hu ▸ (h.setRes _).succeed) ht
  | stretch => exact (stretch_outcome s).inv h (fun u ⟨_, hu⟩ => hu ▸ (h.setRes _).succeed) ht
  | log2 => exact (log2_outcome s).inv h (fun u ⟨_, _, hu⟩ => hu ▸ (h.setRes _).succeed) ht
  | log2k => exact (log2k_outcome s).inv h (fun u ⟨_, _, hu⟩ => hu ▸ (h.setRes _).succeed) ht
  | apmnew rate =>
    exact (apmnew_outcome rate s).inv h (fun u ⟨_, hpos, hmax, hu⟩ => hu ▸ (h.newMap _ _ hpos hmax).succeed) ht
  | apmget bit pr =>
    exact (apmget_outcome bit pr s).inv h
      (fun u ⟨hv, _, hctx, hu⟩ => hu ▸ ((h.apmStep bit pr hv hctx).setRes _).succeed) ht
  | ecinit codec apmen => exact ecinit_keeps_inv codec apmen h ht
  | ecenc bit => exact ecenc_keeps_inv bit h ht
  | ecdec => exact ecdec_keeps_inv h ht
  | ecfin => exact ecfin_keeps_inv h ht
  | clrerr => exact (clrerr_outcome s).inv h (fun u hu => hu ▸ h.clearRecord) ht
  | sreset =>
    cases ht
    exact h.resetRegisters

/-! ### The host and the step -/

/-- A host write to `IMEM` inside the buffer (rule R77). -/
theorem State.Inv.writeImem {a : Nat} (b : Byte) (h : s.Inv) (ha : a < s.params.imemSize) :
    ({ s with imem := Memory.write a b s.imem } : State).Inv :=
  { h with
    imemWf := Memory.write_wf _ _ _ h.imemWf
    imemBound := fun c hmem => by
      rcases Memory.mem_write hmem with rfl | hmem
      · exact ha
      · exact h.imemBound c hmem }

/-- A command word keeps the invariant, whether it decodes or not. -/
theorem issueWord_keeps_inv {w : Word32} (h : s.Inv) (ht : issueWord w s = .next t) : t.Inv := by
  rcases issueWord_cases ht with ⟨i, -, -, hx⟩ | ⟨_, -, rfl⟩
  · exact exec_keeps_inv h hx
  · exact h.takeError _ _

/-- Every move of the host keeps the invariant. -/
theorem hostMove_keeps_inv {m : HostMove} (h : s.Inv) (ht : hostMove m s = .next t) : t.Inv := by
  rcases hostMove_cases ht with ⟨a, -, rfl⟩ | ⟨w, -, hw⟩ | ⟨a, b, -, -, ha, rfl⟩ | hread | ⟨-, rfl⟩
  · exact h.arg a
  · exact issueWord_keeps_inv h hw
  · exact h.writeImem b ha
  · rw [hread]
    exact h.hostOut _ _
  · exact h.resetRegisters

/-- Every step keeps the invariant. -/
theorem step_keeps_inv (h : s.Inv) (ht : step s = .next t) : t.Inv := by
  rcases step_cases ht with ⟨-, rfl⟩ | ⟨-, rest, -, ⟨m, hm⟩ | rfl | rfl⟩
  · exact h
  · exact hostMove_keeps_inv (h.hostIn rest) hm
  · exact (h.hostIn rest).hostOut 0 s.freeReads
  · exact h.hostIn rest

/-! ### The source of a reader -/

/-- Whether a reader's source is written depends on the role, the length and `IMEM` only. -/
theorem State.SourceWritten.congr (h : s.SourceWritten) (hr : t.role = s.role) (hl : t.srclen = s.srclen)
    (hm : t.imem = s.imem) : t.SourceWritten := by
  unfold State.SourceWritten
  rw [hr, hl, hm]
  exact h

/-- With no reader open there is no source. -/
theorem State.SourceWritten.of_not_reader (hr : s.role ≠ .reader) : s.SourceWritten := fun hx => absurd hx hr

/-- `OPEN` keeps it, when the host's move is not refused (rule R305). -/
theorem openRole_keeps_source {role : BitVec 2} (h : s.SourceWritten) (hu : ¬ opensUnwritten (.openRole role) s = true)
    (ht : exec (.openRole role) s = .next t) : t.SourceWritten := by
  rcases (openRole_outcome role s).cases ht with ⟨k, rfl⟩ | ⟨u, rfl, hr, ⟨-, -, rfl⟩ | ⟨rfl, hlen, rfl⟩⟩
  · exact h.congr (takeError_role _ _ _) (takeError_srclen _ _ _) (takeError_imem _ _ _)
  · exact .of_not_reader (by simp)
  · exact fun _ => written_of_not_opensUnwritten hu hr hlen

/-- Every command that the host may issue keeps it. -/
theorem exec_keeps_source {i : Instr} (h : s.SourceWritten) (hu : ¬ opensUnwritten i s = true)
    (ht : exec i s = .next t) : t.SourceWritten := by
  by_cases hreset : i = .sreset
  · subst hreset
    cases ht
    exact .of_not_reader (by simp)
  by_cases hopen : ∃ role, i = .openRole role
  · obtain ⟨role, rfl⟩ := hopen
    exact openRole_keeps_source h hu ht
  rcases (kept_outcome i s hreset).cases ht with ⟨k, rfl⟩ | ⟨u, rfl, hin, -, -, -, hkept⟩
  · exact h.congr (takeError_role _ _ _) (takeError_srclen _ _ _) (takeError_imem _ _ _)
  · obtain ⟨hr, hl⟩ := hkept fun role hi => hopen ⟨role, hi⟩
    exact h.congr hr hl hin.imem

/-- A command word keeps it, whether it decodes or not. -/
theorem issueWord_keeps_source {w : Word32} (h : s.SourceWritten) (ht : issueWord w s = .next t) : t.SourceWritten := by
  rcases issueWord_cases ht with ⟨i, -, hu, hx⟩ | ⟨_, -, rfl⟩
  · exact exec_keeps_source h hu hx
  · exact h.congr (takeError_role _ _ _) (takeError_srclen _ _ _) (takeError_imem _ _ _)

/-- Every move of the host keeps it: `IMEM` is not written under a reader (rule R77). -/
theorem hostMove_keeps_source {m : HostMove} (h : s.SourceWritten) (ht : hostMove m s = .next t) : t.SourceWritten := by
  rcases hostMove_cases ht with ⟨a, -, rfl⟩ | ⟨w, -, hw⟩ | ⟨a, b, -, hr, -, rfl⟩ | hread | ⟨-, rfl⟩
  · exact h
  · exact issueWord_keeps_source h hw
  · exact .of_not_reader hr
  · rw [hread]
    exact h
  · exact .of_not_reader (by simp)

/-- Every step keeps it. -/
theorem step_keeps_source (h : s.SourceWritten) (ht : step s = .next t) : t.SourceWritten := by
  rcases step_cases ht with ⟨-, rfl⟩ | ⟨-, rest, -, ⟨m, hm⟩ | rfl | rfl⟩
  · exact h
  · exact hostMove_keeps_source (s := { s with hostIn := rest }) h hm
  · exact h
  · exact h

end Invariant

/-- Settles O55: the invariant and the written source are each kept by a step, command by command. -/
theorem stepKeepsInvariant : Obligations.StepKeepsInvariant :=
  fun _ _ ht => ⟨fun h => step_keeps_inv h ht, fun h => step_keeps_source h ht⟩

/-- Settles O54: every clause at the reset state. -/
theorem resetMeetsInvariant : Obligations.ResetMeetsInvariant :=
  ⟨by constructor <;> decide +kernel, .of_not_reader (by decide)⟩

end Sys2Proof.Machine

/-! # Words and the commands they decode to -/

namespace Sys2Proof

/-! ### A word that decodes is the encoding of its command -/

/-- A field area with no 1 outside its low `n` bits is its low `n` bits. -/
theorem setWidth_extract_of_masked {n : Nat} {a m : BitVec 24} (hm : ∀ j < 24, n ≤ j → m.getLsbD j = true)
    (ha : a &&& m = 0) : (a.extractLsb' 0 n).setWidth 24 = a := by
  apply BitVec.eq_of_getLsbD_eq
  intro j hj
  by_cases hn : j < n
  · simp [hj, hn]
  · have hbit := congrArg (fun x => BitVec.getLsbD x j) ha
    simp only [BitVec.getLsbD_and, hm j hj (by omega), Bool.and_true] at hbit
    simp [hn, hbit]

/-- The field area of the command extracted from a word is the word's, when its reserved bits are 0 (rules R101, R106). -/
theorem fieldsOf_fieldArea (op : Opcode) (b : Byte) (a : BitVec 24) (h : a &&& op.format.areaMask = 0) :
    (fieldsOf op (b ++ a)).fieldArea = a := by
  have hz : op.format = .z → a = 0 := fun hf => by
    rw [hf] at h
    exact BitVec.and_allOnes (x := a) ▸ h
  have low (n : Nat) (hn : n ≤ 24) (hm : ∀ j < 24, n ≤ j → op.format.areaMask.getLsbD j = true) :
      ((b ++ a : Word32).extractLsb' 0 n).setWidth 24 = a := by
    rw [extract_append b a 0 n (by omega)]
    exact setWidth_extract_of_masked hm h
  cases op with
  | nop | rdbit | hasmore | close | squash | stretch | log2 | log2k | ecdec | ecfin | clrerr | sreset =>
    exact (hz rfl).symm
  | openRole => exact low 2 (by decide) (by decide)
  | wrbit | ecenc => exact low 1 (by decide) (by decide)
  | wrbits | rdbits => exact low 7 (by decide) (by decide)
  | apmnew => exact low 4 (by decide) (by decide)
  | apmget =>
    refine Eq.trans (congrArg (BitVec.setWidth 24) ?_) (low 13 (by decide) (by decide))
    exact BitVec.extractLsb'_append_extractLsb'_eq_extractLsb' (start₂ := 1) (start₁ := 0) rfl
  | ecinit =>
    refine Eq.trans (congrArg (BitVec.setWidth 24) ?_) (low 5 (by decide) (by decide))
    exact BitVec.extractLsb'_append_extractLsb'_eq_extractLsb' (start₂ := 4) (start₁ := 0) rfl

/-- The command extracted for an operation code has that operation code. -/
@[simp] theorem fieldsOf_opcode (op : Opcode) (w : Word32) : (fieldsOf op w).opcode = op := by cases op <;> rfl

/-- What a word that decodes has passed (rule R111): its operation code, its reserved bits and its role. -/
theorem decode_ok {w : Word32} {i : Instr} (h : decode w = .ok i) :
    ∃ op, opcOf w = op.bits ∧ w &&& op.format.mask = op.bits ++ (0 : BitVec 24) ∧ i = fieldsOf op w ∧
      i.wf = true := by
  unfold decode at h
  split at h
  · cases h
  · next op hop =>
    split at h
    · cases h
    · next hmask =>
      split at h
      · next hwf =>
        cases h
        exact ⟨op, Opcode.bits_of_ofBits hop, by simpa using hmask, rfl, hwf⟩
      · cases h

/-- No word but its encoding decodes to a command (rules R104, R108). -/
theorem encode_of_decode {w : Word32} {i : Instr} (h : decode w = .ok i) : encode i = w := by
  obtain ⟨op, hopc, hmask, rfl, -⟩ := decode_ok h
  obtain ⟨a, ha⟩ : ∃ a : BitVec 24, w = op.bits ++ a := ⟨_, hopc ▸ word_eq_append w⟩
  subst ha
  rw [append_and_mask] at hmask
  rw [encode, fieldsOf_opcode, fieldsOf_fieldArea op op.bits a ((append_inj _ _ _ _).1 hmask).2]

namespace Machine

variable {s t : State}

/-! ### The error record -/

/-- A command that ended with an error took it, under its own word. -/
theorem exec_failed {i : Instr} (ht : exec i s = .next t) (herr : t.err ≠ .ok) : Failed i s t := by
  by_cases hreset : i = .sreset
  · subst hreset
    cases ht
    exact absurd (resetRegisters_err s) herr
  · rcases (kept_outcome i s hreset).cases ht with hf | ⟨u, rfl, -⟩
    · exact hf
    · exact absurd (succeed_err u) herr

/-- A written command word that ended with an error took it, under the word written (rule R26). -/
theorem issueWord_failed {w : Word32} (ht : issueWord w s = .next t) (herr : t.err ≠ .ok) :
    ∃ r, t = takeError w r s := by
  rcases issueWord_cases ht with ⟨i, hi, -, hx⟩ | ⟨_, -, rfl⟩
  · obtain ⟨k, rfl⟩ := exec_failed hx herr
    exact ⟨_, by rw [encode_of_decode hi]⟩
  · exact ⟨_, rfl⟩

/-- Settles O15: the word and its `ARG` are what taking an error records, the first time only. -/
theorem errcmdIsIssuedWord : Obligations.ErrcmdIsIssuedWord := by
  intro s t w ht herr
  obtain ⟨r, rfl⟩ := issueWord_failed ht herr
  refine ⟨fun hfirst => ?_, fun hlater => ?_⟩
  · rw [takeError_first hfirst]
    exact ⟨rfl, rfl, rfl⟩
  · rw [takeError_later hlater]
    exact ⟨rfl, rfl, rfl⟩

/-! ### What no command writes -/

/-- Settles O58: a completed command keeps its inputs, an error changes only the report, and `SRESET` writes registers. -/
theorem commandsLeaveInputs : Obligations.CommandsLeaveInputs := by
  intro i s t ht
  by_cases hreset : i = .sreset
  · subst hreset
    cases ht
    exact ⟨rfl, rfl, rfl, rfl, rfl, fun hx => absurd rfl hx⟩
  · rcases (kept_outcome i s hreset).cases ht with ⟨k, rfl⟩ | ⟨u, rfl, hin, -⟩
    · simp
    · exact ⟨hin.imem, hin.params, hin.hostIn, hin.hostOut, hin.freeReads, fun _ => hin.arg⟩

/-! ### The step -/

/-- A step with a `CMD` write waiting issues its word. -/
theorem step_writeCmd {w : Word32} {rest : List HostInput} (h : s.hostIn = .move (.writeCmd w) :: rest) :
    step s = issueWord w { s with hostIn := rest } := by
  rw [step, stepInput, h]
  rfl

theorem issueWord_exec {w : Word32} {i : Instr} (hi : decode w = .ok i) (hu : ¬ opensUnwritten i s = true) :
    issueWord w s = exec i s := by
  rw [issueWord, hi]
  exact if_neg hu

theorem issueWord_refused {w : Word32} {i : Instr} (hi : decode w = .ok i) (hu : opensUnwritten i s = true) :
    issueWord w s = .refused .sourceNotWritten := by
  rw [issueWord, hi]
  exact if_pos hu

theorem issueWord_illegal {w : Word32} {e : DecodeError} (he : decode w = .error e) :
    issueWord w s = .next (takeError w ⟨.illegalCommand, 0⟩ s) := by
  rw [issueWord, he]

/-- A `CMD` write is not refused when it opens no reader, or when every byte of the source is written. -/
theorem not_opensUnwritten {i : Instr}
    (h : i ≠ .openRole 2 ∨ s.role ≠ .none ∨ s.params.imemSize < s.arg.toNat ∨
      (Memory.wf s.imem = true ∧ ∀ a < s.arg.toNat, (Memory.read s.imem a).isSome = true)) :
    ¬ opensUnwritten i s = true := by
  intro hu
  obtain ⟨hi, hr, hlen, -⟩ := opensUnwritten_iff.1 hu
  rcases h with h | h | h | ⟨hwf, hall⟩
  · exact h hi
  · exact h hr
  · omega
  · obtain ⟨a, hlt, hnone⟩ := unwritten_of_opensUnwritten hu hwf
    simpa [hnone] using hall a hlt

/-- A reader that would be opened over a byte never written is refused, canonical form or not. -/
theorem opensUnwritten_of_gap (hr : s.role = .none) (hlen : s.arg.toNat ≤ s.params.imemSize)
    (hgap : ∃ a < s.arg.toNat, Memory.read s.imem a = none) : opensUnwritten (.openRole 2) s = true := by
  obtain ⟨a, hlt, hnone⟩ := hgap
  refine opensUnwritten_iff.2 ⟨rfl, hr, hlen, ?_⟩
  by_contra hge
  have hsome := Memory.isSome_of_lt_firstUnlisted (m := s.imem) (Nat.zero_le a) (by omega)
  simp [hnone] at hsome

/-- Settles O6: the three things a step does with a waiting `CMD` write. -/
theorem stepRunsIssuedCommand : Obligations.StepRunsIssuedCommand := by
  intro s w rest hin
  rw [step_writeCmd hin]
  exact ⟨fun i hi hok => issueWord_exec hi (not_opensUnwritten hok),
    fun hi hr hlen hgap => issueWord_refused hi (opensUnwritten_of_gap hr hlen hgap),
    fun e he => issueWord_illegal he⟩

end Machine

end Sys2Proof

/-! # The register page on the bus -/

namespace Sys2Proof.Machine

/-! ### The word `STATUS` -/

theorem Role.code_lt (r : Role) : r.code < 4 := by cases r <;> decide

theorem ErrCode.code_lt (e : ErrCode) : e.code < 16 := by
  rcases e with _ | kind
  · decide
  · cases kind <;> decide

/-- Every field of `STATUS` fits its place (rule R25). -/
theorem status_fields_fit (s : State) :
    s.role.code < 4 ∧ s.closed.toNat < 2 ∧ s.ecact.toNat < 2 ∧ s.apmvld.toNat < 2 ∧ s.ecapm.toNat < 2 ∧
      s.err.code < 16 ∧ s.firsterr.code < 16 ∧ s.eccodec.toNat < 16 ∧ s.iostat.toNat < 16 :=
  ⟨s.role.code_lt, s.closed.toNat_lt, s.ecact.toNat_lt, s.apmvld.toNat_lt, s.ecapm.toNat_lt, s.err.code_lt,
    s.firsterr.code_lt, s.eccodec.isLt, s.iostat.isLt⟩

/-- `STATUS` as a number: each field's code, placed by the weight of its lowest bit (rule R25). -/
theorem statusWord_toNat (s : State) :
    (statusWord s).toNat =
      s.role.code + s.closed.toNat * 2 ^ 2 + s.ecact.toNat * 2 ^ 3 + s.apmvld.toNat * 2 ^ 4 + s.ecapm.toNat * 2 ^ 5 +
        s.err.code * 2 ^ 8 + s.firsterr.code * 2 ^ 12 + s.eccodec.toNat * 2 ^ 16 + s.iostat.toNat * 2 ^ 20 := by
  have hfit := status_fields_fit s
  rw [statusWord, BitVec.toNat_ofNat]
  omega

section Fields

variable {w : Word32} {k n : Nat}

/-- A field of a word, as the number it holds. -/
theorem field_toNat {c : Nat} (h : w.toNat / 2 ^ k % 2 ^ n = c) : (w.extractLsb' k n).toNat = c := by
  rw [BitVec.extractLsb'_toNat, Nat.shiftRight_eq_div_pow, h]

/-- A field of a word, as the bits it holds. -/
theorem field_eq {v : BitVec n} (h : w.toNat / 2 ^ k % 2 ^ n = v.toNat) : w.extractLsb' k n = v :=
  BitVec.eq_of_toNat_eq (field_toNat h)

/-- A field of a word that reads 0. -/
theorem field_zero (h : w.toNat / 2 ^ k % 2 ^ n = 0) : w.extractLsb' k n = 0 :=
  field_eq (h.trans BitVec.toNat_zero.symm)

/-- A one-bit field of a word, as a flag. -/
theorem flag_eq {b : Bool} (h : w.toNat / 2 ^ k % 2 = b.toNat) : w.getLsbD k = b := by
  rw [BitVec.getLsbD, Nat.testBit_eq_decide_div_mod_eq, h]
  cases b <;> rfl

end Fields

/-- Settles O11: division by a field's weight leaves the field, whatever stands below and above it. -/
theorem statusWordLayout : Obligations.StatusWordLayout := by
  refine ⟨⟨rfl, rfl, rfl⟩, ⟨rfl, rfl, rfl, rfl, rfl, rfl, rfl⟩, fun s => ?_⟩
  have hword := statusWord_toNat s
  have hfit := status_fields_fit s
  refine ⟨field_toNat ?_, flag_eq ?_, flag_eq ?_, flag_eq ?_, flag_eq ?_, field_zero ?_, field_toNat ?_, field_toNat ?_,
    field_eq ?_, field_eq ?_, field_zero ?_⟩ <;> omega

/-! ### Where an address of the page leads -/

section Bus

variable {s : State} {o n : Nat} {reg : Reg}

/-- An offset of the register page is the register's (rule R43). -/
theorem target_reg {p : Params} (hreg : regAt o = some reg) (ho : o < 0xB8) : target p (p.base + o) = .reg reg := by
  rw [target, if_pos (by omega), Nat.add_sub_cancel_left, hreg]

/-- An offset of the region outside the page and the `CELL` window is reserved (rules R43, R76). -/
theorem target_reserved {p : Params} (hpage : 0xB8 ≤ o) (hregion : o < 2 ^ 24)
    (hcell : p.base + o < cellWindow p ∨ cellWindow p + 132 * p.apmMaxCtx ≤ p.base + o) :
    target p (p.base + o) = .reserved := by
  rw [target, if_neg (by omega), if_neg (by omega), if_pos (by omega)]

/-- An access is aligned when its offset is: the region starts at a multiple of every bus width (rules R6, R72). -/
theorem aligned_base_add {p : Params} (hp : p.Valid) (hn : n ∈ [8, 16, 32, 64]) (ho : o % (n / 8) = 0) :
    aligned (p.base + o) n = true := by
  obtain ⟨-, -, -, -, -, -, -, hbase⟩ := hp
  simp only [List.mem_cons, List.not_mem_nil, or_false] at hn
  rcases hn with rfl | rfl | rfl | rfl <;>
  · simp only [aligned, beq_iff_eq, Bool.and_eq_true]
    exact ⟨rfl, by omega⟩

/-- What rule R43 says of the offset of a register: it is the register's, in the page, and a multiple of 8. -/
structure IsOffset (o : Nat) (reg : Reg) : Prop where
  reg_eq : regAt o = some reg
  inPage : o < 0xB8
  byEight : o % 8 = 0

/-- A register has a bus width (rule R72). -/
theorem regWidth_mem (reg : Reg) : regWidth reg ∈ [8, 16, 32, 64] := by cases reg <;> decide

theorem IsOffset.aligned {p : Params} (h : IsOffset o reg) (hp : p.Valid) :
    Machine.aligned (p.base + o) (regWidth reg) = true := by
  have height := h.byEight
  have hwidth := regWidth_mem reg
  refine aligned_base_add hp hwidth ?_
  simp only [List.mem_cons, List.not_mem_nil, or_false] at hwidth
  rcases hwidth with hw | hw | hw | hw <;> rw [hw] <;> omega

/-- A bus read of a register at its offset and width (rules R43, R75). -/
theorem busRead_reg (h : IsOffset o reg) (hp : s.params.Valid) :
    busRead (s.params.base + o) (regWidth reg) s = .next { s with hostOut := readReg reg s } := by
  rw [busRead, h.aligned hp, target_reg h.reg_eq h.inPage]
  exact if_pos rfl

/-- A bus write of a read-only register (rule R43). -/
theorem busWrite_readOnly (h : IsOffset o reg) (hp : s.params.Valid) (hcmd : reg ≠ .cmd) (harg : reg ≠ .arg)
    (v : Word64) : busWrite (s.params.base + o) (regWidth reg) v s = .next s := by
  rw [busWrite, h.aligned hp, target_reg h.reg_eq h.inPage]
  cases reg with
  | cmd => exact absurd rfl hcmd
  | arg => exact absurd rfl harg
  | _ => rfl

/-- A bus write of `CMD` is the host's move (rule R23). -/
theorem busWrite_cmd (hp : s.params.Valid) (v : Word64) :
    busWrite s.params.base 32 v s = hostMove (.writeCmd (v.setWidth 32)) s := by
  have h : IsOffset 0 .cmd := ⟨rfl, by decide, rfl⟩
  have ha := h.aligned hp
  have ht := target_reg (p := s.params) h.reg_eq h.inPage
  rw [Nat.add_zero] at ha ht
  rw [busWrite, ht, show Machine.aligned s.params.base 32 = true from ha]
  rfl

/-- A bus write of `ARG` is the host's move (rule R21). -/
theorem busWrite_arg (hp : s.params.Valid) (v : Word64) :
    busWrite (s.params.base + 0x08) 64 v s = .next { s with arg := v } := by
  have h : IsOffset 0x08 .arg := ⟨rfl, by decide, rfl⟩
  rw [busWrite, target_reg h.reg_eq h.inPage, show Machine.aligned (s.params.base + 0x08) 64 = true from h.aligned hp]
  rfl

/-- A reserved offset reads 0 and ignores writes (rules R43, R76). -/
theorem bus_reserved (ha : aligned (s.params.base + o) n = true)
    (ht : target s.params (s.params.base + o) = .reserved) :
    busRead (s.params.base + o) n s = .next { s with hostOut := 0 } ∧
      ∀ v, busWrite (s.params.base + o) n v s = .next s := by
  refine ⟨?_, fun v => ?_⟩
  · rw [busRead, ha, ht]
    rfl
  · rw [busWrite, ha, ht]
    rfl

/-- The `CELL` window misses an offset of the region that rule R76 leaves reserved. -/
theorem cellWindow_misses {p : Params} (hregion : o < 2 ^ 24)
    (h : p.apmMaxCtx ≤ 7943 ∧ (o < 0x100000 ∨ 0x100000 + 132 * p.apmMaxCtx ≤ o) ∨
      7943 < p.apmMaxCtx ∧ Apart p.base (2 ^ 24) p.cellBase (132 * p.apmMaxCtx)) :
    p.base + o < cellWindow p ∨ cellWindow p + 132 * p.apmMaxCtx ≤ p.base + o := by
  rcases h with ⟨hin, ho⟩ | ⟨hmoved, hapart⟩
  · rw [cellWindow, if_pos hin]
    omega
  · rw [cellWindow, if_neg (by omega)]
    omega

end Bus

/-- Settles O10: the rows of rule R43 one by one, then the two writable registers and the reserved offsets. -/
theorem registerPageOnBus : Obligations.RegisterPageOnBus := by
  intro s hp
  refine ⟨fun o reg n value hrow => ?_, busWrite_cmd hp, busWrite_arg hp, fun o n hn ho hpage hregion hcell => ?_⟩
  · obtain ⟨hoff, rfl, rfl⟩ : IsOffset o reg ∧ regWidth reg = n ∧ readReg reg s = value := by
      simp only [List.mem_cons, List.not_mem_nil, or_false, Prod.mk.injEq] at hrow
      rcases hrow with h | h | h | h | h | h | h | h | h | h | h | h | h | h | h | h | h | h | h | h | h | h | h <;>
      · obtain ⟨rfl, rfl, rfl, rfl⟩ := h
        exact ⟨⟨rfl, by decide, rfl⟩, rfl, rfl⟩
    exact ⟨rfl, busRead_reg hoff hp, fun hcmd harg v => busWrite_readOnly hoff hp hcmd harg v⟩
  · exact bus_reserved (aligned_base_add hp hn ho) (target_reserved hpage hregion (cellWindow_misses hregion hcell))

end Sys2Proof.Machine

/-! # The memories

What the host's reads and writes of the memories do (rules R75, R77, R78), where their windows stand on the bus (rule R76),
and that the commands leave a closed stream alone (rule R81). -/

namespace Sys2Proof.Machine

/-! ### A closed stream -/

/-- Settles O59: a completed command keeps a closed stream, an error changes only the report, and `SRESET` writes no
memory. -/
theorem closedStreamStays : Obligations.ClosedStreamStays := by
  intro i s t _ hclosed ht
  by_cases hreset : i = .sreset
  · subst hreset
    cases ht
    exact ⟨rfl, fun hx => absurd rfl hx⟩
  · rcases (kept_outcome i s hreset).cases ht with ⟨k, rfl⟩ | ⟨u, rfl, -, -, -, hstream, -⟩
    · simp [hclosed]
    · obtain ⟨hclosed', hbytes, homem⟩ := hstream hclosed
      exact ⟨homem, fun _ => ⟨hclosed', hbytes⟩⟩

section Memories

variable {s : State} {a i : Nat}

/-! ### The host's moves on the memories -/

/-- A host write to `IMEM` inside the buffer, with no reader open (rule R77). -/
theorem hostMove_writeImem (hrole : s.role ≠ .reader) (ha : a < s.params.imemSize) (v : Byte) :
    hostMove (.writeImem a v) s = .next { s with imem := Memory.write a v s.imem } := by
  rw [hostMove, if_neg hrole, if_pos ha]

/-- A host write to `IMEM` under an open reader (rule R305). -/
theorem hostMove_writeImem_reader (hrole : s.role = .reader) (v : Byte) :
    hostMove (.writeImem a v) s = .refused .imemWriteUnderReader := by
  rw [hostMove, if_pos hrole]

/-- A host read of `IMEM` inside the buffer (rule R77). -/
theorem hostMove_readImem (ha : a < s.params.imemSize) :
    hostMove (.readImem a) s = .next { s with hostOut := (imemByte s a).setWidth 64 } := by
  rw [hostMove, if_pos ha, answer]

/-- A host read of `OMEM` inside the buffer (rule R78). -/
theorem hostMove_readOmem (ha : a < s.params.omemSize) : hostMove (.readOmem a) s = .next (readOmem a s) := by
  rw [hostMove, if_pos ha]

/-- A host read of a word inside the `CELL` window (rule R78). -/
theorem hostMove_readCell (hi : i < 33 * s.params.apmMaxCtx) : hostMove (.readCell i) s = .next (readCell i s) := by
  rw [hostMove, if_pos hi]

/-- A delivered byte of `OMEM` is what a read of it answers (rule R78). -/
theorem readOmem_delivered (ha : a < s.wbytes.toNat) :
    readOmem a s = { s with hostOut := (omemByte s a).setWidth 64 } := by
  rw [readOmem, if_pos (.inl ha), answer]

/-- A cell of a constructed map is what a read of it answers (rule R78). -/
theorem readCell_map (hmap : s.apmvld = true) (hi : i < 33 * s.apmn.toNat) :
    readCell i s = { s with hostOut := (cellAt s i).setWidth 64 } := by
  rw [readCell, if_pos ⟨hmap, hi⟩, answer]

/-! ### Where a bus address of the memories leads -/

section Target

variable {p : Params}

/-- The `CELL` window, in the region or moved, is apart from what is apart from both places (rule R76). -/
theorem cellWindow_apart {b n : Nat} (hregion : Apart p.base (2 ^ 24) b n)
    (hmoved : 7943 < p.apmMaxCtx → Apart b n p.cellBase (132 * p.apmMaxCtx)) :
    Apart b n (cellWindow p) (132 * p.apmMaxCtx) := by
  by_cases hin : p.apmMaxCtx ≤ 7943
  · rw [cellWindow, if_pos hin]
    omega
  · rw [cellWindow, if_neg hin]
    exact hmoved (by omega)

/-- The register page and the `CELL` window do not meet (rule R76). -/
theorem page_apart_cellWindow (h : p.WindowsApart) : Apart p.base 0xB8 (cellWindow p) (132 * p.apmMaxCtx) := by
  obtain ⟨-, -, -, hmoved⟩ := h
  by_cases hin : p.apmMaxCtx ≤ 7943
  · rw [cellWindow, if_pos hin]
    omega
  · obtain ⟨-, hregion, -, -⟩ := hmoved (by omega)
    rw [cellWindow, if_neg hin]
    omega

/-- The `CELL` window starts at a word (rule R76). -/
theorem cellWindow_mod_four (hp : p.Valid) (h : p.WindowsApart) : cellWindow p % 4 = 0 := by
  obtain ⟨-, -, -, -, -, -, -, hbase⟩ := hp
  obtain ⟨-, -, -, hmoved⟩ := h
  by_cases hin : p.apmMaxCtx ≤ 7943
  · rw [cellWindow, if_pos hin]
    omega
  · obtain ⟨hword, -⟩ := hmoved (by omega)
    rwa [cellWindow, if_neg hin]

theorem target_cell (h : p.WindowsApart) (hi : i < 33 * p.apmMaxCtx) :
    target p (cellWindow p + 4 * i) = .cell (4 * i) := by
  have hpage := page_apart_cellWindow h
  rw [target, if_neg (by omega), if_pos (by omega), Nat.add_sub_cancel_left]

theorem target_omem (h : p.WindowsApart) (ha : a < p.omemSize) : target p (p.omemBase + a) = .omem a := by
  obtain ⟨hregion, -, -, hmoved⟩ := h
  have hcell := cellWindow_apart hregion fun hx => by
    obtain ⟨-, -, homem, -⟩ := hmoved hx
    exact homem
  rw [target, if_neg (by omega), if_neg (by omega), if_neg (by omega), if_pos (by omega), Nat.add_sub_cancel_left]

theorem target_imem (h : p.WindowsApart) (ha : a < p.imemSize) : target p (p.imemBase + a) = .imem a := by
  obtain ⟨-, hregion, homem, hmoved⟩ := h
  have hcell := cellWindow_apart hregion fun hx => by
    obtain ⟨-, -, -, himem⟩ := hmoved hx
    exact himem
  rw [target, if_neg (by omega), if_neg (by omega), if_neg (by omega), if_neg (by omega), if_pos (by omega),
    Nat.add_sub_cancel_left]

end Target

/-! ### What an access to a window does -/

section Access

variable {addr : Nat}

/-- A byte access is aligned at every address (rule R72). -/
theorem aligned_byte (addr : Nat) : aligned addr 8 = true := by simp [aligned, Nat.mod_one]

/-- A word access is aligned at a multiple of 4 (rule R72). -/
theorem aligned_word (h : addr % 4 = 0) : aligned addr 32 = true := by simp [aligned, h]

/-- A byte access to `OMEM` (rule R78). -/
theorem bus_omem (ht : target s.params addr = .omem a) :
    busRead addr 8 s = hostMove (.readOmem a) s ∧ ∀ v, busWrite addr 8 v s = .next s := by
  refine ⟨?_, fun v => ?_⟩
  · rw [busRead, aligned_byte, ht]
    rfl
  · rw [busWrite, aligned_byte, ht]
    rfl

/-- A byte access to `IMEM` (rule R77). -/
theorem bus_imem (ht : target s.params addr = .imem a) :
    busRead addr 8 s = hostMove (.readImem a) s ∧
      ∀ v, busWrite addr 8 v s = hostMove (.writeImem a (v.setWidth 8)) s := by
  refine ⟨?_, fun v => ?_⟩
  · rw [busRead, aligned_byte, ht]
    rfl
  · rw [busWrite, aligned_byte, ht]
    rfl

/-- A word access to `CELL` (rule R78). -/
theorem bus_cell (ha : aligned addr 32 = true) (ht : target s.params addr = .cell (4 * i)) :
    busRead addr 32 s = hostMove (.readCell i) s ∧ ∀ v, busWrite addr 32 v s = .next s := by
  have hword : 32 = 32 ∧ 4 * i % 4 = 0 := ⟨rfl, Nat.mul_mod_right 4 i⟩
  refine ⟨?_, fun v => ?_⟩
  · rw [busRead, if_neg (not_not_intro ha), ht]
    exact (if_pos hword).trans (by rw [Nat.mul_div_cancel_left i (by decide)])
  · rw [busWrite, if_neg (not_not_intro ha), ht]
    exact if_pos hword

/-- A word access to the `CELL` window, wherever the window is (rules R76, R78). -/
theorem bus_cellWindow (hp : s.params.Valid) (h : s.params.WindowsApart) (hi : i < 33 * s.params.apmMaxCtx) :
    busRead (cellWindow s.params + 4 * i) 32 s = hostMove (.readCell i) s ∧
      ∀ v, busWrite (cellWindow s.params + 4 * i) 32 v s = .next s := by
  have hstart := cellWindow_mod_four hp h
  exact bus_cell (aligned_word (by omega)) (target_cell h hi)

end Access

end Memories

/-- Settles O60: each address of a window leads to its byte or cell, and the access there is the host's move. -/
theorem windowsOnBus : Obligations.WindowsOnBus := by
  intro s hp hapart
  refine ⟨fun a ha => bus_omem (target_omem hapart ha), fun a ha => bus_imem (target_imem hapart ha), fun i hi => ?_⟩
  have hcell := bus_cellWindow hp hapart hi
  refine ⟨fun hin => ?_, fun hmoved => ?_⟩
  · rwa [cellWindow, if_pos hin] at hcell
  · rwa [cellWindow, if_neg (by omega)] at hcell

/-- Settles O8: the two writes, the refusal under a reader, and the reset of the registers. -/
theorem hostWritesTakeEffect : Obligations.HostWritesTakeEffect :=
  ⟨fun _ _ => rfl,
    fun s a v hrole ha => ⟨_, hostMove_writeImem hrole ha v, Memory.read_write_same a v s.imem,
      fun _ hb => Memory.read_write_other hb v s.imem, rfl⟩,
    fun _ _ v hrole => hostMove_writeImem_reader hrole v,
    fun _ => rfl⟩

/-- Settles O9: a read answers the named value where rule R78 gives one, and is a read of the host's side alone elsewhere. -/
theorem hostReadsAnswer : Obligations.HostReadsAnswer := by
  refine ⟨fun _ _ => rfl, fun _ _ ha => hostMove_readImem ha, fun s a hbyte ha => ?_, fun s i hmap hcell hi => ?_,
    fun s a ha => ?_, fun s i hi => ?_⟩
  · rw [hostMove_readOmem ha, readOmem_delivered hbyte]
  · rw [hostMove_readCell hi, readCell_map hmap hcell]
  · exact ⟨_, _, (hostMove_readOmem ha).trans (congrArg _ (readOmem_frame a s))⟩
  · exact ⟨_, _, (hostMove_readCell hi).trans (congrArg _ (readCell_frame i s))⟩

end Sys2Proof.Machine

/-! # The decoder's answers

Every word the decoder is given: the four answers of rule R111, the round trip with the encoder (rules R104, R108), and the
words that raise `IllegalCommand` (rules R105 to R107). `OPEN`, which is checked when it decodes and again when it runs
(rules R107, R134), comes last. -/

namespace Sys2Proof

/-! ### The four answers of the decoder -/

section Answers

variable {w : Word32} {op : Opcode}

theorem decode_reservedOpcode (hopc : Opcode.ofBits (opcOf w) = none) : decode w = .error .reservedOpcode := by
  rw [decode, hopc]

/-- A word with a named operation code and a 1 among the bits of its format's mask (rule R106). -/
theorem decode_reservedBits (hopc : opcOf w = op.bits) (hmask : w &&& op.format.mask ≠ op.bits ++ (0 : BitVec 24)) :
    decode w = .error .reservedBits := by
  rw [decode, hopc, Opcode.ofBits_bits]
  exact if_pos hmask

/-- A word that passes the checks of rules R105 and R106 is decoded or refused by its role alone (rule R107). -/
theorem decode_inFormat (hopc : opcOf w = op.bits) (hmask : w &&& op.format.mask = op.bits ++ (0 : BitVec 24)) :
    decode w = if (fieldsOf op w).wf then .ok (fieldsOf op w) else .error .reservedRole := by
  rw [decode, hopc, Opcode.ofBits_bits]
  exact if_neg (not_not_intro hmask)

end Answers

/-! ### Every well-formed command is what its word decodes to -/

/-- The word of every command has the form that rules R101 and R104 give it. -/
theorem Laws.wordForm (i : Instr) : WordForm.Statement i := by
  cases i with
  | nop => exact WordForm.nop
  | openRole role => exact WordForm.openRole role
  | wrbit bit => exact WordForm.wrbit bit
  | wrbits len => exact WordForm.wrbits len
  | rdbit => exact WordForm.rdbit
  | rdbits len => exact WordForm.rdbits len
  | hasmore => exact WordForm.hasmore
  | close => exact WordForm.close
  | squash => exact WordForm.squash
  | stretch => exact WordForm.stretch
  | log2 => exact WordForm.log2
  | log2k => exact WordForm.log2k
  | apmnew rate => exact WordForm.apmnew rate
  | apmget bit pr => exact WordForm.apmget bit pr
  | ecinit codec apmen => exact WordForm.ecinit codec apmen
  | ecenc bit => exact WordForm.ecenc bit
  | ecdec => exact WordForm.ecdec
  | ecfin => exact WordForm.ecfin
  | clrerr => exact WordForm.clrerr
  | sreset => exact WordForm.sreset

/-- A field alone at the foot of the field area is read back from the word (rule R101). -/
theorem extract_word_single {n : Nat} (b : Byte) (v : BitVec n) (hn : n ≤ 24) :
    (b ++ v.setWidth 24 : Word32).extractLsb' 0 n = v := by
  rw [extract_append _ _ _ _ (by omega), extract_setWidth v hn]

/-- Two fields, one above the other at the foot of the field area, are read back from the word (rule R101). -/
theorem extract_word_pair {n m : Nat} (b : Byte) (u : BitVec m) (v : BitVec n) (h : m + n ≤ 24) :
    (b ++ (u ++ v).setWidth 24 : Word32).extractLsb' 0 n = v ∧
      (b ++ (u ++ v).setWidth 24 : Word32).extractLsb' n m = u := by
  rw [extract_append _ _ _ _ (by omega), extract_append _ _ _ _ (by omega)]
  exact ⟨extract_low u v h, extract_high u v h⟩

/-- The fields extracted from the word of a command are the command's (rules R101, R102). -/
theorem fieldsOf_encode (i : Instr) : fieldsOf i.opcode (encode i) = i := by
  cases i with
  | nop | rdbit | hasmore | close | squash | stretch | log2 | log2k | ecdec | ecfin | clrerr | sreset => rfl
  | openRole role => exact congrArg Instr.openRole (extract_word_single _ role (by decide))
  | wrbit bit => exact congrArg Instr.wrbit (extract_word_single _ bit (by decide))
  | wrbits len => exact congrArg Instr.wrbits (extract_word_single _ len (by decide))
  | rdbits len => exact congrArg Instr.rdbits (extract_word_single _ len (by decide))
  | apmnew rate => exact congrArg Instr.apmnew (extract_word_single _ rate (by decide))
  | ecenc bit => exact congrArg Instr.ecenc (extract_word_single _ bit (by decide))
  | apmget bit pr =>
    obtain ⟨hbit, hpr⟩ := extract_word_pair Opcode.apmget.bits pr bit (by decide)
    exact congrArg₂ Instr.apmget hbit hpr
  | ecinit codec apmen =>
    obtain ⟨hcodec, hapmen⟩ := extract_word_pair Opcode.ecinit.bits apmen codec (by decide)
    exact congrArg₂ Instr.ecinit hcodec hapmen

/-- Settles O1: the word passes the checks of rule R111, and its fields are the command's. -/
theorem decodeOfEncode : Obligations.DecodeOfEncode := by
  intro i hwf
  obtain ⟨hopc, hmask⟩ := Laws.wordForm i
  rw [decode_inFormat hopc hmask, fieldsOf_encode, if_pos hwf]

/-- Settles O2: the role check gives well-formedness, and the reserved-bits check leaves no other word. -/
theorem encodeOfDecode : Obligations.EncodeOfDecode := by
  intro w i h
  obtain ⟨_, -, -, -, hwf⟩ := decode_ok h
  exact ⟨hwf, encode_of_decode h⟩

/-! ### The bits a format names -/

/-- The number of bits of `w[23:0]` that the format names, from bit 0 up (rule R101). -/
def Format.fieldBits : Format → Nat
  | .z => 0
  | .b => 1
  | .l => 7
  | .o => 2
  | .r => 4
  | .g => 13
  | .e => 5

/-- The mask of a format selects exactly the bits at and above those it names. -/
theorem Format.areaMask_getLsbD (f : Format) : ∀ j < 24, f.areaMask.getLsbD j = decide (f.fieldBits ≤ j) := by
  cases f <;> decide

/-- A field area that misses the mask holds its format's fields and nothing above them. -/
theorem fieldArea_lt {a : BitVec 24} {f : Format} (h : a &&& f.areaMask = 0) : a.toNat < 2 ^ f.fieldBits := by
  have hlow : (a.extractLsb' 0 f.fieldBits).setWidth 24 = a :=
    setWidth_extract_of_masked (fun j hj hn => by simpa [hn] using f.areaMask_getLsbD j hj) h
  calc a.toNat = (a.extractLsb' 0 f.fieldBits).toNat % 2 ^ 24 := by rw [← BitVec.toNat_setWidth, hlow]
    _ ≤ (a.extractLsb' 0 f.fieldBits).toNat := Nat.mod_le _ _
    _ < 2 ^ f.fieldBits := BitVec.isLt _

/-- A word whose field area is too large for its format fails the check of rule R106. -/
theorem mask_ne_of_area_ge {w : Word32} {op : Opcode} (hopc : opcOf w = op.bits)
    (hge : 2 ^ op.format.fieldBits ≤ w.toNat % 2 ^ 24) : w &&& op.format.mask ≠ op.bits ++ (0 : BitVec 24) := by
  intro hmask
  rw [word_eq_append w, append_and_mask, hopc, append_inj] at hmask
  obtain ⟨-, harea⟩ := hmask
  have hlt := fieldArea_lt harea
  rw [BitVec.extractLsb'_toNat, Nat.shiftRight_zero] at hlt
  omega

namespace Machine

variable {s : State}

/-! ### Words that raise -/

/-- A write of a word that does not decode raises `IllegalCommand` (rules R105 to R108). -/
theorem hostMove_writeCmd_illegal {w : Word32} {e : DecodeError} (he : decode w = .error e) :
    hostMove (.writeCmd w) s = .next (takeError w ⟨.illegalCommand, 0⟩ s) :=
  issueWord_illegal he

/-- Settles O4: the reserved ranges of rule R105 are the codes that name no command. -/
theorem reservedOpcodeRaises : Obligations.ReservedOpcodeRaises := by
  intro s w opc hopc hreserved
  have hnone : Opcode.ofBits (opcOf w) = none := by
    rw [Opcode.ofBits_eq_none_iff, opcOf_toNat, hopc]
    omega
  exact hostMove_writeCmd_illegal (decode_reservedOpcode hnone)

/-- Settles O5: each row names a command and its format's bits, and the field area does not fit them. -/
theorem reservedBitsRaise : Obligations.ReservedBitsRaise := by
  intro s w opc n hrow hopc hge
  obtain ⟨op, hnamed, rfl⟩ : ∃ op, Opcode.ofBits (BitVec.ofNat 8 opc) = some op ∧ op.format.fieldBits = n := by
    fin_cases hrow <;> exact ⟨_, rfl, rfl⟩
  have hbits : opcOf w = op.bits := by
    rw [← Opcode.bits_of_ofBits hnamed, ← hopc, ← opcOf_toNat, BitVec.ofNat_toNat, BitVec.setWidth_eq]
  exact hostMove_writeCmd_illegal (decode_reservedBits hbits (mask_ne_of_area_ge hbits hge))

/-! ### When `OPEN` raises -/

theorem exec_openRole (role : BitVec 2) (s : State) : exec (.openRole role) s = execOpen role s := rfl

/-- The role is chosen once: a second `OPEN` raises `IllegalCommand`, whatever role it names (rules R130, R134). -/
theorem openRole_opened (role : BitVec 2) (hr : s.role ≠ .none) :
    exec (.openRole role) s = .next (takeError (encode (.openRole role)) ⟨.illegalCommand, 0⟩ s) := by
  rw [exec_openRole]
  refine issue_error ?_
  cases roleOfField role with
  | none => rfl
  | writer => exact if_pos hr
  | reader => exact if_pos hr

/-- A sink larger than `OMEM` (rule R134). -/
theorem openWriter_tooLarge (hr : s.role = .none) (hlarge : s.params.omemSize < s.arg.toNat) :
    exec (.openRole 1) s = .next (takeError (encode (.openRole 1)) ⟨.invalidArgument, 0⟩ s) := by
  rw [exec_openRole]
  exact issue_error ((if_neg (not_not_intro hr)).trans (if_pos hlarge))

/-- A source larger than `IMEM` (rule R134). -/
theorem openReader_tooLarge (hr : s.role = .none) (hlarge : s.params.imemSize < s.arg.toNat) :
    exec (.openRole 2) s = .next (takeError (encode (.openRole 2)) ⟨.invalidArgument, 0⟩ s) := by
  rw [exec_openRole]
  exact issue_error ((if_neg (not_not_intro hr)).trans (if_pos hlarge))

/-- Settles O49: the two reserved roles do not decode; the other errors are the checks of `OPEN`. -/
theorem openRaises : Obligations.OpenRaises := by
  refine fun s => ⟨fun w hw => hostMove_writeCmd_illegal (e := .reservedRole) ?_, fun role => openRole_opened role,
    openWriter_tooLarge, openReader_tooLarge⟩
  rcases hw with rfl | rfl
  · rfl
  · rfl

end Machine

end Sys2Proof

/-! # The bitstream

The raw commands of rules R130 to R141: what they do when their checks pass, the error each check raises (rules R261, R263),
and what no command does to the counters and to the role. -/

namespace Sys2Proof.Machine

/-! ### The commands of the stream and the coder, each the body of its section in spec/40 and spec/43 -/

section Arms

variable (s : State)

theorem exec_wrbit (bit : BitVec 1) : exec (.wrbit bit) s = execWrbit bit s := rfl

theorem exec_wrbits (len : BitVec 7) : exec (.wrbits len) s = execWrbits len s := rfl

theorem exec_rdbit : exec .rdbit s = execRdbit s := rfl

theorem exec_rdbits (len : BitVec 7) : exec (.rdbits len) s = execRdbits len s := rfl

theorem exec_hasmore : exec .hasmore s = execHasmore s := rfl

theorem exec_close : exec .close s = execClose s := rfl

theorem exec_ecinit (codec : BitVec 4) (apmen : BitVec 1) : exec (.ecinit codec apmen) s = execEcinit codec apmen s := rfl

theorem exec_ecenc (bit : BitVec 1) : exec (.ecenc bit) s = execEcenc bit s := rfl

theorem exec_ecdec : exec .ecdec s = execEcdec s := rfl

theorem exec_ecfin : exec .ecfin s = execEcfin s := rfl

end Arms

/-! ### The checks of a stream command -/

section Checks

variable {i : Instr} {s : State} {body rest : State → Except Raised State} {wrong busy : Prop} [Decidable wrong]
  [Decidable busy] {r : Except Raised State}

/-- Only the body's result on the state counts. -/
theorem issue_congr (h : body s = rest s) : issue i body s = issue i rest s := by
  simp only [issue, h]

/-- A body that starts with a check of the role and then of the stream, on a closed stream (rule R263). -/
theorem checks_closed {closed : Bool} (hrole : ¬ wrong) (hclosed : closed = true) :
    (if wrong then raise .illegalCommand else if closed then raise .streamClosed else r) = .error ⟨.streamClosed, 0⟩ :=
  (if_neg hrole).trans (if_pos hclosed)

/-- The checks of role, stream and coder, passed. -/
theorem checks_pass {closed : Bool} (hrole : ¬ wrong) (hopen : closed = false) (hidle : ¬ busy) :
    (if wrong then raise .illegalCommand else if closed then raise .streamClosed
      else if busy then raise .illegalCommand else r) = r := by
  rw [if_neg hrole, if_neg (by simp [hopen]), if_neg hidle]

end Checks

/-- Settles O42: each of the ten commands checks the role before anything else. -/
theorem wrongRoleIsIllegal : Obligations.WrongRoleIsIllegal := by
  rintro s i (⟨⟨_, rfl⟩ | ⟨_, rfl⟩ | ⟨_, rfl⟩, hrole⟩ | ⟨rfl | ⟨_, rfl⟩ | rfl | rfl, hrole⟩ |
    ⟨rfl | ⟨_, _, rfl⟩ | rfl, hrole⟩)
  · rw [exec_wrbit]; exact issue_error (if_pos hrole)
  · rw [exec_wrbits]; exact issue_error (if_pos hrole)
  · rw [exec_ecenc]; exact issue_error (if_pos hrole)
  · rw [exec_rdbit]; exact issue_error (if_pos hrole)
  · rw [exec_rdbits]; exact issue_error (if_pos hrole)
  · rw [exec_hasmore]; exact issue_error (if_pos hrole)
  · rw [exec_ecdec]; exact issue_error (if_pos hrole)
  · rw [exec_close]; exact issue_error (if_pos hrole)
  · rw [exec_ecinit]; exact issue_error (if_pos hrole)
  · rw [exec_ecfin]; exact issue_error (if_pos hrole)

/-- Settles O43: each of the nine commands checks the stream right after the role. -/
theorem closedStreamIsClosed : Obligations.ClosedStreamIsClosed := by
  rintro s i hclosed (⟨⟨_, rfl⟩ | ⟨_, rfl⟩ | ⟨_, rfl⟩, hrole⟩ | ⟨rfl | ⟨_, rfl⟩ | rfl | rfl, hrole⟩ |
    ⟨⟨_, _, rfl⟩ | rfl, hrole⟩)
  · rw [exec_wrbit]; exact issue_error (checks_closed (not_not_intro hrole) hclosed)
  · rw [exec_wrbits]; exact issue_error (checks_closed (not_not_intro hrole) hclosed)
  · rw [exec_ecenc]; exact issue_error (checks_closed (not_not_intro hrole) hclosed)
  · rw [exec_rdbit]; exact issue_error (checks_closed (not_not_intro hrole) hclosed)
  · rw [exec_rdbits]; exact issue_error (checks_closed (not_not_intro hrole) hclosed)
  · rw [exec_hasmore]; exact issue_error (checks_closed (not_not_intro hrole) hclosed)
  · rw [exec_ecdec]; exact issue_error (checks_closed (not_not_intro hrole) hclosed)
  · rw [exec_ecinit]; exact issue_error (checks_closed hrole hclosed)
  · rw [exec_ecfin]; exact issue_error (checks_closed hrole hclosed)

/-! ### Commands whose checks pass -/

/-- `s` may transfer raw bits in the role `r`: the stream is open and the coder idle (rules R130, R140, R225). -/
structure MayTransfer (r : Role) (s : State) : Prop where
  role : s.role = r
  isOpen : s.closed = false
  idle : s.ecact = false

/-- `GetBits(n)` (rule R132), then `f` of the value and the state, as `RDBIT`, `RDBITS` and `ECINIT` go on. -/
def getThen (n : Nat) (f : Nat → State → State) (s : State) : Except Raised State :=
  match getBits n s with
  | .error r => .error r
  | .ok (v, t) => .ok (f v t)

/-- `RES <- GetBits(n)` (rules R137, R138). -/
def fetchBits (n : Nat) (s : State) : Except Raised State := getThen n (fun v t => setRes (zext64 v) t) s

/-- `PutBits(v, n)` (rule R131), then `f` of the state, as `ECFIN` goes on. -/
def putThen (v n : Nat) (f : State → State) (s : State) : Except Raised State :=
  match putBits v n s with
  | .error r => .error r
  | .ok t => .ok (f t)

section Transfer

variable {i : Instr} {s : State} {v n : Nat} {len : BitVec 7} {bit apmen : BitVec 1}

theorem MayTransfer.not_busy {r : Role} (h : MayTransfer r s) : ¬ s.ecact = true := by simp [h.idle]

theorem wrbit_puts (h : MayTransfer .writer s) : exec (.wrbit bit) s = issue (.wrbit bit) (putBits bit.toNat 1) s := by
  rw [exec_wrbit]
  exact issue_congr (checks_pass (not_not_intro h.role) h.isOpen h.not_busy)

theorem wrbits_puts (h : MayTransfer .writer s) (hpos : 1 ≤ len.toNat) (hmax : len.toNat ≤ 64) :
    exec (.wrbits len) s = issue (.wrbits len) (putBits (s.arg.toNat % 2 ^ len.toNat) len.toNat) s := by
  rw [exec_wrbits]
  exact issue_congr ((checks_pass (not_not_intro h.role) h.isOpen h.not_busy).trans (if_neg (by omega)))

theorem rdbit_fetches (h : MayTransfer .reader s) : exec .rdbit s = issue .rdbit (fetchBits 1) s := by
  rw [exec_rdbit]
  exact issue_congr (checks_pass (not_not_intro h.role) h.isOpen h.not_busy)

theorem rdbits_fetches (h : MayTransfer .reader s) (hpos : 1 ≤ len.toNat) (hmax : len.toNat ≤ 64) :
    exec (.rdbits len) s = issue (.rdbits len) (fetchBits len.toNat) s := by
  rw [exec_rdbits]
  exact issue_congr ((checks_pass (not_not_intro h.role) h.isOpen h.not_busy).trans (if_neg (by omega)))

/-- `ECINIT codec=FPAQ` of a reader primes `ECCODE` with the next 32 bits (rule R213). -/
theorem ecinit_primes (h : MayTransfer .reader s) (hmap : apmen = 1 → s.apmvld = true) :
    exec (.ecinit 1 apmen) s =
      issue (.ecinit 1 apmen) (getThen 32 fun v t => started apmen (BitVec.ofNat 32 v) t) s := by
  have hflag : ¬ (flagOf apmen = true ∧ ¬ s.apmvld = true) := fun ⟨hf, hv⟩ => hv (hmap (by simpa [flagOf] using hf))
  rw [exec_ecinit]
  refine issue_congr ((checks_pass (by simp [h.role]) h.isOpen h.not_busy).trans ?_)
  rw [if_neg hflag, if_neg (by decide), if_neg (by decide)]
  exact if_pos h.role

/-- `ECFIN` of a writer puts the four bytes of `ECLOW` (rule R221). -/
theorem ecfin_puts (hrole : s.role = .writer) (hopen : s.closed = false) (hact : s.ecact = true) :
    exec .ecfin s = issue .ecfin (putThen s.eclow.toNat 32 stopped) s := by
  rw [exec_ecfin]
  refine issue_congr ((checks_pass (by simp [hrole]) hopen (not_not_intro hact)).trans ?_)
  exact if_pos hrole

/-- `HASMORE` (rule R139); it does not ask for the coder. -/
theorem hasmore_answers (hrole : s.role = .reader) (hopen : s.closed = false) :
    exec .hasmore s = .next (succeed (setRes (if s.rbits.toNat < 8 * s.srclen.toNat then 1 else 0) s)) := by
  rw [exec_hasmore]
  exact issue_ok ((if_neg (not_not_intro hrole)).trans (if_neg (by simp [hopen])))

/-! ### Bits put and bits got -/

/-- `PutBits` with room for the bits, to the end of its command (rule R131). -/
theorem issue_putBits (h : s.Inv) (hopen : s.closed = false) (hroom : s.wbits.toNat + n ≤ 8 * s.snkcap.toNat) :
    ∃ t, issue i (putBits v n) s = .next t ∧ Appends v n s t ∧
      t = { s with wbits := t.wbits, wbytes := t.wbytes, wacc := t.wacc, omem := t.omem, err := .ok,
                   cmdcnt := s.cmdcnt + 1 } := by
  obtain ⟨k, hput, happ⟩ := putBits_appended (v := v) h hopen hroom
  exact ⟨_, issue_ok hput, Appends.of_sink happ, rfl⟩

/-- `PutBits` without room (rule R131). -/
theorem putBits_full (hfull : 8 * s.snkcap.toNat < s.wbits.toNat + n) : putBits v n s = .error ⟨.ioFailure, 1⟩ :=
  if_pos hfull

/-- `PutBits` without room, whatever follows (rule R131). -/
theorem putThen_full {f : State → State} (hfull : 8 * s.snkcap.toNat < s.wbits.toNat + n) :
    putThen v n f s = .error ⟨.ioFailure, 1⟩ := by
  rw [putThen, putBits_full hfull]

/-- `GetBits` into `RES` with the bits left, to the end of its command (rule R132). -/
theorem issue_fetchBits (hroom : s.rbits.toNat + n ≤ 8 * s.srclen.toNat) :
    ∃ v, SourceField s s.rbits.toNat n v ∧ issue i (fetchBits n) s = .next { s with
      res := BitVec.ofNat 64 v, rbits := s.rbits + BitVec.ofNat 64 n, err := .ok, cmdcnt := s.cmdcnt + 1 } := by
  obtain ⟨v, hv, hget⟩ := getBits_ok hroom
  have hfetch : fetchBits n s = .ok (setRes (zext64 v) { s with rbits := s.rbits + BitVec.ofNat 64 n }) := by
    rw [fetchBits, getThen, hget]
  exact ⟨v, hv, issue_ok hfetch⟩

/-- `GetBits` past the end, whatever follows (rule R132). -/
theorem getThen_pastEnd {f : Nat → State → State} (hend : 8 * s.srclen.toNat < s.rbits.toNat + n) :
    getThen n f s = .error ⟨.endOfStream, 0⟩ := by
  rw [getThen, getBits_error hend]

end Transfer

/-- Settles O20: both commands are `PutBits` once their checks have passed. -/
theorem writesAppendBits : Obligations.WritesAppendBits := by
  refine ⟨fun s bit h hrole hopen hidle hroom => ?_, fun s len h hrole hopen hidle hpos hmax hroom => ?_⟩
  · rw [wrbit_puts ⟨hrole, hopen, hidle⟩]
    exact issue_putBits h hopen hroom
  · rw [wrbits_puts ⟨hrole, hopen, hidle⟩ hpos hmax]
    exact issue_putBits h hopen hroom

/-- Settles O21: both commands are `GetBits` into `RES` once their checks have passed. -/
theorem readsConsumeBits : Obligations.ReadsConsumeBits := by
  refine ⟨fun s hrole hopen hidle hroom => ?_, fun s len hrole hopen hidle hpos hmax hroom => ?_⟩
  · rw [rdbit_fetches ⟨hrole, hopen, hidle⟩]
    exact issue_fetchBits hroom
  · rw [rdbits_fetches ⟨hrole, hopen, hidle⟩ hpos hmax]
    exact issue_fetchBits hroom

/-- Settles O46: `WRBIT`, `WRBITS` and the `ECFIN` of a writer fail with the capacity test of `PutBits`. -/
theorem fullSinkRaises : Obligations.FullSinkRaises := by
  refine fun s hrole hopen => ⟨fun bit hidle hfull => ?_, fun len hidle hpos hmax hfull => ?_, fun hact hfull => ?_⟩
  · rw [wrbit_puts ⟨hrole, hopen, hidle⟩]
    exact issue_error (putBits_full hfull)
  · rw [wrbits_puts ⟨hrole, hopen, hidle⟩ hpos hmax]
    exact issue_error (putBits_full hfull)
  · rw [ecfin_puts hrole hopen hact]
    exact issue_error (putThen_full hfull)

/-- Settles O47: `RDBIT`, `RDBITS` and the `ECINIT` of a reader fail with the end test of `GetBits`. -/
theorem pastEndRaises : Obligations.PastEndRaises := by
  refine fun s hrole hopen hidle => ⟨fun hend => ?_, fun len hpos hmax hend => ?_, fun apmen hmap hend => ?_⟩
  · rw [rdbit_fetches ⟨hrole, hopen, hidle⟩]
    exact issue_error (getThen_pastEnd hend)
  · rw [rdbits_fetches ⟨hrole, hopen, hidle⟩ hpos hmax]
    exact issue_error (getThen_pastEnd hend)
  · rw [ecinit_primes ⟨hrole, hopen, hidle⟩ hmap]
    exact issue_error (getThen_pastEnd hend)

/-- Settles O45: the length is checked once role, stream and coder have been. -/
theorem illegalLengthRaises : Obligations.IllegalLengthRaises := by
  refine fun s len hopen hidle hlen => ⟨fun hrole => ?_, fun hrole => ?_⟩
  · rw [exec_wrbits]
    exact issue_error ((checks_pass (not_not_intro hrole) hopen (by simp [hidle])).trans (if_pos (by omega)))
  · rw [exec_rdbits]
    exact issue_error ((checks_pass (not_not_intro hrole) hopen (by simp [hidle])).trans (if_pos (by omega)))

/-- Settles O22: the answer is the test of rule R139. -/
theorem hasmoreAnswers : Obligations.HasmoreAnswers := by
  refine fun s hrole hopen => ⟨fun hmore => ?_, fun hend => ?_⟩
  · rw [hasmore_answers hrole hopen, if_pos hmore]
    rfl
  · rw [hasmore_answers hrole hopen, if_neg (by omega)]
    rfl

/-! ### `OPEN` and `CLOSE` -/

section OpenClose

variable {s : State}

/-- `OPEN` of a writer over a sink that fits `OMEM` (rule R134). -/
theorem openWriter_fits (hrole : s.role = .none) (hcap : s.arg.toNat ≤ s.params.omemSize) :
    exec (.openRole 1) s = .next (succeed { s with snkcap := s.arg, role := .writer }) := by
  rw [exec_openRole]
  exact issue_ok ((if_neg (not_not_intro hrole)).trans (if_neg (Nat.not_lt.mpr hcap)))

/-- `OPEN` of a reader over a source that fits `IMEM` (rule R134). -/
theorem openReader_fits (hrole : s.role = .none) (hlen : s.arg.toNat ≤ s.params.imemSize) :
    exec (.openRole 2) s = .next (succeed { s with srclen := s.arg, role := .reader }) := by
  rw [exec_openRole]
  exact issue_ok ((if_neg (not_not_intro hrole)).trans (if_neg (Nat.not_lt.mpr hlen)))

/-- A second `CLOSE` (rule R140). -/
theorem close_again (hrole : s.role ≠ .none) (hclosed : s.closed = true) : exec .close s = .next (succeed s) := by
  rw [exec_close]
  exact issue_ok ((if_neg hrole).trans (if_pos hclosed))

/-- The first `CLOSE`, with the coder idle: whether a partial byte waits decides what is delivered (rule R140). -/
theorem close_first (hrole : s.role ≠ .none) (hopen : s.closed = false) (hidle : s.ecact = false) :
    exec .close s = .next (succeed
      (if s.role = .writer ∧ s.wbits.toNat % 8 ≠ 0 then { s.withSink (s.sink.deliver s.wacc) with closed := true }
        else { s with closed := true })) := by
  rw [exec_close]
  refine issue_ok ?_
  rw [if_neg hrole, if_neg (by simp [hopen]), if_neg (by simp [hidle])]
  split
  · rfl
  · rfl

end OpenClose

/-- Settles O19: with the size inside the buffer, `OPEN` passes its checks. -/
theorem openBindsBuffer : Obligations.OpenBindsBuffer :=
  ⟨fun _ hrole hcap => openWriter_fits hrole hcap, fun _ hrole hlen => openReader_fits hrole hlen⟩

/-- Settles O23: a second `CLOSE`, a first one with no partial byte, and one that delivers `WACC`. -/
theorem closeEndsStream : Obligations.CloseEndsStream := by
  refine ⟨fun s hrole hclosed => close_again hrole hclosed, fun s hrole hopen hidle hwhole => ?_,
    fun s hrole hopen hidle hpart => ?_⟩
  · have hnone : ¬ (s.role = .writer ∧ s.wbits.toNat % 8 ≠ 0) := fun ⟨hw, hpart⟩ =>
      hwhole.elim (fun hr => by simp [hr] at hw) hpart
    rw [close_first hrole hopen hidle, if_neg hnone]
    rfl
  · rw [close_first (by simp [hrole]) hopen hidle, if_pos ⟨hrole, hpart⟩]
    exact ⟨_, rfl, Memory.read_write_same _ _ _, fun a ha => Memory.read_write_other ha _ _, rfl⟩

/-! ### What no command but `SRESET` does -/

/-- Settles O57: a completed command keeps an opened role, an error changes only the report. -/
theorem roleIsKept : Obligations.RoleIsKept := by
  intro i s t hreset hrole ht
  rcases (kept_outcome i s hreset).cases ht with ⟨k, rfl⟩ | ⟨u, rfl, -, -, hkept, -, -⟩
  · exact takeError_role _ _ s
  · exact hkept hrole

section Counters

variable {s t u v : State} {n : Nat}

/-- The counters that are stored in bits do not fall; the byte counters follow them (rules R28, R32, R42 (f)). -/
structure Rises (s u : State) : Prop where
  wbits : s.wbits.toNat ≤ u.wbits.toNat
  rbits : s.rbits.toNat ≤ u.rbits.toNat

theorem Rises.trans (h : Rises s t) (h' : Rises t u) : Rises s u :=
  ⟨h.wbits.trans h'.wbits, h.rbits.trans h'.rbits⟩

/-- What moves neither counter. -/
theorem Rises.of_eq (hw : u.wbits = s.wbits) (hr : u.rbits = s.rbits) : Rises s u :=
  ⟨by rw [hw], by rw [hr]⟩

/-- What moves neither counter may follow. -/
theorem Rises.then_eq (h : Rises s t) (hw : u.wbits = t.wbits) (hr : u.rbits = t.rbits) : Rises s u :=
  h.trans (.of_eq hw hr)

/-- A counter far below its range is advanced by addition on natural numbers. -/
theorem counter_add {c : Word64} (hfit : c.toNat + n < 2 ^ 64) : (c + BitVec.ofNat 64 n).toNat = c.toNat + n := by
  rw [BitVec.toNat_add, BitVec.toNat_ofNat, Nat.add_mod_mod, Nat.mod_eq_of_lt hfit]

theorem putBit_wbits (b : Bool) (k : Sink) : (putBit b k).wbits = k.wbits + 1 := by
  unfold putBit
  dsimp only
  split
  · rfl
  · rfl

/-- The loop of `PutBits` counts its bits (rule R131), whatever stands in the buffer. -/
theorem putLoop_wbits (val n : Nat) (k : Sink) (hfit : k.wbits.toNat + n < 2 ^ 64) :
    (putLoop val n k).wbits.toNat = k.wbits.toNat + n := by
  induction n generalizing k with
  | zero => rfl
  | succ n ih =>
    have hnext : (putBit (val.testBit n) k).wbits.toNat = k.wbits.toNat + 1 := by
      rw [putBit_wbits]
      exact counter_add (n := 1) (by omega)
    rw [putLoop, ih _ (by omega), hnext]
    omega

/-- `PutBits` with room for the bits (rule R131). -/
theorem Rises.put {val : Nat} (hcap : 8 * s.snkcap.toNat < 2 ^ 36)
    (hroom : s.wbits.toNat + n ≤ 8 * s.snkcap.toNat) : Rises s (s.withSink (putLoop val n s.sink)) := by
  refine ⟨?_, le_rfl⟩
  rw [withSink_wbits, putLoop_wbits val n s.sink (by rw [sink_wbits]; omega), sink_wbits]
  omega

/-- `GetBits` with the bits left (rule R132). -/
theorem Rises.get (hcap : 8 * s.srclen.toNat < 2 ^ 36) (hroom : s.rbits.toNat + n ≤ 8 * s.srclen.toNat) :
    Rises s { s with rbits := s.rbits + BitVec.ofNat 64 n } := by
  refine ⟨le_rfl, ?_⟩
  have hadd : (s.rbits + BitVec.ofNat 64 n).toNat = s.rbits.toNat + n := counter_add (by omega)
  rw [hadd]
  omega

/-- `EncShift` only puts (rule R217). -/
theorem Rises.encShift (m : Nat) (hcap : 8 * s.snkcap.toNat < 2 ^ 36) (hv : Machine.encShift m s = .ok v) :
    Rises s v := by
  induction m generalizing s with
  | zero =>
    cases hv
    exact .of_eq rfl rfl
  | succ m ih =>
    rw [Machine.encShift] at hv
    split at hv
    · rcases putBits_cases (s.echigh >>> 24).toNat 8 s with ⟨hroom, hput⟩ | ⟨-, hfull⟩
      · have hrise := Rises.put (val := (s.echigh >>> 24).toNat) hcap hroom
        rw [hput] at hv
        generalize putLoop (s.echigh >>> 24).toNat 8 s.sink = k at hrise hv
        have hturn : Rises s (shiftInterval (s.withSink k)) := hrise.then_eq rfl rfl
        exact hturn.trans (ih hcap hv)
      · rw [hfull] at hv
        cases hv
    · cases hv
      exact .of_eq rfl rfl

/-- `DecShift` only gets (rule R218). -/
theorem Rises.decShift (m : Nat) (hcap : 8 * s.srclen.toNat < 2 ^ 36) (hv : Machine.decShift m s = .ok v) :
    Rises s v := by
  induction m generalizing s with
  | zero =>
    cases hv
    exact .of_eq rfl rfl
  | succ m ih =>
    by_cases htop : s.eclow.toNat / 2 ^ 24 = s.echigh.toNat / 2 ^ 24
    · rcases decShift_turn m s htop with ⟨hroom, b, -, hturn⟩ | ⟨-, hend⟩
      · rw [hturn] at hv
        have hrise : Rises s (decTurn b s) := (Rises.get hcap hroom).then_eq rfl rfl
        exact hrise.trans (ih hcap hv)
      · rw [hend] at hv
        cases hv
    · rw [Machine.decShift, if_neg (by rwa [topBytesAgree_iff])] at hv
      cases hv
      exact .of_eq rfl rfl

/-- The source's length in bits is far below the counters' range. -/
theorem State.Inv.sourceLimit (h : s.Inv) : 8 * s.srclen.toNat < 2 ^ 36 := by
  have hlen := h.readerRoom.2
  have hsize := h.paramsValid.2.1.2
  omega

theorem PutDone.rises {val : Nat} (hd : PutDone val n s u) (h : s.Inv) : Rises s u := by
  obtain ⟨-, -, -, hroom, rfl⟩ := hd
  exact .put h.capacity hroom

theorem GetDone.rises (hd : GetDone n s u) (h : s.Inv) : Rises s u := by
  obtain ⟨-, -, -, hroom, _, -, rfl⟩ := hd
  exact (Rises.get h.sourceLimit hroom).then_eq rfl rfl

/-- Every command but `SRESET` completes with neither bit counter fallen, or takes an error. -/
theorem rises_outcome (i : Instr) (h : s.Inv) (hi : i ≠ .sreset) : Outcome i s (Rises s) := by
  cases i with
  | nop => exact (nop_outcome s).mono fun u hu => hu ▸ .of_eq rfl rfl
  | openRole role =>
    refine (openRole_outcome role s).mono ?_
    rintro u ⟨-, ⟨-, -, rfl⟩ | ⟨-, -, rfl⟩⟩
    · exact .of_eq rfl rfl
    · exact .of_eq rfl rfl
  | wrbit bit => exact (wrbit_outcome bit s).mono fun u hu => hu.rises h
  | wrbits len => exact (wrbits_outcome len s).mono fun u ⟨_, _, hu⟩ => hu.rises h
  | rdbit => exact (rdbit_outcome s).mono fun u hu => hu.rises h
  | rdbits len => exact (rdbits_outcome len s).mono fun u ⟨_, _, hu⟩ => hu.rises h
  | hasmore => exact (hasmore_outcome s).mono fun u ⟨_, _, hu⟩ => hu ▸ .of_eq rfl rfl
  | close =>
    refine (close_outcome s).mono ?_
    rintro u ⟨-, ⟨-, rfl⟩ | ⟨-, -, -, -, rfl⟩ | ⟨-, -, -, rfl⟩⟩
    · exact .of_eq rfl rfl
    · exact .of_eq rfl rfl
    · exact .of_eq rfl rfl
  | squash => exact (squash_outcome s).mono fun u hu => hu ▸ .of_eq rfl rfl
  | stretch => exact (stretch_outcome s).mono fun u ⟨_, hu⟩ => hu ▸ .of_eq rfl rfl
  | log2 => exact (log2_outcome s).mono fun u ⟨_, _, hu⟩ => hu ▸ .of_eq rfl rfl
  | log2k => exact (log2k_outcome s).mono fun u ⟨_, _, hu⟩ => hu ▸ .of_eq rfl rfl
  | apmnew rate => exact (apmnew_outcome rate s).mono fun u ⟨_, _, _, hu⟩ => hu ▸ .of_eq rfl rfl
  | apmget bit pr => exact (apmget_outcome bit pr s).mono fun u ⟨_, _, _, hu⟩ => hu ▸ .of_eq rfl rfl
  | ecinit codec apmen =>
    refine (ecinit_outcome codec apmen s).mono ?_
    rintro u ⟨-, -, -, -, ⟨-, rfl⟩ | ⟨-, -, rfl⟩ | ⟨-, -, hroom, _, -, rfl⟩⟩
    · exact .of_eq rfl rfl
    · exact .of_eq rfl rfl
    · exact (Rises.get h.sourceLimit hroom).then_eq rfl rfl
  | ecenc bit =>
    refine (ecenc_outcome bit s).mono ?_
    rintro u ⟨-, v, hv, rfl⟩
    have hshift := Rises.encShift maxShifts (by simpa using h.capacity) hv
    exact (Rises.of_eq (by simp) (by simp)).trans (hshift.then_eq rfl rfl)
  | ecdec =>
    refine (ecdec_outcome s).mono ?_
    rintro u ⟨-, v, hv, rfl⟩
    have hshift := Rises.decShift maxShifts (by simpa using h.sourceLimit) hv
    exact (Rises.of_eq (by simp) (by simp)).trans (hshift.then_eq rfl rfl)
  | ecfin =>
    refine (ecfin_outcome s).mono ?_
    rintro u ⟨-, -, -, ⟨-, hroom, rfl⟩ | ⟨-, rfl⟩⟩
    · have hrise := Rises.put (val := s.eclow.toNat) h.capacity hroom
      generalize putLoop s.eclow.toNat 32 s.sink = k at hrise
      exact hrise.then_eq rfl rfl
    · exact .of_eq rfl rfl
  | clrerr => exact (clrerr_outcome s).mono fun u hu => hu ▸ .of_eq rfl rfl
  | sreset => exact absurd rfl hi

/-- A command that ends, in whichever way, has let neither bit counter fall. -/
theorem exec_rises {i : Instr} (h : s.Inv) (hi : i ≠ .sreset) (ht : exec i s = .next t) : Rises s t := by
  rcases (rises_outcome i h hi).cases ht with ⟨k, rfl⟩ | ⟨u, rfl, hu⟩
  · exact .of_eq (takeError_wbits _ _ s) (takeError_rbits _ _ s)
  · exact hu.then_eq rfl rfl

/-- `RBYTES` on natural numbers (rule R32). -/
theorem rbytes_toNat (s : State) : (rbytes s).toNat = (s.rbits.toNat + 7) / 8 := by
  have hlt := s.rbits.isLt
  rw [rbytes, BitVec.toNat_ofNat, Nat.mod_eq_of_lt (by omega)]
  rfl

/-- While the stream is open `WBYTES` is the whole bytes of `WBITS` (rule R42 (f)), and so rises with it. -/
theorem Rises.wbytes (hr : Rises s t) (hs : s.Inv) (ht : t.Inv) (hopen : s.closed = false) :
    s.wbytes.toNat ≤ t.wbytes.toNat := by
  have hbits := hr.wbits
  have hbytes := hs.bytesOpen hopen
  cases hc : t.closed with
  | false =>
    have := ht.bytesOpen hc
    omega
  | true =>
    obtain ⟨hbytes', -⟩ := ht.bytesClosed hc
    omega

end Counters

/-- Settles O56: the bit counters rise command by command; the invariant ties `WBYTES` to `WBITS` in an open stream, and a
closed one keeps it (rule R81). -/
theorem countersNeverFall : Obligations.CountersNeverFall := by
  intro i s t h hi ht
  have hr := exec_rises h hi ht
  refine ⟨hr.wbits, ?_, hr.rbits, ?_⟩
  · cases hc : s.closed with
    | false => exact hr.wbytes h (exec_keeps_inv h ht) hc
    | true =>
      obtain ⟨-, hkept⟩ := closedStreamStays i s t h hc ht
      rw [(hkept hi).2]
  · have hbits := hr.rbits
    rw [rbytes_toNat, rbytes_toNat]
    omega

end Sys2Proof.Machine

/-! # The logistic engine

The functions of spec/41_logistic.md first, each by the equations that say what it answers: `Squash` (rules R163 to R165),
`Stretch` as a search and as the swept table (rules R166 to R168), `Log2` and `Log2K` (rules R170, R172). The four commands
(rules R174 to R177) come last. -/

namespace Sys2Proof.Machine

section Squash

variable {inv : List Nat} {p : Params} {d e : Int} {y w : Nat}

/-! ### `Squash` on one bracket -/

theorem squash_above (hd : 2048 ≤ d) : squash inv d = 4095 := if_pos hd

theorem squash_below (hd : d ≤ -2048) : squash inv d = 0 := (if_neg (by omega)).trans (if_pos hd)

/-- The interpolation at weight `w` of the bracket `y` (rule R163). -/
theorem squashEntry_bracket (hw : w < 128) (hd : d = 128 * ((y : Int) - 16) + w) :
    squashEntry inv d = (anchor inv y * (128 - w) + anchor inv (y + 1) * w) / 2048 := by
  have hweight : lowBits d 7 = w := by
    unfold lowBits
    omega
  have hbracket : (asr d 7 + 16).toNat = y := by
    unfold asr
    omega
  simp only [squashEntry, hweight, hbracket]
  rfl

/-- Rule R163 with both ends of the bracket: weight 128 is weight 0 of the next one, so that the steps of `Squash` need no
case for the anchors. -/
theorem squash_bracket (hlo : -2047 ≤ d) (hhi : d ≤ 2047) (hw : w ≤ 128) (hd : d = 128 * ((y : Int) - 16) + w) :
    squash inv d = (anchor inv y * (128 - w) + anchor inv (y + 1) * w) / 2048 := by
  rw [squash, if_neg (by omega), if_neg (by omega)]
  rcases Nat.lt_or_eq_of_le hw with hlt | rfl
  · exact squashEntry_bracket hlt hd
  · rw [squashEntry_bracket (y := y + 1) (w := 0) (by omega) (by push_cast; omega)]
    simp

/-- Every logit of the table lies in one of the 32 brackets (rule R163). -/
theorem exists_bracket (hlo : -2047 ≤ d) (hhi : d ≤ 2047) :
    ∃ y w : Nat, y ≤ 31 ∧ w < 128 ∧ d = 128 * ((y : Int) - 16) + w :=
  ⟨(d / 128 + 16).toNat, (d % 128).toNat, by omega, by omega, by omega⟩

/-! ### A legal anchor table -/

theorem anchor_step (h : p.Valid) (hy : y ≤ 31) : anchor p.invExp y ≤ anchor p.invExp (y + 1) := by
  obtain ⟨-, -, -, -, hmono, -, -, -⟩ := h
  exact hmono y (by omega)

/-- Only the last anchor may exceed 65535 (rule R161). -/
theorem anchor_le (h : p.Valid) (hy : y ≤ 31) : anchor p.invExp y ≤ 65535 := by
  induction hy using Nat.decreasingInduction with
  | self =>
    obtain ⟨-, -, -, -, -, h31, -, -⟩ := h
    exact h31
  | of_succ y hy ih => exact (anchor_step h (by omega)).trans ih

theorem anchor_succ_le (h : p.Valid) (hy : y ≤ 31) : anchor p.invExp (y + 1) ≤ 65536 := by
  rcases Nat.lt_or_eq_of_le hy with hlt | rfl
  · exact (anchor_le h hlt).trans (by omega)
  · obtain ⟨-, -, -, -, -, -, h32, -⟩ := h
    exact h32

/-- Rule R165 (a): the left anchor has weight at least 1 and keeps the mean below 65536. -/
theorem squash_le (h : p.Valid) (d : Int) : squash p.invExp d ≤ 4095 := by
  by_cases hhi : 2048 ≤ d
  · exact (squash_above hhi).le
  by_cases hlo : d ≤ -2048
  · rw [squash_below hlo]
    omega
  obtain ⟨y, w, hy, hw, hd⟩ := exists_bracket (d := d) (by omega) (by omega)
  have hleft := Nat.mul_le_mul_right (128 - w) (anchor_le h hy)
  have hright := Nat.mul_le_mul_right w (anchor_succ_le h hy)
  rw [squash_bracket (by omega) (by omega) hw.le hd]
  omega

/-- One logit further moves one unit of weight from an anchor to the next, which is no smaller. -/
theorem squash_step (h : p.Valid) (d : Int) : squash p.invExp d ≤ squash p.invExp (d + 1) := by
  by_cases hhi : 2047 ≤ d
  · rw [squash_above (d := d + 1) (by omega)]
    exact squash_le h d
  by_cases hlo : d ≤ -2048
  · rw [squash_below hlo]
    exact Nat.zero_le _
  obtain ⟨y, w, hy, hw, hd⟩ := exists_bracket (d := d) (by omega) (by omega)
  have hstep := anchor_step h hy
  rw [squash_bracket (by omega) (by omega) hw.le hd,
    squash_bracket (y := y) (w := w + 1) (by omega) (by omega) hw (by push_cast; omega)]
  apply Nat.div_le_div_right
  have hweight : 128 - w = 128 - (w + 1) + 1 := by omega
  rw [hweight, Nat.mul_succ, Nat.mul_succ]
  omega

/-- Rule R165 (b). -/
theorem squash_mono (h : p.Valid) : Monotone (squash p.invExp) := monotone_int_of_le_succ (squash_step h)

end Squash

/-- Settles O28: the range on each bracket, the order one logit at a time. -/
theorem squashMonotoneBounded : Obligations.SquashMonotoneBounded :=
  fun _ h => ⟨squash_le h, fun _ _ hde => squash_mono h hde⟩

section Stretch

variable {inv : List Nat} {p : Nat} {e : Int}

/-! ### `Stretch` as a search -/

theorem stretch_top (inv : List Nat) : stretch inv 4095 = 2047 := if_pos rfl

/-- The initial fill at a level no logit reaches (rule R166). -/
theorem stretch_unreached (hp : p ≠ 4095) (hnone : ∀ e, -2047 ≤ e → e ≤ 2047 → squash inv e < p) :
    stretch inv p = 0 := by
  have hsearch : firstReach inv p 4095 (-2047) = none :=
    firstReach_none.mpr fun f hlo hhi => hnone f hlo (by omega)
  rw [stretch, if_neg hp, hsearch]
  rfl

/-- A level that some logit reaches: `Stretch` answers one that reaches it, and no later one (rule R166). -/
theorem stretch_reached (hp : p ≠ 4095) (hlo : -2047 ≤ e) (hhi : e ≤ 2047) (he : p ≤ squash inv e) :
    stretch inv p ≤ e ∧ -2047 ≤ stretch inv p ∧ p ≤ squash inv (stretch inv p) := by
  cases hsearch : firstReach inv p 4095 (-2047) with
  | none =>
    have := firstReach_none.mp hsearch e hlo (by omega)
    omega
  | some d =>
    obtain ⟨hdlo, -, hd, hfirst⟩ := firstReach_some hsearch
    have hstretch : stretch inv p = d := by
      rw [stretch, if_neg hp, hsearch]
      rfl
    rw [hstretch]
    refine ⟨?_, hdlo, hd⟩
    by_contra hlt
    have := hfirst e hlo (by omega)
    omega

/-! ### `Stretch` as the swept table -/

/-- A list continued by a constant fill. -/
theorem getElem?_append_fill {α : Type} {l : List α} {a : α} {m i : Nat} (hi : i < m) :
    (l ++ List.replicate m a)[i]? = some (l[i]?.getD a) := by
  rw [List.getElem?_append]
  split
  · next hl => simp [hl]
  · next hl =>
    rw [List.getElem?_replicate, if_pos (by omega), List.getElem?_eq_none (by omega)]
    rfl

/-- The sweep assigns to each level, from the lowest unassigned on, the first logit that reaches it (rule R166). -/
theorem getElem?_stretchSweep (inv : List Nat) (n : Nat) (d : Int) (low i : Nat) :
    (stretchSweep inv n d low)[i]? = firstReach inv (low + i) n d := by
  induction n generalizing d low i with
  | zero => rfl
  | succ n ih =>
    rw [stretchSweep, firstReach, List.getElem?_append, List.length_replicate]
    by_cases hreach : low + i ≤ squash inv d
    · rw [if_pos (by omega), if_pos hreach, List.getElem?_replicate, if_pos (by omega)]
    · have hlevel : max low (squash inv d + 1) + (i - (squash inv d + 1 - low)) = low + i := by omega
      rw [if_neg (by omega), if_neg hreach, ih, hlevel]

end Stretch

/-- Settles O29: below 4095 the sweep and its fill are the search and its default; the last level is written after them. -/
theorem stretchIsSweptTable : Obligations.StretchIsSweptTable := by
  intro inv p hp
  rw [stretchTable]
  by_cases htop : p = 4095
  · subst htop
    rw [stretch_top]
    refine List.getElem?_set_self ?_
    rw [List.length_take, List.length_append, List.length_replicate]
    omega
  · rw [List.getElem?_set_ne (Ne.symm htop), List.getElem?_take_of_lt (by omega), getElem?_append_fill (by omega),
      getElem?_stretchSweep, Nat.zero_add, stretch, if_neg htop]

/-- Settles O30: below 4095 the logit itself reaches its level, and monotony closes the gap; 4095 is the level of 2047
as soon as any logit has it. -/
theorem stretchAfterSquash : Obligations.StretchAfterSquash := by
  intro p h d hlo hhi
  by_cases htop : squash p.invExp d = 4095
  · have hlast : squash p.invExp d ≤ squash p.invExp 2047 := squash_mono h hhi
    have hbound := squash_le h 2047
    refine ⟨?_, fun hne => absurd htop hne⟩
    rw [htop, stretch_top]
    omega
  · obtain ⟨hle, -, hreach⟩ := stretch_reached htop hlo hhi le_rfl
    exact ⟨le_antisymm (squash_mono h hle) hreach, fun _ => hle⟩

/-! ### `Log2` and `Log2K` -/

section Log2

variable {x k lg : Nat}

theorem log2_8_eq (x : Nat) : log2_8 x = Nat.log2 x := by
  unfold log2_8
  split
  · next h => rw [h, Nat.log2_zero]
  · rfl

/-- Shifting out `k` bits takes `k` from the position of the highest 1 bit. -/
theorem log2_div_pow_add (h : 2 ^ k ≤ x) : Nat.log2 (x / 2 ^ k) + k = Nat.log2 x := by
  rw [Nat.log2_eq_log_two, Nat.log2_eq_log_two, Nat.log_div_base_pow]
  exact Nat.sub_add_cancel (Nat.le_log_of_pow_le (by omega) h)

/-- The second shift of rule R170 and the table, from the position `r` that the first one has counted. -/
theorem log2_8_shifted (r z : Nat) :
    (if z ≥ 2 ^ 8 then r + 8 else r) + log2_8 (if z ≥ 2 ^ 8 then z / 2 ^ 8 else z) = r + Nat.log2 z := by
  rw [log2_8_eq]
  split
  · next hz =>
    have := log2_div_pow_add hz
    omega
  · rfl

/-- The two shifts of rule R170 leave the highest 1 bit in the byte that the table reads. -/
theorem log2Floor_eq (x : Nat) : log2Floor x = Nat.log2 x := by
  refine (log2_8_shifted (if x ≥ 2 ^ 16 then 16 else 0) (if x ≥ 2 ^ 16 then x / 2 ^ 16 else x)).trans ?_
  split
  · next hx =>
    have := log2_div_pow_add hx
    omega
  · exact Nat.zero_add _

/-- The test of rule R172 for a power of two. -/
theorem pow_and_pred (lg : Nat) : 2 ^ lg &&& (2 ^ lg - 1) = 0 := by
  rw [Nat.and_two_pow_sub_one_eq_mod, Nat.mod_self]

/-- The test of rule R172 between two powers of two: the highest 1 bit is that of the predecessor too. -/
theorem and_pred_ne_zero (hlo : 2 ^ lg < x) (hhi : x < 2 ^ (lg + 1)) : x &&& (x - 1) ≠ 0 := by
  intro hzero
  have hx : x.testBit lg = true := Nat.testBit_of_two_pow_le_and_two_pow_add_one_gt hlo.le hhi
  have hpred : (x - 1).testBit lg = true := Nat.testBit_of_two_pow_le_and_two_pow_add_one_gt (by omega) (by omega)
  have hbit : (x &&& (x - 1)).testBit lg = true := by rw [Nat.testBit_and, hx, hpred, Bool.and_self]
  rw [hzero, Nat.zero_testBit] at hbit
  exact Bool.false_ne_true hbit

theorem log2Scaled_small (hx : x < 256) : log2Scaled x = (log2_4096.getD x 0 + 2) / 4 := if_pos hx

theorem two_pow_ge_256 (hlg : 8 ≤ lg) : 256 ≤ 2 ^ lg := Nat.pow_le_pow_right (n := 2) (by omega) hlg

theorem log2Scaled_pow (hlg : 8 ≤ lg) : log2Scaled (2 ^ lg) = 1024 * lg := by
  have hlarge := two_pow_ge_256 hlg
  have hvalue : log2Scaled (2 ^ lg) = log2Floor (2 ^ lg) * 2 ^ 10 := (if_neg (by omega)).trans (if_pos (pow_and_pred lg))
  rw [hvalue, log2Floor_eq, Nat.log2_two_pow]
  omega

theorem log2Scaled_between (hlg : 8 ≤ lg) (hlo : 2 ^ lg < x) (hhi : x < 2 ^ (lg + 1)) :
    log2Scaled x = 1024 * (lg - 7) + (log2_4096.getD (x / 2 ^ (lg - 7)) 0 + 2) / 4 := by
  have hlarge := two_pow_ge_256 hlg
  have hfloor : log2Floor x = lg := by
    rw [log2Floor_eq]
    exact (Nat.log2_eq_iff (by omega)).mpr ⟨hlo.le, hhi⟩
  have hvalue : log2Scaled x = (log2Floor x - 7) * 2 ^ 10 +
      (log2_4096.getD (x / 2 ^ (log2Floor x - 7)) 0 + 2) / 2 ^ 2 :=
    (if_neg (by omega)).trans (if_neg (and_pred_ne_zero hlo hhi))
  rw [hvalue, hfloor]
  omega

end Log2

/-! ### The four commands -/

section Answers

variable {s : State}

theorem exec_squash (s : State) : exec .squash s = execSquash s := rfl

theorem exec_stretch (s : State) : exec .stretch s = execStretch s := rfl

theorem exec_log2 (s : State) : exec .log2 s = execLog2 s := rfl

theorem exec_log2k (s : State) : exec .log2k s = execLog2k s := rfl

/-- `SQUASH` takes every operand (rule R174). -/
theorem squash_answers (s : State) :
    exec .squash s = .next (succeed (setRes (BitVec.ofNat 64 (squash s.params.invExp s.arg.toInt)) s)) := by
  rw [exec_squash]
  exact issue_ok rfl

theorem stretch_answers (hlevel : s.arg.toNat ≤ 4095) :
    exec .stretch s = .next (succeed (setRes (BitVec.ofInt 64 (stretch s.params.invExp s.arg.toNat)) s)) := by
  rw [exec_stretch]
  exact issue_ok (if_neg (Nat.not_lt.mpr hlevel))

/-- `LOG2` and `LOG2K` accept the operands 1 to `2^32 - 1` (rules R176, R177). -/
theorem log2_operand_accepted (hzero : s.arg.toNat ≠ 0) (hword : s.arg.toNat < 2 ^ 32) :
    ¬ (argUnsigned s = 0 ∨ argUnsigned s > 2 ^ 32 - 1) := by
  rw [argUnsigned]
  omega

theorem log2_operand_refused (h : s.arg.toNat = 0 ∨ 2 ^ 32 ≤ s.arg.toNat) :
    argUnsigned s = 0 ∨ argUnsigned s > 2 ^ 32 - 1 := by
  rw [argUnsigned]
  omega

theorem log2_answers (hzero : s.arg.toNat ≠ 0) (hword : s.arg.toNat < 2 ^ 32) :
    exec .log2 s = .next (succeed (setRes (BitVec.ofNat 64 (log2Floor s.arg.toNat)) s)) := by
  rw [exec_log2]
  exact issue_ok (if_neg (log2_operand_accepted hzero hword))

theorem log2k_answers (hzero : s.arg.toNat ≠ 0) (hword : s.arg.toNat < 2 ^ 32) :
    exec .log2k s = .next (succeed (setRes (BitVec.ofNat 64 (log2Scaled s.arg.toNat)) s)) := by
  rw [exec_log2k]
  exact issue_ok (if_neg (log2_operand_accepted hzero hword))

end Answers

/-- Settles O24: the answer is `Squash`, whose two constants and brackets are the clauses. -/
theorem squashInterpolates : Obligations.SquashInterpolates :=
  fun s => ⟨_, squash_answers s, rfl, squash_above, squash_below,
    fun _ _ hlo hhi hw hd => squash_bracket hlo hhi hw.le hd⟩

/-- Settles O25: the answer is `Stretch`, with the level at the top, reached, or reached by no logit. -/
theorem stretchInverts : Obligations.StretchInverts := by
  refine fun s hlevel => ⟨_, stretch_answers hlevel, rfl, fun htop => ?_, fun hne _ => stretch_reached hne,
    fun hne => stretch_unreached hne⟩
  rw [htop, stretch_top]

/-- Settles O26: the position is `Nat.log2`. -/
theorem log2IsFloor : Obligations.Log2IsFloor := by
  intro s hzero hword
  refine ⟨log2Floor s.arg.toNat, ?_, ?_, log2_answers hzero hword⟩
  · rw [log2Floor_eq]
    exact Nat.log2_self_le hzero
  · rw [log2Floor_eq]
    exact Nat.lt_log2_self

/-- Settles O27: the answer is `Log2K` on each of its three ranges. -/
theorem log2kByTable : Obligations.Log2kByTable :=
  fun _ hzero hword => ⟨_, log2k_answers hzero hword, log2Scaled_small,
    fun _ hlg hx => hx ▸ log2Scaled_pow hlg, fun _ => log2Scaled_between⟩

/-- Settles O50: each command refuses its operand before it computes anything. -/
theorem logisticOperandRaises : Obligations.LogisticOperandRaises := by
  refine fun s => ⟨fun hlevel => ?_, fun hoperand => ⟨?_, ?_⟩⟩
  · rw [exec_stretch]
    exact issue_error (if_pos (Nat.lt_of_succ_le hlevel))
  · rw [exec_log2]
    exact issue_error (if_pos (log2_operand_refused hoperand))
  · rw [exec_log2k]
    exact issue_error (if_pos (log2_operand_refused hoperand))

end Sys2Proof.Machine

/-! # The adaptive probability map

The learn step on one cell first (rules R194, R195), then the whole step as `ApmStepped` says it, the two commands of the map
(rules R196, R197), and what a missing map or an operand outside it raises (rules R219, R220 for the coder's use of it). -/

namespace Sys2Proof.Machine

/-! ### The learn step on one cell -/

section Learn

variable (bit : BitVec 1) (rate : Nat) (c : Cell16)

theorem asr_eq_ediv (a : Int) (k : Nat) : asr a k = a / 2 ^ k := by
  simp [asr]

theorem learnTarget_eq (bit : Nat) :
    learnTarget bit rate = (bit : Int) * 65536 + (bit : Int) * 2 ^ rate - (bit : Int) * 2 := by
  simp [learnTarget]

/-- Rule R195 (a): the move toward the target leaves a cell at 0 at the least and at 65535 at the most. For a 1 the target
exceeds 65534 by one whole step, which is why 65535 and not 65536 is the fixed point. -/
theorem learn_move_range :
    -(c.toNat : Int) ≤ asr (learnTarget bit.toNat rate - c.toNat) rate ∧
      asr (learnTarget bit.toNat rate - c.toNat) rate ≤ 65535 - c.toNat := by
  have hbit : bit.toNat = 0 ∨ bit.toNat = 1 := by omega
  have hstep : (1 : Int) ≤ 2 ^ rate := one_le_pow₀ (by norm_num)
  have hdown : (c.toNat : Int) ≤ c.toNat * 2 ^ rate := le_mul_of_one_le_right (by omega) hstep
  have hup : (65535 - c.toNat : Int) ≤ (65535 - c.toNat) * 2 ^ rate := le_mul_of_one_le_right (by omega) hstep
  rw [asr_eq_ediv, learnTarget_eq]
  constructor
  · rw [Int.le_ediv_iff_mul_le (by omega)]
    rcases hbit with hbit | hbit <;> rw [hbit] <;> push_cast <;> linarith
  · rw [← Int.lt_add_one_iff, Int.ediv_lt_iff_lt_mul (by omega)]
    rcases hbit with hbit | hbit <;> rw [hbit] <;> push_cast <;> linarith

/-- The learned cell holds the exact value of rule R194. -/
theorem learnCell_toNat :
    ((learnCell bit.toNat rate c).toNat : Int) = c.toNat + asr (learnTarget bit.toNat rate - c.toNat) rate := by
  obtain ⟨hlo, hhi⟩ := learn_move_range bit rate c
  rw [learnCell, BitVec.toNat_ofInt]
  omega

end Learn

/-- Settles O33: the exact value is `learnCell_toNat`, with the target written out. -/
theorem learnStaysInRange : Obligations.LearnStaysInRange := by
  intro bit rate c
  rw [learnCell_toNat, asr_eq_ediv, learnTarget_eq]

/-! ### The whole step -/

/-- `ApmStep` (rule R194) learns, selects and answers, in a context that a map can have. -/
theorem apmStep_stepped (bit : BitVec 1) (pr : Probability) (ctx : Nat) (s : State) (hctx : ctx < 2 ^ 24) :
    ApmStepped bit.toNat pr.toNat ctx s (apmStep bit pr ctx s).2 (apmStep bit pr ctx s).1.toNat := by
  obtain ⟨hindex, -, -⟩ := apmStep_index bit pr ctx s hctx
  refine ⟨fun i hi => ?_, apmLearn_read bit s, hindex, apmAnswer_toNat pr (apmStep bit pr ctx s).2⟩
  have hcell : cellAt (apmStep bit pr ctx s).2 i = learnCell bit.toNat s.apmrate.toNat (cellAt s i) :=
    (apmLearn_cell bit s i).trans (if_pos hi)
  rw [hcell, learnCell_toNat, asr_eq_ediv, learnTarget_eq]

/-- What a step did to the map shows in the cells and the index alone, so it holds of a state that shares them. -/
theorem ApmStepped.of_sameMap {bit pr ctx answer : Nat} {s t u : State} (h : ApmStepped bit pr ctx s u answer)
    (hcell : t.cell = u.cell) (hindex : t.apmidx = u.apmidx) : ApmStepped bit pr ctx s t answer := by
  simpa only [ApmStepped, cellAt, hcell, hindex] using h

/-! ### The two commands -/

section Commands

variable {s : State}

theorem exec_apmnew (rate : BitVec 4) (s : State) : exec (.apmnew rate) s = execApmnew rate s := rfl

theorem exec_apmget (bit : BitVec 1) (pr : Probability) (s : State) : exec (.apmget bit pr) s = execApmget bit pr s := rfl

/-- The map as `APMNEW` leaves it (rule R196). -/
def mapped (rate : BitVec 4) (s : State) : State :=
  { s with
    apmn := BitVec.ofNat 32 s.arg.toNat, apmrate := rate, apmidx := 0, apmvld := true,
    cell := Memory.fill (33 * s.arg.toNat) (fun i => apmSeed s.params.invExp (i % 33)) s.cell }

theorem mapped_apmn_toNat (rate : BitVec 4) (h : s.params.Valid) (hmax : s.arg.toNat ≤ s.params.apmMaxCtx) :
    (mapped rate s).apmn.toNat = s.arg.toNat := by
  obtain ⟨-, -, ⟨-, hlimit⟩, -⟩ := h
  exact (BitVec.toNat_ofNat _ _).trans (Nat.mod_eq_of_lt (by omega))

/-- Every context holds the 33 seeds of rule R193. -/
theorem mapped_cell_seeded (rate : BitVec 4) {c j : Nat} (hc : c < s.arg.toNat) (hj : j ≤ 32) :
    Memory.read (mapped rate s).cell (33 * c + j) =
      some (BitVec.ofNat 16 (16 * squash s.params.invExp (128 * ((j : Int) - 16)))) := by
  have hanchor : (33 * c + j) % 33 = j := by omega
  rw [mapped, Memory.read_fill, if_pos (by omega), hanchor, apmSeed, Nat.mul_comm]
  rfl

theorem mapped_cell_above (rate : BitVec 4) {i : Nat} (hi : 33 * s.arg.toNat ≤ i) :
    Memory.read (mapped rate s).cell i = Memory.read s.cell i := by
  rw [mapped, Memory.read_fill, if_neg (by omega)]

theorem apmnew_maps (rate : BitVec 4) (hfree : ¬ (s.ecact = true ∧ s.ecapm = true)) (hpos : 1 ≤ s.arg.toNat)
    (hmax : s.arg.toNat ≤ s.params.apmMaxCtx) : exec (.apmnew rate) s = .next (succeed (mapped rate s)) := by
  have hcount : ¬ (argUnsigned s = 0 ∨ argUnsigned s > s.params.apmMaxCtx) := by
    rw [argUnsigned]
    omega
  rw [exec_apmnew]
  exact issue_ok ((if_neg hfree).trans (if_neg hcount))

theorem apmget_answers (bit : BitVec 1) (pr : Probability) (hmap : s.apmvld = true)
    (hfree : ¬ (s.ecact = true ∧ s.ecapm = true)) (hctx : s.arg.toNat < s.apmn.toNat) :
    exec (.apmget bit pr) s = .next (succeed
      (setRes (BitVec.ofNat 64 (apmStep bit pr s.arg.toNat s).1.toNat) (apmStep bit pr s.arg.toNat s).2)) := by
  rw [exec_apmget]
  exact issue_ok ((if_neg (not_not_intro hmap)).trans ((if_neg hfree).trans (if_neg (Nat.not_le.mpr hctx))))

/-- A body that writes the cells and the index only, then `RES`, to the end of its command. -/
theorem succeed_setRes_frame {u : State} (v : Word64) (h : u = { s with cell := u.cell, apmidx := u.apmidx }) :
    succeed (setRes v u) =
      { s with cell := (succeed (setRes v u)).cell, apmidx := (succeed (setRes v u)).apmidx, res := v, err := .ok,
               cmdcnt := s.cmdcnt + 1 } := by
  rw [h]
  rfl

/-- A context of a map is below the limit of rule R6. -/
theorem State.Inv.context_lt (h : s.Inv) (hmap : s.apmvld = true) {ctx : Nat} (hctx : ctx < s.apmn.toNat) :
    ctx < 2 ^ 24 := by
  obtain ⟨-, hsize⟩ := h.mapSize hmap
  obtain ⟨-, -, ⟨-, hlimit⟩, -⟩ := h.paramsValid
  omega

end Commands

/-- Settles O31: the commit of `mapped`, whose cells are a fill over the old ones. -/
theorem apmnewSeeds : Obligations.ApmnewSeeds :=
  fun _ rate hvalid hfree hpos hmax => ⟨_, apmnew_maps rate hfree hpos hmax, mapped_apmn_toNat rate hvalid hmax,
    fun _ _ => mapped_cell_seeded rate, fun _ => mapped_cell_above rate, rfl⟩

/-- Settles O32: the commit of `apmStep`, which `apmStep_stepped` describes and which writes the cells and the index only. -/
theorem apmgetSteps : Obligations.ApmgetSteps := by
  intro s bit pr hinv hmap hfree hctx
  have hstep := apmStep_stepped bit pr s.arg.toNat s (hinv.context_lt hmap hctx)
  have hexec := apmget_answers bit pr hmap hfree hctx
  have hframe := apmStep_frame bit pr s.arg.toNat s
  exact ⟨_, _, hexec, hstep.of_sameMap rfl rfl, succeed_setRes_frame _ hframe⟩

/-! ### Operands the map refuses -/

/-- Settles O51: each command refuses its operand right after the checks of sequence (rule R263). -/
theorem mapOperandRaises : Obligations.MapOperandRaises := by
  refine fun s => ⟨fun rate hfree hcount => ?_, fun bit pr hnone => ?_, fun bit pr hmap hfree hctx => ?_,
    fun hopen hact hrefine hctx => ⟨fun bit hrole => ?_, fun hrole => ?_⟩⟩
  · rw [exec_apmnew]
    exact issue_error ((if_neg hfree).trans (if_pos hcount))
  · rw [exec_apmget]
    exact issue_error (if_pos (by simp [hnone]))
  · rw [exec_apmget]
    exact issue_error ((if_neg (not_not_intro hmap)).trans ((if_neg hfree).trans (if_pos hctx)))
  · rw [exec_ecenc]
    exact issue_error
      ((checks_pass (not_not_intro hrole) hopen (not_not_intro hact)).trans (if_pos ⟨hrefine, hctx⟩))
  · rw [exec_ecdec]
    exact issue_error
      ((checks_pass (not_not_intro hrole) hopen (not_not_intro hact)).trans (if_pos ⟨hrefine, hctx⟩))

end Sys2Proof.Machine

/-! # The entropy coder

The checks and operands of `ECINIT` and what the coder's state excludes come first (rules R211, R213, R225); then prediction
and the split point (rules R214, R222), and the two coding commands on natural numbers (rules R215 to R220); `ECFIN` (rule
R221) and the lockstep of encoder and decoder (rule R223) come last. -/

namespace Sys2Proof.Machine

/-! ### What the coder's state excludes -/

section Excluded

variable {wrong busy : Prop} [Decidable wrong] [Decidable busy] {r : Except Raised State}

/-- The checks of role and stream passed, that of the coder not (rule R263). -/
theorem checks_busy {closed : Bool} (hrole : ¬ wrong) (hopen : closed = false) (hbusy : busy) :
    (if wrong then raise .illegalCommand else if closed then raise .streamClosed
      else if busy then raise .illegalCommand else r) = .error ⟨.illegalCommand, 0⟩ := by
  rw [if_neg hrole, if_neg (by simp [hopen]), if_pos hbusy, raise_eq_error]

variable {s : State}

/-- `CLOSE` of an open stream waits for `ECFIN` (rules R140, R225). -/
theorem close_busy (hrole : s.role ≠ .none) (hopen : s.closed = false) (hact : s.ecact = true) :
    exec .close s = .next (takeError (encode .close) ⟨.illegalCommand, 0⟩ s) := by
  rw [exec_close]
  exact issue_error ((if_neg hrole).trans ((if_neg (by simp [hopen])).trans (if_pos hact)))

/-- `APMGET` while the coder uses the map (rules R197, R225); without a map the check before it raises the same error. -/
theorem apmget_busy (bit : BitVec 1) (pr : Probability) (hrefine : s.ecact = true ∧ s.ecapm = true) :
    exec (.apmget bit pr) s = .next (takeError (encode (.apmget bit pr)) ⟨.illegalCommand, 0⟩ s) := by
  rw [exec_apmget]
  refine issue_error ?_
  by_cases hmap : s.apmvld = true
  · exact (if_neg (not_not_intro hmap)).trans (if_pos hrefine)
  · exact if_pos hmap

end Excluded

/-- Settles O44: the coder is checked right after role and stream, and by the map's commands before their operand. -/
theorem coderStateExcludes : Obligations.CoderStateExcludes := by
  rintro s i (⟨hopen, hact, ⟨⟨_, rfl⟩ | ⟨_, rfl⟩, hrole⟩ | ⟨rfl | ⟨_, rfl⟩, hrole⟩ | ⟨rfl | ⟨_, _, rfl⟩, hrole⟩⟩ |
    ⟨hact, hrefine, ⟨_, rfl⟩ | ⟨_, _, rfl⟩⟩ |
    ⟨hopen, hidle, ⟨⟨_, rfl⟩, hrole⟩ | ⟨rfl, hrole⟩ | ⟨rfl, hrole⟩⟩)
  · rw [exec_wrbit]; exact issue_error (checks_busy (not_not_intro hrole) hopen hact)
  · rw [exec_wrbits]; exact issue_error (checks_busy (not_not_intro hrole) hopen hact)
  · rw [exec_rdbit]; exact issue_error (checks_busy (not_not_intro hrole) hopen hact)
  · rw [exec_rdbits]; exact issue_error (checks_busy (not_not_intro hrole) hopen hact)
  · exact close_busy hrole hopen hact
  · rw [exec_ecinit]; exact issue_error (checks_busy hrole hopen hact)
  · rw [exec_apmnew]; exact issue_error (if_pos ⟨hact, hrefine⟩)
  · exact apmget_busy _ _ ⟨hact, hrefine⟩
  · rw [exec_ecenc]; exact issue_error (checks_busy (not_not_intro hrole) hopen (by simp [hidle]))
  · rw [exec_ecdec]; exact issue_error (checks_busy (not_not_intro hrole) hopen (by simp [hidle]))
  · rw [exec_ecfin]; exact issue_error (checks_busy hrole hopen (by simp [hidle]))

/-! ### `ECINIT` -/

section Ecinit

variable {s : State} {codec : BitVec 4} {apmen : BitVec 1}

/-- Refinement is asked for only with a map (rule R213). -/
theorem refinement_allowed (hmap : apmen = 1 → s.apmvld = true) : ¬ (flagOf apmen = true ∧ ¬ s.apmvld = true) :=
  fun ⟨hflag, hnone⟩ => hnone (hmap (by simpa [flagOf] using hflag))

theorem ecinit_noMap (hrole : s.role ≠ .none) (hopen : s.closed = false) (hidle : s.ecact = false)
    (hnone : s.apmvld = false) :
    exec (.ecinit codec 1) s = .next (takeError (encode (.ecinit codec 1)) ⟨.illegalCommand, 0⟩ s) := by
  rw [exec_ecinit]
  exact issue_error ((checks_pass hrole hopen (by simp [hidle])).trans (if_pos ⟨rfl, by simp [hnone]⟩))

/-- A codec id that names no codec: which error it is depends on the role (rule R211). -/
theorem ecinit_unrecognised (hrole : s.role ≠ .none) (hopen : s.closed = false) (hidle : s.ecact = false)
    (hmap : apmen = 1 → s.apmvld = true) (hcodec : 2 ≤ codec.toNat) :
    exec (.ecinit codec apmen) s = .next (takeError (encode (.ecinit codec apmen))
      ⟨if s.role = .reader then .unsupportedCodec else .invalidArgument, 0⟩ s) := by
  rw [exec_ecinit]
  refine issue_error ((checks_pass hrole hopen (by simp [hidle])).trans ?_)
  rw [if_neg (refinement_allowed hmap), if_pos hcodec]
  split
  · rfl
  · rfl

/-- Codec `NONE` with refinement (rule R213). -/
theorem ecinit_none_refined (hrole : s.role ≠ .none) (hopen : s.closed = false) (hidle : s.ecact = false)
    (hmap : s.apmvld = true) :
    exec (.ecinit 0 1) s = .next (takeError (encode (.ecinit 0 1)) ⟨.invalidArgument, 0⟩ s) := by
  rw [exec_ecinit]
  refine issue_error ((checks_pass hrole hopen (by simp [hidle])).trans ?_)
  rw [if_neg (refinement_allowed fun _ => hmap), if_neg (by decide), if_pos (by decide)]
  exact if_pos rfl

/-- Codec `NONE` without refinement starts nothing (rule R213). -/
theorem ecinit_none (hrole : s.role ≠ .none) (hopen : s.closed = false) (hidle : s.ecact = false) :
    exec (.ecinit 0 0) s = .next (succeed s) := by
  rw [exec_ecinit]
  refine issue_ok ((checks_pass hrole hopen (by simp [hidle])).trans ?_)
  rw [if_neg (refinement_allowed fun h => absurd h (by decide)), if_neg (by decide), if_pos (by decide)]
  exact if_neg (by decide)

/-- Codec `FPAQ` in a writer (rule R213). -/
theorem ecinit_writer (hrole : s.role = .writer) (hopen : s.closed = false) (hidle : s.ecact = false)
    (hmap : apmen = 1 → s.apmvld = true) : exec (.ecinit 1 apmen) s = .next (succeed (started apmen 0 s)) := by
  rw [exec_ecinit]
  refine issue_ok ((checks_pass (by simp [hrole]) hopen (by simp [hidle])).trans ?_)
  rw [if_neg (refinement_allowed hmap), if_neg (by decide), if_neg (by decide)]
  exact if_neg (by simp [hrole])

end Ecinit

/-- Settles O52: a missing map, then the codec id, then refinement of no codec. -/
theorem ecinitRaises : Obligations.EcinitRaises := by
  refine fun s hopen hidle => ⟨fun codec hrole => ecinit_noMap hrole hopen hidle, fun codec apmen hmap hcodec hrole => ?_,
    fun codec apmen hmap hcodec hrole => ?_, fun hrole => ecinit_none_refined hrole hopen hidle⟩
  · rw [ecinit_unrecognised (by simp [hrole]) hopen hidle hmap hcodec, if_pos hrole]
  · rw [ecinit_unrecognised (by simp [hrole]) hopen hidle hmap hcodec, if_neg (by simp [hrole])]

/-- Settles O34: the state that codec `NONE` leaves alone, and the one that starts the coder. -/
theorem ecinitStartsWriter : Obligations.EcinitStartsWriter :=
  ⟨fun _ hrole hopen hidle => ecinit_none hrole hopen hidle,
    fun _ _ hrole hopen hidle hmap => ecinit_writer hrole hopen hidle hmap⟩

/-- Settles O35: `GetBits(32)` gives the field that `ECCODE` starts with. -/
theorem ecinitPrimesReader : Obligations.EcinitPrimesReader := by
  intro s apmen hrole hopen hidle hmap hroom
  obtain ⟨v, hv, hget⟩ := getBits_ok hroom
  refine ⟨v, hv, ?_⟩
  rw [ecinit_primes ⟨hrole, hopen, hidle⟩ hmap]
  refine issue_ok (t := started apmen (BitVec.ofNat 32 v) { s with rbits := s.rbits + BitVec.ofNat 64 32 }) ?_
  rw [getThen, hget]

/-! ### Prediction and the split point -/

/-- The top 12 bits of `ECPRED` are a Probability (rule R214). -/
theorem topBits_toNat (p : BitVec 16) : (BitVec.ofNat 12 (p.toNat / 2 ^ 4)).toNat = p.toNat / 16 := by
  have := p.isLt
  exact (BitVec.toNat_ofNat _ _).trans (Nat.mod_eq_of_lt (by omega))

/-- Settles O36: the plain prediction, and the refined one as a step of the APM. -/
theorem predictRefines : Obligations.PredictRefines := by
  refine fun s ctx h => ⟨fun hplain => predict_plain hplain ctx, fun hrefine hctx => ?_⟩
  have hstep := apmStep_stepped s.eclast (BitVec.ofNat 12 (s.ecpred.toNat / 2 ^ 4)) ctx s
    (h.context_lt (h.refining hrefine) hctx)
  rw [topBits_toNat] at hstep
  exact ⟨_, _, predict_refined hrefine ctx, hstep, apmStep_frame _ _ _ _⟩

/-- Settles O40: on natural numbers, since the low end is not above the high end. -/
theorem splitInsideInterval : Obligations.SplitInsideInterval := by
  intro s pr hlt
  obtain ⟨hlow, hhigh⟩ := midPoint_range hlt pr.isLt
  rw [splitPoint_eq hlt.le]
  omega

/-! ### One coded bit -/

/-- The state that a coding command renormalises: predicted for the context `ARG`, then narrowed by `bit` (rules R214,
R215). -/
def narrowed (bit : Bool) (s : State) : State :=
  narrow bit (splitPoint (predict s.arg.toNat s).1 (predict s.arg.toNat s).2) (predict s.arg.toNat s).2

/-- The state after the renormalisation `u`, with the bit observed and the Probability recorded (rule R216). -/
def observed (bit : Bool) (pr : Probability) (u : State) : State := { predUpdate bit u with ecpr := pr }

@[simp] theorem observed_sink (bit : Bool) (pr : Probability) (u : State) : (observed bit pr u).sink = u.sink := rfl
@[simp] theorem observed_eclow (bit : Bool) (pr : Probability) (u : State) : (observed bit pr u).eclow = u.eclow := rfl
@[simp] theorem observed_echigh (bit : Bool) (pr : Probability) (u : State) : (observed bit pr u).echigh = u.echigh := rfl
@[simp] theorem observed_eccode (bit : Bool) (pr : Probability) (u : State) : (observed bit pr u).eccode = u.eccode := rfl
@[simp] theorem observed_ecpred (bit : Bool) (pr : Probability) (u : State) :
    (observed bit pr u).ecpred = (predUpdate bit u).ecpred := rfl

@[simp] theorem succeed_sink (s : State) : (succeed s).sink = s.sink := rfl

/-- A renormalisation that completed in `u` goes on with `f u`; one that raised raises (rules R219, R220). -/
def shiftThen (r : Except Raised State) (f : State → State) : Except Raised State :=
  match r with
  | .error e => .error e
  | .ok u => .ok (f u)

section Coding

variable {s u : State} {b : BitVec 1} {e : Raised}

/-- The operand check of a coding command that refines (rules R219, R220). -/
theorem Coding.context_allowed {r : Role} (h : Coding r s) : ¬ (s.ecapm = true ∧ argUnsigned s ≥ s.apmn.toNat) := by
  obtain ⟨-, -, -, hctx⟩ := h
  rintro ⟨hrefine, hout⟩
  exact Nat.not_le.mpr (hctx hrefine) hout

/-- The checks of `ECENC`, passed: what it does turns on its renormalisation (rule R219). -/
theorem ecenc_shifts (h : Coding .writer s) :
    exec (.ecenc b) s = issue (.ecenc b) (fun s => shiftThen (encShift maxShifts (narrowed (flagOf b) s))
      (observed (flagOf b) (predict s.arg.toNat s).1)) s := by
  have hctx := h.context_allowed
  obtain ⟨hrole, hopen, hact, -⟩ := h
  rw [exec_ecenc]
  exact issue_congr ((checks_pass (not_not_intro hrole) hopen (not_not_intro hact)).trans (if_neg hctx))

/-- The checks of `ECDEC`, passed: what it does turns on its renormalisation (rule R220). -/
theorem ecdec_shifts (h : Coding .reader s) :
    exec .ecdec s = issue .ecdec (fun s => shiftThen (decShift maxShifts (narrowed (decodedBit s) s))
      (fun u => setRes (BitVec.ofNat 64 (decodedBit s).toNat)
        (observed (decodedBit s) (predict s.arg.toNat s).1 u))) s := by
  have hctx := h.context_allowed
  obtain ⟨hrole, hopen, hact, -⟩ := h
  rw [exec_ecdec]
  exact issue_congr ((checks_pass (not_not_intro hrole) hopen (not_not_intro hact)).trans (if_neg hctx))

theorem ecenc_ok (h : Coding .writer s) (hu : encShift maxShifts (narrowed (flagOf b) s) = .ok u) :
    exec (.ecenc b) s = .next (succeed (observed (flagOf b) (predict s.arg.toNat s).1 u)) :=
  (ecenc_shifts h).trans (issue_ok (congrArg (shiftThen · _) hu))

theorem ecenc_error (h : Coding .writer s) (he : encShift maxShifts (narrowed (flagOf b) s) = .error e) :
    exec (.ecenc b) s = .next (takeError (encode (.ecenc b)) e s) :=
  (ecenc_shifts h).trans (issue_error (congrArg (shiftThen · _) he))

theorem ecdec_ok (h : Coding .reader s) (hu : decShift maxShifts (narrowed (decodedBit s) s) = .ok u) :
    exec .ecdec s = .next (succeed
      (setRes (BitVec.ofNat 64 (decodedBit s).toNat) (observed (decodedBit s) (predict s.arg.toNat s).1 u))) :=
  (ecdec_shifts h).trans (issue_ok (congrArg (shiftThen · _) hu))

theorem ecdec_error (h : Coding .reader s) (he : decShift maxShifts (narrowed (decodedBit s) s) = .error e) :
    exec .ecdec s = .next (takeError (encode .ecdec) e s) :=
  (ecdec_shifts h).trans (issue_error (congrArg (shiftThen · _) he))

end Coding

/-! ### The coding commands on natural numbers -/

section CodedBit

variable {s t u v : State} {bit : Bool}

theorem flagOf_eq (b : BitVec 1) : flagOf b = (b == 1) := rfl

theorem ofNat_toNat_bool (bit : Bool) : BitVec.ofNat 64 bit.toNat = if bit then 1 else 0 := by
  cases bit
  · rfl
  · rfl

theorem if_flagOf (b : BitVec 1) : (if flagOf b then 1 else 0 : BitVec 1) = b := by
  revert b
  decide

/-- While the coder is active its interval is no single point (rules R36, R222). -/
theorem State.Inv.interval_lt (h : s.Inv) (hact : s.ecact = true) : s.eclow.toNat < s.echigh.toNat := by
  obtain ⟨hle, htop⟩ := h.interval hact
  exact lt_of_le_of_ne hle fun heq => htop (by rw [heq])

/-- The split point of the predicted state (rules R214, R215): prediction does not touch the interval. -/
theorem split_predicted (h : s.Inv) (hact : s.ecact = true) :
    splitPoint (predict s.arg.toNat s).1 (predict s.arg.toNat s).2 =
      (midPoint s.eclow.toNat s.echigh.toNat (predict s.arg.toNat s).1.toNat : Nat) := by
  rw [splitPoint_eq (by simpa using (h.interval_lt hact).le), predict_eclow, predict_echigh]

/-- The narrowed interval on natural numbers (rule R215). -/
theorem narrowed_ends (h : s.Inv) (hact : s.ecact = true) (bit : Bool) :
    (narrowed bit s).eclow.toNat =
        narrowedLow bit s.eclow.toNat s.echigh.toNat (predict s.arg.toNat s).1.toNat ∧
      (narrowed bit s).echigh.toNat =
        narrowedHigh bit s.eclow.toNat s.echigh.toNat (predict s.arg.toNat s).1.toNat := by
  obtain ⟨-, hhigh⟩ := midPoint_range (h.interval_lt hact) (predict s.arg.toNat s).1.isLt
  obtain ⟨hl, hh⟩ := narrow_ends (bit := bit) (s := (predict s.arg.toNat s).2)
    (m := midPoint s.eclow.toNat s.echigh.toNat (predict s.arg.toNat s).1.toNat) (by simpa using hhigh)
  rw [narrowed, split_predicted h hact, hl, hh, predict_eclow, predict_echigh]
  exact ⟨rfl, rfl⟩

/-- The bit decoded, on natural numbers (rule R220). -/
theorem decodedBit_eq (h : s.Inv) (hact : s.ecact = true) :
    decodedBit s =
      decide (s.eccode.toNat ≤ midPoint s.eclow.toNat s.echigh.toNat (predict s.arg.toNat s).1.toNat) := by
  rw [decodedBit, split_predicted h hact, predict_eccode]
  exact decide_eq_decide.mpr Int.ofNat_le

/-- What the four turns settle of the narrowed interval (rules R217, R218). -/
theorem settledIn_narrowed (h : s.Inv) (hact : s.ecact = true) (bit : Bool) :
    settledIn maxShifts (narrowed bit s).eclow.toNat (narrowed bit s).echigh.toNat =
      settledBytes (narrowedLow bit s.eclow.toNat s.echigh.toNat (predict s.arg.toNat s).1.toNat)
        (narrowedHigh bit s.eclow.toNat s.echigh.toNat (predict s.arg.toNat s).1.toNat) := by
  obtain ⟨hl, hh⟩ := narrowed_ends h hact bit
  rw [← hl, ← hh]
  exact settledIn_four (narrowed bit s).eclow.isLt (narrowed bit s).echigh.isLt

/-! What prediction and narrowing leave alone. -/

@[simp] theorem narrowed_wbits (bit : Bool) (s : State) : (narrowed bit s).wbits = s.wbits := by simp [narrowed]
@[simp] theorem narrowed_snkcap (bit : Bool) (s : State) : (narrowed bit s).snkcap = s.snkcap := by simp [narrowed]
@[simp] theorem narrowed_rbits (bit : Bool) (s : State) : (narrowed bit s).rbits = s.rbits := by simp [narrowed]
@[simp] theorem narrowed_srclen (bit : Bool) (s : State) : (narrowed bit s).srclen = s.srclen := by simp [narrowed]
@[simp] theorem narrowed_eccode (bit : Bool) (s : State) : (narrowed bit s).eccode = s.eccode := by simp [narrowed]
@[simp] theorem narrowed_imem (bit : Bool) (s : State) : (narrowed bit s).imem = s.imem := by simp [narrowed]

@[simp] theorem narrowed_sink (bit : Bool) (s : State) : (narrowed bit s).sink = s.sink := by
  simp [narrowed, State.sink]

/-- The predictor moves from where the command found it (rule R216). -/
theorem updated_ecpred (bit : Bool) (h : s.Inv) (hact : s.ecact = true) (hu : u.ecpred = s.ecpred) :
    (predUpdate bit u).ecpred.toNat = updatedPredictor bit s.ecpred.toNat := by
  have hrange := h.predictor hact
  rw [← hu] at hrange ⊢
  exact (predUpdate_range hrange).1

/-- `ECENC` that completed, after its renormalisation `v`: all it has changed (rule R219). -/
theorem ecenc_done_frame {b : BitVec 1} (hv : encShift maxShifts (narrowed (flagOf b) s) = .ok v)
    (ht : t = succeed (observed (flagOf b) (predict s.arg.toNat s).1 v)) :
    t = { s with
      wbits := t.wbits, wbytes := t.wbytes, wacc := t.wacc, omem := t.omem, eclow := t.eclow, echigh := t.echigh,
      ecpred := t.ecpred, eclast := b, ecpr := (predict s.arg.toNat s).1, cell := (predict s.arg.toNat s).2.cell,
      apmidx := (predict s.arg.toNat s).2.apmidx, err := .ok, cmdcnt := s.cmdcnt + 1 } := by
  have hlast : t.eclast = b := by
    rw [ht]
    exact if_flagOf b
  rw [← hlast, ht, ecenc_frame hv]
  rfl

/-- `ECDEC` that completed, after its renormalisation `v`: all it has changed (rule R220). -/
theorem ecdec_done_frame (hv : decShift maxShifts (narrowed bit s) = .ok v)
    (ht : t = succeed (setRes (BitVec.ofNat 64 bit.toNat) (observed bit (predict s.arg.toNat s).1 v))) :
    t = { s with
      rbits := v.rbits, eccode := t.eccode, eclow := t.eclow, echigh := t.echigh, ecpred := t.ecpred,
      eclast := if bit then 1 else 0, ecpr := (predict s.arg.toNat s).1, cell := (predict s.arg.toNat s).2.cell,
      apmidx := (predict s.arg.toNat s).2.apmidx, res := if bit then 1 else 0, err := .ok, cmdcnt := s.cmdcnt + 1 } := by
  rw [ht, ofNat_toNat_bool, ecdec_frame hv]
  rfl

end CodedBit

/-- Settles O37: `EncShift` on the narrowed interval has room, and the rest of the state is the frame of `ECENC`. -/
theorem ecencCodesBit : Obligations.EcencCodesBit := by
  rintro s b pr lo hi k h hrole hopen hact hctx rfl hlo hhi hk hroom
  rw [← flagOf_eq] at hlo hhi ⊢
  obtain ⟨hl, hh⟩ := narrowed_ends h hact (flagOf b)
  have hsettled := settledIn_narrowed h hact (flagOf b)
  rw [← hlo, ← hhi, ← hk] at hsettled
  rw [← hlo] at hl
  rw [← hhi] at hh
  obtain ⟨u, hu, happ, hul, huh, -⟩ := encShift_ok maxShifts (le_refl 4) (narrowed (flagOf b) s)
    (by simpa using h.sink_open hopen) (by simpa using h.capacity) (by simpa [hsettled] using hroom)
  rw [hsettled, hh, narrowed_sink] at happ
  rw [hsettled, hl] at hul
  rw [hsettled, hh] at huh
  have hpred : u.ecpred = s.ecpred := by rw [ecenc_frame hu]
  refine ⟨_, ecenc_ok ⟨hrole, hopen, hact, hctx⟩ hu, Appends.of_sink ?_, ?_, ?_, ?_, ecenc_done_frame hu rfl⟩
  · rwa [succeed_sink, observed_sink]
  · rwa [succeed_eclow, observed_eclow]
  · rwa [succeed_echigh, observed_echigh]
  · rw [succeed_ecpred, observed_ecpred, updated_ecpred _ h hact hpred]

/-- Settles O38: `DecShift` on the interval narrowed by the decoded bit finds its bytes, and the rest of the state is the
frame of `ECDEC`. -/
theorem ecdecDecodesBit : Obligations.EcdecDecodesBit := by
  rintro s bit pr lo hi k h hrole hopen hact hctx rfl hbit hlo hhi hk hroom
  rw [← decodedBit_eq h hact] at hbit
  subst hbit
  obtain ⟨hl, hh⟩ := narrowed_ends h hact (decodedBit s)
  have hsettled := settledIn_narrowed h hact (decodedBit s)
  rw [← hlo, ← hhi, ← hk] at hsettled
  rw [← hlo] at hl
  rw [← hhi] at hh
  obtain ⟨u, v, hu, hv, huc, hul, huh, huf⟩ := decShift_ok maxShifts (le_refl 4) (narrowed (decodedBit s) s)
    (by simpa using h.sourceLimit) (by simpa [hsettled] using hroom)
  have hur : u.rbits = s.rbits + BitVec.ofNat 64 (8 * k) := by
    rw [huf, hsettled, narrowed_rbits]
  rw [hsettled, narrowed_rbits] at hv
  rw [hsettled, narrowed_eccode] at huc
  rw [hsettled, hl] at hul
  rw [hsettled, hh] at huh
  have hpred : u.ecpred = s.ecpred := by rw [ecdec_frame hu]
  have hframe := ecdec_done_frame hu rfl
  rw [hur] at hframe
  refine ⟨_, v, ecdec_ok ⟨hrole, hopen, hact, hctx⟩ hu, (SourceField.congr (narrowed_imem _ s)).1 hv, ?_, ?_, ?_, ?_,
    hframe⟩
  · rwa [succeed_eccode, setRes_eccode, observed_eccode]
  · rwa [succeed_eclow, setRes_eclow, observed_eclow]
  · rwa [succeed_echigh, setRes_echigh, observed_echigh]
  · rw [succeed_ecpred, setRes_ecpred, observed_ecpred, updated_ecpred _ h hact hpred]

/-- Settles O48: the renormalisation of either command raises before it has shifted all that is settled. -/
theorem codingWithoutRoomRaises : Obligations.CodingWithoutRoomRaises := by
  rintro s pr h hopen hact hctx rfl
  refine ⟨fun b hrole hfull => ?_, fun bit hrole hbit hend => ?_⟩
  · rw [← flagOf_eq, ← settledIn_narrowed h hact] at hfull
    have hshift := encShift_error maxShifts (narrowed (flagOf b) s) (by simpa using h.capacity)
      (by simpa using h.sink_open hopen) (by simpa using hfull) (by simpa using h.writerRoom.1)
    exact ecenc_error ⟨hrole, hopen, hact, hctx⟩ hshift
  · rw [← decodedBit_eq h hact] at hbit
    rw [hbit, ← settledIn_narrowed h hact] at hend
    have hshift := decShift_error maxShifts (narrowed (decodedBit s) s) (by simpa using h.sourceLimit)
      (by simpa using hend) (by simpa using h.readerRoom.1)
    exact ecdec_error ⟨hrole, hopen, hact, hctx⟩ hshift

/-! ### `ECFIN` -/

@[simp] theorem stopped_sink (s : State) : (stopped s).sink = s.sink := rfl

/-- `ECFIN` of a reader puts nothing (rule R221). -/
theorem ecfin_reader {s : State} (hrole : s.role = .reader) (hopen : s.closed = false) (hact : s.ecact = true) :
    exec .ecfin s = .next (succeed (stopped s)) := by
  rw [exec_ecfin]
  refine issue_ok ((checks_pass (by simp [hrole]) hopen (not_not_intro hact)).trans ?_)
  exact if_neg (by simp [hrole])

/-- Settles O39: a writer's four bytes are `PutBits`, a reader has none. -/
theorem ecfinStopsCoder : Obligations.EcfinStopsCoder := by
  refine ⟨fun s h hrole hact hroom => ?_, fun s hrole hopen hact => ecfin_reader hrole hopen hact⟩
  obtain ⟨-, hopen, -⟩ := h.coderOn hact
  obtain ⟨k, hput, happ⟩ := putBits_appended (v := s.eclow.toNat) h hopen hroom
  rw [ecfin_puts hrole hopen hact]
  refine ⟨_, issue_ok (t := stopped (s.withSink k)) ?_, Appends.of_sink ?_, rfl⟩
  · rw [putThen, hput]
  · rwa [succeed_sink, stopped_sink, sink_withSink]

/-! ### The lockstep of encoder and decoder -/

section Lockstep

variable {a c e d u v : State} {n : Nat}

/-- A step of the APM reads and writes no more than the shared coder's state (rule R194). -/
theorem SameCoder.apmStep (h : SameCoder e d) (bit : BitVec 1) (pr : Probability) (ctx : Nat) :
    (Machine.apmStep bit pr ctx e).1 = (Machine.apmStep bit pr ctx d).1 ∧
      SameCoder (Machine.apmStep bit pr ctx e).2 (Machine.apmStep bit pr ctx d).2 := by
  obtain ⟨hlow, hhigh, hpred, hpr, hlast, hrefine, hn, hrate, hidx, hcell, hparams⟩ := h
  have hlearned : (Machine.apmStep bit pr ctx e).2.cell = (Machine.apmStep bit pr ctx d).2.cell := by
    rw [apmStep_cell, apmStep_cell]
    simp only [apmLearn, setCell_cell, cellAt, hidx, hrate, hcell]
  have hselected : (Machine.apmStep bit pr ctx e).2.apmidx = (Machine.apmStep bit pr ctx d).2.apmidx :=
    congrArg (fun p : Params => BitVec.ofNat 32 ((asr (stretch p.invExp pr.toNat + 2048) 7).toNat + 33 * ctx)) hparams
  refine ⟨?_, ?_⟩
  · change apmAnswer pr (Machine.apmStep bit pr ctx e).2 = apmAnswer pr (Machine.apmStep bit pr ctx d).2
    simp only [apmAnswer, cellAt, hlearned, hselected, apmStep_params, hparams]
  · simp [SameCoder, hlow, hhigh, hpred, hpr, hlast, hrefine, hn, hrate, hselected, hlearned, hparams]

/-- Prediction reads no more than the shared coder's state (rule R214). -/
theorem SameCoder.predict (h : SameCoder e d) (ctx : Nat) :
    (Machine.predict ctx e).1 = (Machine.predict ctx d).1 ∧
      SameCoder (Machine.predict ctx e).2 (Machine.predict ctx d).2 := by
  have hh := h
  obtain ⟨-, -, hpred, -, hlast, hrefine, -⟩ := hh
  cases hd : d.ecapm with
  | false =>
    rw [predict_plain hd, predict_plain (hrefine.trans hd), hpred]
    exact ⟨rfl, h⟩
  | true =>
    rw [predict_refined hd, predict_refined (hrefine.trans hd), hpred, hlast]
    exact h.apmStep _ _ ctx

/-- The split point and the narrowing by the same bit keep encoder and decoder together (rule R215). -/
theorem SameCoder.narrow (h : SameCoder e d) (bit : Bool) (pr : Probability) :
    SameCoder (Machine.narrow bit (splitPoint pr e) e) (Machine.narrow bit (splitPoint pr d) d) := by
  obtain ⟨hlow, hhigh, hrest⟩ := h
  have hsplit : splitPoint pr e = splitPoint pr d := by rw [splitPoint, splitPoint, hlow, hhigh]
  cases bit with
  | false => exact ⟨by rw [narrow_eclow, narrow_eclow, hsplit]; rfl, hhigh, hrest⟩
  | true => exact ⟨hlow, by rw [narrow_echigh, narrow_echigh, hsplit]; rfl, hrest⟩

/-- The bit counter after `PutBits`, in every state. -/
theorem putLoop_wbits_add (val n : Nat) (k : Sink) : (putLoop val n k).wbits = k.wbits + BitVec.ofNat 64 n := by
  induction n generalizing k with
  | zero => simp [putLoop]
  | succ n ih =>
    rw [putLoop, ih, putBit_wbits, Nat.add_comm n 1, BitVec.ofNat_add, BitVec.add_assoc]
    rfl

/-- Both loops turn as often, since both test the shared interval: encoder and decoder stay together, and move the same
number of bits (rules R217, R218). -/
theorem SameCoder.shift (h : SameCoder a c) (hu : encShift n a = .ok u) (hv : decShift n c = .ok v) :
    SameCoder u v ∧ ∃ m, u.wbits = a.wbits + m ∧ v.rbits = c.rbits + m := by
  induction n generalizing a c with
  | zero =>
    cases hu
    cases hv
    exact ⟨h, 0, by simp, by simp⟩
  | succ n ih =>
    have hh := h
    obtain ⟨hlow, hhigh, hrest⟩ := hh
    by_cases htop : c.eclow.toNat / 2 ^ 24 = c.echigh.toNat / 2 ^ 24
    · have htop' : topBytesAgree a = true := (topBytesAgree_iff a).2 (by rwa [hlow, hhigh])
      rw [encShift, if_pos htop'] at hu
      rcases putBits_cases (a.echigh >>> 24).toNat 8 a with ⟨-, hput⟩ | ⟨-, hfull⟩
      · rcases decShift_turn n c htop with ⟨-, byte, -, hturn⟩ | ⟨-, hend⟩
        · have hbits := putLoop_wbits_add (a.echigh >>> 24).toNat 8 a.sink
          rw [hput] at hu
          rw [hturn] at hv
          generalize putLoop (a.echigh >>> 24).toNat 8 a.sink = k at hbits hu
          have hnext : SameCoder (shiftInterval (a.withSink k)) (decTurn byte c) :=
            ⟨congrArg (fun x : Word32 => x <<< 8) hlow, congrArg (fun x : Word32 => (x <<< 8) ||| 0xFF) hhigh, hrest⟩
          obtain ⟨hsame, m, hw, hr⟩ := ih hnext hu hv
          refine ⟨hsame, BitVec.ofNat 64 8 + m, ?_, ?_⟩
          · rw [hw, ← BitVec.add_assoc]
            exact congrArg (· + m) hbits
          · rw [hr, ← BitVec.add_assoc]
            rfl
        · rw [hend] at hv
          cases hv
      · rw [hfull] at hu
        cases hu
    · rw [encShift, if_neg (by rwa [topBytesAgree_iff, hlow, hhigh])] at hu
      rw [decShift, if_neg (by rwa [topBytesAgree_iff])] at hv
      cases hu
      cases hv
      exact ⟨h, 0, by simp, by simp⟩

/-- The same bit, observed with the same Probability (rule R216). -/
theorem SameCoder.observed (h : SameCoder u v) (bit : Bool) (pr : Probability) :
    SameCoder (Machine.observed bit pr u) (Machine.observed bit pr v) := by
  obtain ⟨hlow, hhigh, hpred, -, -, hrest⟩ := h
  refine ⟨hlow, hhigh, ?_, rfl, rfl, hrest⟩
  change (predUpdate bit u).ecpred = (predUpdate bit v).ecpred
  rw [predUpdate_ecpred, predUpdate_ecpred, hpred]

/-- A command that ended without an error has completed. -/
theorem Outcome.completed {i : Instr} {s t : State} {P : State → Prop} (h : Outcome i s P) (ht : exec i s = .next t)
    (herr : t.err = .ok) : ∃ w, t = succeed w ∧ P w := by
  rcases h.cases ht with ⟨k, rfl⟩ | hw
  · simp at herr
  · exact hw

/-- `RES` tells the decoded bit (rule R220). -/
theorem flagOf_of_res {bit : Bool} {b : BitVec 1} (h : BitVec.ofNat 64 bit.toNat = b.setWidth 64) : flagOf b = bit := by
  revert bit b
  decide

end Lockstep

/-- Settles O41: encoder and decoder predict, narrow, renormalise and observe alike, each step keeping `SameCoder`. -/
theorem lockstepOfOneBit : Obligations.LockstepOfOneBit := by
  intro e d e' d' b hsame harg he herr hd hderr hres
  obtain ⟨_, rfl, -, u, hu, rfl⟩ := (ecenc_outcome b e).completed he herr
  obtain ⟨_, rfl, -, v, hv, rfl⟩ := (ecdec_outcome d).completed hd hderr
  have hbit : flagOf b = decodedBit d := flagOf_of_res hres
  obtain ⟨hpr, hpredicted⟩ := hsame.predict d.arg.toNat
  rw [harg, hpr, hbit] at hu
  obtain ⟨hshifted, m, hw, hr⟩ := (hpredicted.narrow (decodedBit d) (predict d.arg.toNat d).1).shift hu hv
  refine ⟨?_, ?_⟩
  · rw [harg, hpr, hbit]
    exact hshifted.observed (decodedBit d) (predict d.arg.toNat d).1
  · change v.rbits = d.rbits + (u.wbits - e.wbits)
    rw [hw, hr, narrow_wbits, narrow_rbits, predict_wbits, predict_rbits, add_sub_cancel_left]

end Sys2Proof.Machine

/-! # The control commands

`NOP`, `CLRERR` and `SRESET` (rules R240 to R242): what each does when it runs, and that the host's write of its fixed word
runs it. -/

namespace Sys2Proof.Machine

section Commands

variable (s : State)

/-! ### The word of a command -/

/-- A write to `CMD` of the word of a command other than `OPEN` of a reader runs that command (rules R23, R104). -/
theorem hostMove_writeCmd_encode {i : Instr} (hwf : i.wf = true) (hi : i ≠ .openRole 2) :
    hostMove (.writeCmd (encode i)) s = exec i s :=
  issueWord_exec (decodeOfEncode i hwf) (not_opensUnwritten (.inl hi))

/-- A nonzero field area under the operation code of `SRESET`, which has no field, is illegal (rules R106, R242). -/
theorem sreset_reservedBits {w : Word32} (hopc : w.toNat / 2 ^ 24 = 0x7F) (harea : w.toNat % 2 ^ 24 ≠ 0) :
    hostMove (.writeCmd w) s = .next (takeError w ⟨.illegalCommand, 0⟩ s) :=
  reservedBitsRaise s w 0x7F 0 (by decide) hopc (Nat.one_le_iff_ne_zero.2 harea)

/-! ### The three commands, each the body of its section in spec/44 -/

theorem exec_nop : exec .nop s = .next (succeed s) :=
  issue_ok (i := .nop) (body := fun u => .ok u) rfl

theorem exec_clrerr :
    exec .clrerr s = .next (succeed { s with firsterr := .ok, iostat := 0, errcmd := 0, errarg := 0 }) :=
  issue_ok (i := .clrerr) (body := fun u => .ok { u with firsterr := .ok, iostat := 0, errcmd := 0, errarg := 0 }) rfl

/-- `SRESET` does what the hardware reset does (rules R242, R300). -/
theorem hostMove_hardwareReset : hostMove .hardwareReset s = exec .sreset s :=
  (sreset_outcome s).symm

end Commands

/-- Settles O16: `NOP` has the end of every command and no other effect, and its word is all zeros. -/
theorem nopDoesNothing : Obligations.NopDoesNothing := fun s =>
  ⟨exec_nop s, hostMove_writeCmd_encode (i := .nop) s rfl nofun⟩

/-- Settles O17: `CLRERR` clears the four fields of the record and then ends as every command does. -/
theorem clrerrClearsRecord : Obligations.ClrerrClearsRecord := fun s =>
  ⟨exec_clrerr s, hostMove_writeCmd_encode (i := .clrerr) s rfl nofun⟩

/-- Settles O18: `SRESET` is the register reset, shared with the hardware reset, and its format names no bits. -/
theorem sresetClearsRegisters : Obligations.SresetClearsRegisters := fun s =>
  ⟨sreset_outcome s, hostMove_writeCmd_encode (i := .sreset) s rfl nofun, hostMove_hardwareReset s,
    fun _ => sreset_reservedBits s⟩

end Sys2Proof.Machine

/-! # The end of every command

Completing, taking an error, and which of the two a command does (rules R262, R264). -/

namespace Sys2Proof.Machine

/-- Taking an error writes the fields of the error report and counts the command, on a first and on a later failure. -/
theorem takeError_frame (w : Word32) (r : Raised) (s : State) :
    takeError w r s = { s with
      err := (takeError w r s).err, firsterr := (takeError w r s).firsterr, iostat := (takeError w r s).iostat,
      errcmd := (takeError w r s).errcmd, errarg := (takeError w r s).errarg, cmdcnt := s.cmdcnt + 1 } := by
  by_cases hfirst : s.firsterr = .ok
  · rw [takeError_first hfirst]
  · rw [takeError_later hfirst]

/-- Settles O13: `SRESET` cannot fail, and every other command has an outcome that keeps its count and its record. -/
theorem everyCommandEnds : Obligations.EveryCommandEnds := by
  intro i s
  by_cases hreset : i = .sreset
  · subst hreset
    exact ⟨_, sreset_outcome s, .inl ⟨rfl, fun _ => rfl, fun hx => absurd rfl hx, fun hx => absurd rfl hx⟩⟩
  · obtain ⟨t, ht, hfailed | ⟨u, rfl, hin, hrecord, -⟩⟩ := kept_outcome i s hreset
    · exact ⟨t, ht, .inr hfailed⟩
    · have hcount : (succeed u).cmdcnt = s.cmdcnt + 1 := by rw [succeed_cmdcnt, hin.cmdcnt]
      refine ⟨_, ht, .inl ⟨rfl, fun hx => absurd hx hreset, fun _ => hcount, fun _ hclr => ?_⟩⟩
      obtain ⟨hfirsterr, hiostat, herrcmd, herrarg⟩ := hrecord hclr
      exact ⟨hfirsterr, hiostat, herrcmd, herrarg⟩

/-- Settles O14: a command that ended with an error took it, on the state before the command. -/
theorem failureChangesOnlyReport : Obligations.FailureChangesOnlyReport := by
  intro i s t ht herr
  obtain ⟨k, rfl⟩ := exec_failed ht herr
  exact takeError_frame _ _ s

/-- Settles O12: the two cases of taking an error. -/
theorem takingAnError : Obligations.TakingAnError :=
  fun _ _ _ => ⟨takeError_first, takeError_later⟩

end Sys2Proof.Machine

/-! # The reset state

Which commands an instance with no role, no map and an idle coder permits (rule R301). The role, the map and the coder decide
it; `ARG` and the parameters only decide between completing and `InvalidArgument`. -/

namespace Sys2Proof.Machine

section Fresh

variable {i : Instr} {s u : State}

/-! ### The permitted commands -/

/-- The list of rule R301. -/
def FreshCommand (i : Instr) : Prop :=
  i = .nop ∨ (∃ role, i = .openRole role) ∨ i = .squash ∨ i = .stretch ∨ i = .log2 ∨ i = .log2k ∨
    (∃ rate, i = .apmnew rate) ∨ i = .clrerr ∨ i = .sreset

/-- The command does not end with `IllegalCommand`: it completes, or what it refuses is an operand. -/
def Permitted (i : Instr) (s : State) : Prop := ∃ t, exec i s = .next t ∧ t.err ≠ .err .illegalCommand

theorem Permitted.of_succeed (h : exec i s = .next (succeed u)) : Permitted i s := ⟨_, h, nofun⟩

theorem Permitted.of_invalidArgument (h : exec i s = .next (takeError (encode i) ⟨.invalidArgument, 0⟩ s)) :
    Permitted i s := ⟨_, h, by simp⟩

/-- A first `OPEN`, of either role, only checks the size (rule R134). -/
theorem openRole_permitted {role : BitVec 2} (hwf : (Instr.openRole role).wf = true) (hrole : s.role = .none) :
    Permitted (.openRole role) s := by
  obtain rfl | rfl : role = 1 ∨ role = 2 := by simpa [Instr.wf] using hwf
  · rcases Nat.lt_or_ge s.params.omemSize s.arg.toNat with hlarge | hfits
    · exact .of_invalidArgument (openWriter_tooLarge hrole hlarge)
    · exact .of_succeed (openWriter_fits hrole hfits)
  · rcases Nat.lt_or_ge s.params.imemSize s.arg.toNat with hlarge | hfits
    · exact .of_invalidArgument (openReader_tooLarge hrole hlarge)
    · exact .of_succeed (openReader_fits hrole hfits)

/-- `STRETCH` only checks its operand (rule R175). -/
theorem stretch_permitted (s : State) : Permitted .stretch s := by
  obtain ⟨hrefused, -⟩ := logisticOperandRaises s
  rcases Nat.lt_or_ge 4095 s.arg.toNat with hlarge | hlevel
  · exact .of_invalidArgument (hrefused hlarge)
  · exact .of_succeed (stretch_answers hlevel)

/-- `LOG2` and `LOG2K` only check their operand (rules R176, R177). -/
theorem log2_log2k_permitted (s : State) : Permitted .log2 s ∧ Permitted .log2k s := by
  obtain ⟨-, hrefused⟩ := logisticOperandRaises s
  by_cases hoperand : s.arg.toNat = 0 ∨ 2 ^ 32 ≤ s.arg.toNat
  · obtain ⟨hlog2, hlog2k⟩ := hrefused hoperand
    exact ⟨.of_invalidArgument hlog2, .of_invalidArgument hlog2k⟩
  · obtain ⟨hzero, hword⟩ := not_or.1 hoperand
    exact ⟨.of_succeed (log2_answers hzero (Nat.not_le.1 hword)), .of_succeed (log2k_answers hzero (Nat.not_le.1 hword))⟩

/-- `APMNEW` with no coder running over the map only checks the count of contexts (rule R196). -/
theorem apmnew_permitted (rate : BitVec 4) (hfree : ¬ (s.ecact = true ∧ s.ecapm = true)) : Permitted (.apmnew rate) s := by
  obtain ⟨hrefused, -⟩ := mapOperandRaises s
  by_cases hcount : s.arg.toNat = 0 ∨ s.params.apmMaxCtx < s.arg.toNat
  · exact .of_invalidArgument (hrefused rate hfree hcount)
  · exact .of_succeed (apmnew_maps rate hfree (by omega) (by omega))

/-- With no role and an idle coder every command of the list is permitted (rule R301). -/
theorem FreshCommand.permitted (hi : FreshCommand i) (hwf : i.wf = true) (hrole : s.role = .none)
    (hidle : s.ecact = false) : Permitted i s := by
  rcases hi with rfl | ⟨role, rfl⟩ | rfl | rfl | rfl | rfl | ⟨rate, rfl⟩ | rfl | rfl
  · exact .of_succeed (exec_nop s)
  · exact openRole_permitted hwf hrole
  · exact .of_succeed (squash_answers s)
  · exact stretch_permitted s
  · exact (log2_log2k_permitted s).1
  · exact (log2_log2k_permitted s).2
  · exact apmnew_permitted rate (by simp [hidle])
  · exact .of_succeed (exec_clrerr s)
  · exact ⟨_, sreset_outcome s, nofun⟩

/-! ### Every other command -/

/-- With no role and no map every command off the list is illegal: it asks for a role, and `APMGET` for a map (rules R130, R197,
R301). -/
theorem illegal_of_not_freshCommand (hi : ¬ FreshCommand i) (hrole : s.role = .none) (hmap : s.apmvld = false) :
    exec i s = .next (takeError (encode i) ⟨.illegalCommand, 0⟩ s) := by
  have hwriter : s.role ≠ .writer := by simp [hrole]
  have hreader : s.role ≠ .reader := by simp [hrole]
  cases i with
  | nop | openRole | squash | stretch | log2 | log2k | apmnew | clrerr | sreset =>
    exact absurd (by simp [FreshCommand]) hi
  | wrbit | wrbits | ecenc => exact wrongRoleIsIllegal s _ (.inl ⟨by simp, hwriter⟩)
  | rdbit | rdbits | hasmore | ecdec => exact wrongRoleIsIllegal s _ (.inr (.inl ⟨by simp, hreader⟩))
  | close | ecinit | ecfin => exact wrongRoleIsIllegal s _ (.inr (.inr ⟨by simp, hrole⟩))
  | apmget bit pr =>
    obtain ⟨-, hnoMap, -⟩ := mapOperandRaises s
    exact hnoMap bit pr hmap

/-- Rule R301 on every state that agrees with the reset state on role, map and coder: exactly the list is permitted. -/
theorem exec_fresh (hwf : i.wf = true) (hrole : s.role = .none) (hidle : s.ecact = false) (hmap : s.apmvld = false) :
    ∃ t, exec i s = .next t ∧ (t.err ≠ .err .illegalCommand ↔ FreshCommand i) := by
  by_cases hi : FreshCommand i
  · obtain ⟨t, ht, herr⟩ := hi.permitted hwf hrole hidle
    exact ⟨t, ht, iff_of_true herr hi⟩
  · exact ⟨_, illegal_of_not_freshCommand hi hrole hmap, iff_of_false (by simp) hi⟩

end Fresh

/-- Settles O53: the registers of `State.reset` are 0 by its definition; the commands are those of a state with no role, no map
and an idle coder. -/
theorem resetState : Obligations.ResetState := by
  refine ⟨?registers, ?status, ?reads, fun _ _ _ hwf => exec_fresh hwf rfl rfl rfl⟩
  case registers => and_intros <;> rfl
  case status => and_intros <;> rfl
  case reads =>
    intro reg
    cases reg <;> rfl

end Sys2Proof.Machine

/-! # Words of the spec and the idle step -/

namespace Sys2Proof

/-- A word written out in the spec decodes to a command when the command's encoding is that word (rules R104, R111). -/
theorem decode_of_encode_eq {w : Word32} {i : Instr} (hwf : i.wf = true) (hw : encode i = w) : decode w = .ok i :=
  hw ▸ decodeOfEncode i hwf

/-- Settles O3: each word of vectors D is the encoding of the command beside it, and that command is well formed. -/
theorem specWordsDecode : Obligations.SpecWordsDecode := by
  refine ⟨?nop, ?openWriter, ?wrbitsTwelve, ?wrbitsLongest, ?apmnew, ?apmget, ?ecinit, ?ecenc, ?sreset⟩
  all_goals exact decode_of_encode_eq rfl rfl

/-- Settles O7: with no input waiting the step takes its idle branch (log 4). -/
theorem idleStepChangesNothing : Obligations.IdleStepChangesNothing := by
  intro s hidle
  rw [Machine.step, Machine.stepInput, hidle]

end Sys2Proof
